-- ==== Sys2Proof/Word.lean ====
section
/-! DEFINITION. The word types of the BARCH codec core and its tags (spec/00_scope.md R8; spec/30_encoding.md R90, R98). -/

namespace Sys2Proof

/-- One byte: a pixel, or one location of an address space (R8, R60). -/
abbrev Byte := BitVec 8

/-- A 32-bit register, operand or result (R22, R90). -/
abbrev Word32 := BitVec 32

/-- A command word: `OPC[79:72] N[71:64] A[63:32] B[31:0]` (R90). -/
abbrev CommandWord := BitVec 80

/-- How one group of four pixels is represented in the bitstream (R98); a Literal carries its four
payload bytes, group pixel 0 first. -/
inductive Tag where
  | white
  | black
  | literal (p0 p1 p2 p3 : Byte)
deriving DecidableEq, Repr

end Sys2Proof
end

