-- ==== Sys2Proof/Config.lean ====
section
/-! DEFINITION. What is fixed for one instance of the block: the constants of the format (spec/00_scope.md R5), the
implementation parameters (R6), the five address spaces (spec/20_memory.md R60), and the values the spec leaves open. -/

namespace Sys2Proof
namespace Config

/-- `HEADER_LEN` (R5). -/
def headerLen : Nat := 19

/-- `MAGIC0 = 'B'` (R5). PRESUMED: the ASCII code, from general knowledge as the spec itself says
(93 I-GK-1; unsafe; log 11). -/
def magic0 : Byte := 0x42#8

/-- `MAGIC1 = 'A'` (R5). PRESUMED as `magic0` (unsafe; log 11). -/
def magic1 : Byte := 0x41#8

/-- `FORMAT_VERSION` (R5). -/
def formatVersion : Byte := 1#8

/-- `WHITE` (R5), also the value of a padding pixel (R14). -/
def white : Byte := 255#8

/-- `BLACK` (R5). -/
def black : Byte := 0#8

/-- `DIM_MAX`, the largest legal width or height (R6, D6). PRESUMED: the largest positive 32-bit `int`
(93 I-GK-2; unsafe; log 11). -/
def dimMax : Nat := 2 ^ 31 - 1

/-- `NMAX`, the largest bit count of BW_PUTBITS and BR_GETBITS (R6, D7). -/
def nMax : Nat := 32

end Config

/-- The five byte-addressed address spaces (R60). -/
inductive Space where
  | img
  | sin
  | sout
  | wbuf
  | ribuf
deriving DecidableEq, Repr

/-- The implementation parameters of R6. Plain data, so that a claim holds for every instance and a test can choose
one (log 2). -/
structure Params where
  imgCap : Nat
  sinCap : Nat
  soutCap : Nat
  wbufCap : Nat
deriving DecidableEq, Repr

/-- `RIBUF_CAP = ceil(IMG_CAP / 8)`, derived (R6, R66). -/
def Params.ribufCap (p : Params) : Nat := (p.imgCap + 7) / 8

/-- The capacity of a space: its addresses are `0 .. cap - 1` (R60). -/
def Params.cap (p : Params) : Space → Nat
  | .img => p.imgCap
  | .sin => p.sinCap
  | .sout => p.soutCap
  | .wbuf => p.wbufCap
  | .ribuf => p.ribufCap

/-- The constraints R6 puts on the parameters. -/
abbrev Params.Legal (p : Params) : Prop :=
  (1 ≤ p.imgCap ∧ p.imgCap ≤ 2 ^ 32 - 1) ∧ (19 ≤ p.sinCap ∧ p.sinCap ≤ 2 ^ 32 - 1) ∧
  (19 ≤ p.soutCap ∧ p.soutCap ≤ 2 ^ 32 - 1) ∧ (1 ≤ p.wbufCap ∧ p.wbufCap ≤ 2 ^ 32 - 1)

/-- DESIGN CHOICE (unsafe; log 2): the capacities of `State.reset`, the defaults of 92_eei_decisions.md "Open
parameters"; the spec fixes none, and no statement rests on them. -/
def Params.default : Params := { imgCap := 4096, sinCap := 4096, soutCap := 4096, wbufCap := 4096 }

namespace Config

/-- The byte a location other than one of WBUF holds when neither the host nor the block has written it: a free value for
each space and address (R37, R38, R311; 93 I-1, I-5). One value per location, since reading a byte twice gives the same value (R72).
DESIGN CHOICE (safe; log 3). -/
opaque powerOnByte : Space → Nat → Byte

/-- The byte of WBUF at an address that BW_LEN has not reached, after the `n`-th change of the writer: a free value (R64,
R122; 93 I-2). DESIGN CHOICE (safe; log 6). -/
opaque wbufByte (n : Nat) (addr : Nat) : Byte

/-- The byte of IMG at an address after the `n`-th decode that ran out of data: a free value (R201, R202, R226; 93 I-3,
I-4). DESIGN CHOICE (safe; log 4). -/
opaque freeByte (n : Nat) (addr : Nat) : Byte

end Config
end Sys2Proof
end

