-- ==== Sys2Proof/Machine/State.lean ====
section
/-! DEFINITION. The state of the block as plain data (spec/10_state.md R22 to R33, spec/20_memory.md R60), the outcomes
of a command and the reasons a step can stop. -/

namespace Sys2Proof
namespace Machine

/-- The causes a command can raise (60_exceptions.md R281 to R284). -/
inductive Cause where
  /-- InvalidInput: no image described (R281). -/
  | nullBuffer
  /-- InvalidInput: width 0 or above DIM_MAX (R281). -/
  | badWidth
  /-- InvalidInput: height 0 or above DIM_MAX (R281). -/
  | badHeight
  /-- FormatError: buffer length below 19 (R282). -/
  | tooShort
  /-- FormatError: bad magic (R282). -/
  | badMagic
  /-- FormatError: unsupported version (R282). -/
  | badVersion
  /-- FormatError: `19 + R + B > L` (R282). -/
  | truncated
  /-- FormatError: header width or height 0 or above DIM_MAX (R282). -/
  | badDimensions
  /-- FormatError: `R != ceil(H / 8)` (R282). -/
  | badRowIndexCount
  /-- FormatError: a bit read with the slice exhausted (R282). -/
  | outOfData
  /-- FormatError: reserved and unreachable (R100, R282); nothing raises it. -/
  | invalidTag
  /-- FormatError: row `y >= HEIGHT` on the decode side (R282). -/
  | rowOverrun
  /-- ResourceError: `W * H > IMG_CAP` (R283). -/
  | imageCapacity
  /-- ResourceError: the bits to put do not fit WBUF (R283). -/
  | writerCapacity
  /-- ResourceError: `19 + R + B > SOUT_CAP` (R283). -/
  | streamCapacity
  /-- IllegalCommand: a reserved OPC (R284). -/
  | reservedOpcode
  /-- IllegalCommand: `N > 32` (R284). -/
  | countOutOfRange
  /-- IllegalCommand: FIN = 1 (R284). -/
  | writerFinished
  /-- IllegalCommand: FIN = 0 (R284). -/
  | writerNotFinished
  /-- IllegalCommand: a slice or buffer length beyond SIN_CAP (R284). -/
  | sliceOutOfRange
  /-- IllegalCommand: row `y >= HEIGHT` on the encode side or in REI_TEST (R284). -/
  | rowOutOfRange
  /-- IllegalCommand: group `g >= ceil(WIDTH / 4)` (R284). -/
  | groupOutOfRange
  /-- IllegalCommand: RI_VALID = 0 (R284). -/
  | noRowIndex
deriving DecidableEq, Repr

/-- The response to one command: a status word and a result word (30_encoding.md R95). -/
structure Response where
  status : BitVec 16
  result : Word32
deriving DecidableEq, Repr

/-- What the host does between commands (20_memory.md R60, 70_reset_and_hazards.md R316): issue a command, write IMG or
SIN, or copy SOUT to SIN as the round trip of R227 does. The host's reads change nothing and have no entry. -/
inductive HostAction where
  /-- Issue a command word on the command port (R90). -/
  | command (w : CommandWord)
  /-- Write bytes to IMG from an address up (R60). -/
  | writeImg (addr : Nat) (bytes : List Byte)
  /-- Write bytes to SIN from an address up (R60). -/
  | writeSin (addr : Nat) (bytes : List Byte)
  /-- Read `len` bytes of SOUT from `src` and write them to SIN from `dst` (R60, R227). -/
  | copySout (src dst len : Nat)
deriving DecidableEq, Repr

/-- The contents of one space: (address, byte) pairs with strictly rising addresses. An address that is not listed holds
a byte nobody has written, or a byte of WBUF that has become unspecified; what it reads as is a free value, see
`State.unlisted` (log 3, log 6). -/
abbrev Memory := List Host.Cell

/-- Why the machine stops. Every command of the spec ends normally or with an error it reports, so these are faults of
the model alone (R67, 93 I-21). -/
inductive Fault where
  /-- Raised by the one-byte accesses `memRead` and `memWrite` when the block reaches an address at or beyond a space's
  capacity. Safe: R67 calls it unreachable and "a fault of the model, not a value". -/
  | outsideSpace (sp : Space) (addr : Nat)
deriving DecidableEq, Repr

/-- Why an instruction is turned away. -/
inductive Refusal where
  /-- Raised by an arm of `exec` whose instruction has no meaning yet. Safe: nothing can be proved of it. No arm uses
  it. -/
  | notModelled (mnemonic : String)
deriving DecidableEq, Repr

/-- The state of one instance of the block. -/
structure State where
  /-- Own: the implementation parameters of R6; nothing writes them (R36, log 2). -/
  params : Params
  /-- STATUS, 0x00 (R22, R23). -/
  status : BitVec 16
  /-- RESULT, 0x01 (R25). -/
  result : Word32
  /-- WIDTH, 0x02 (R24). -/
  width : Word32
  /-- HEIGHT, 0x03 (R24). -/
  height : Word32
  /-- RI_COUNT, 0x04 (R26). -/
  riCount : Word32
  /-- BS_COUNT, 0x05 (R26). -/
  bsCount : Word32
  /-- BW_LEN, 0x06 (R27). -/
  bwLen : Word32
  /-- BW_STATE.CUR, bits [7:0] of 0x07 (R27). -/
  cur : Byte
  /-- BW_STATE.CURSOR, bits [10:8] of 0x07 (R27). -/
  bwCursor : BitVec 3
  /-- BW_STATE.FIN, bit [11] of 0x07 (R28). -/
  fin : Bool
  /-- BR_BASE, 0x08 (R29). -/
  brBase : Word32
  /-- BR_LEN, 0x09 (R29). -/
  brLen : Word32
  /-- BR_IDX, 0x0A (R29). -/
  brIdx : Word32
  /-- BR_STATE.CURSOR, bits [2:0] of 0x0B (R29). -/
  brCursor : BitVec 3
  /-- FLAGS.IMG_VALID, bit [0] of 0x0C (R30). -/
  imgValid : Bool
  /-- FLAGS.RI_VALID, bit [1] of 0x0C (R31). -/
  riValid : Bool
  /-- SOUT_LEN, 0x0D (R33). -/
  soutLen : Word32
  /-- The image space (R61). -/
  img : Memory
  /-- The input stream space (R62). -/
  sin : Memory
  /-- The output stream space (R63). -/
  sout : Memory
  /-- The Bit Writer's buffer (R64). -/
  wbuf : Memory
  /-- The row emptiness bitmap (R65). -/
  ribuf : Memory
  /-- Own: what the host does next, in order (log 1). -/
  port : List HostAction
  /-- The responses returned so far, newest first (R95, R321). -/
  responses : List Response
  /-- Own: the row of the group the Block Decoder is at, the local `y` of R201 (log 5). -/
  tagRow : Word32
  /-- Own: the group the Block Decoder is at, the local `g` of R201 and R202 (log 5). -/
  tagGroup : Word32
  /-- Own: how many times the bytes of WBUF that BW_LEN has not reached have been left unspecified (log 6). -/
  wbufDraws : Nat
  /-- Own: how many times IMG bytes have been left unspecified (log 4). -/
  draws : Nat
deriving DecidableEq, Repr

/-- Power-on reset of an instance with the given parameters: every register 0 (R37, R310), no memory byte written (R311),
no command issued and no response returned. -/
def State.resetWith (p : Params) : State where
  params := p
  status := 0#16
  result := 0#32
  width := 0#32
  height := 0#32
  riCount := 0#32
  bsCount := 0#32
  bwLen := 0#32
  cur := 0#8
  bwCursor := 0#3
  fin := false
  brBase := 0#32
  brLen := 0#32
  brIdx := 0#32
  brCursor := 0#3
  imgValid := false
  riValid := false
  soutLen := 0#32
  img := []
  sin := []
  sout := []
  wbuf := []
  ribuf := []
  port := []
  responses := []
  tagRow := 0#32
  tagGroup := 0#32
  wbufDraws := 0
  draws := 0

/-- The machine right after reset (R37), with the capacities of `Params.default` (DESIGN CHOICE, log 2). -/
def State.reset : State := State.resetWith Params.default

end Machine
end Sys2Proof
end

