-- ==== Sys2Proof/Machine/Flags.lean ====
section
/-! DEFINITION. The status word and the composed registers: error kinds and causes (spec/60_exceptions.md R280 to R284,
R290), the fields of BW_STATE, BR_STATE and FLAGS, and the register file as RDREG reads it (spec/10_state.md R22). -/

namespace Sys2Proof
namespace Machine

/-- `STATUS.KIND` of a cause: 1 InvalidInput, 2 FormatError, 4 ResourceError, 5 IllegalCommand (R280). Kind 3, IOError, is
never produced (R298). -/
def kindCode : Cause → Nat
  | .nullBuffer => 1
  | .badWidth => 1
  | .badHeight => 1
  | .tooShort => 2
  | .badMagic => 2
  | .badVersion => 2
  | .truncated => 2
  | .badDimensions => 2
  | .badRowIndexCount => 2
  | .outOfData => 2
  | .invalidTag => 2
  | .rowOverrun => 2
  | .imageCapacity => 4
  | .writerCapacity => 4
  | .streamCapacity => 4
  | .reservedOpcode => 5
  | .countOutOfRange => 5
  | .writerFinished => 5
  | .writerNotFinished => 5
  | .sliceOutOfRange => 5
  | .rowOutOfRange => 5
  | .groupOutOfRange => 5
  | .noRowIndex => 5

/-- `STATUS.CAUSE` of a cause (R281 to R284). -/
def causeCode : Cause → Nat
  | .nullBuffer => 0x01
  | .badWidth => 0x02
  | .badHeight => 0x03
  | .tooShort => 0x01
  | .badMagic => 0x02
  | .badVersion => 0x03
  | .truncated => 0x04
  | .badDimensions => 0x05
  | .badRowIndexCount => 0x06
  | .outOfData => 0x07
  | .invalidTag => 0x08
  | .rowOverrun => 0x09
  | .imageCapacity => 0x01
  | .writerCapacity => 0x02
  | .streamCapacity => 0x03
  | .reservedOpcode => 0x01
  | .countOutOfRange => 0x02
  | .writerFinished => 0x03
  | .writerNotFinished => 0x04
  | .sliceOutOfRange => 0x05
  | .rowOutOfRange => 0x06
  | .groupOutOfRange => 0x07
  | .noRowIndex => 0x08

/-- A status word with KIND in bits [3:0] and CAUSE in bits [11:4] (R22, R280). -/
def statusWord (kind cause : Nat) : BitVec 16 := (BitVec.ofNat 16 cause <<< 4) ||| BitVec.ofNat 16 kind

/-- The status word of success (R23). -/
def statusOk : BitVec 16 := 0x0000#16

/-- The status word of a raised cause, `CAUSE << 4 | KIND` (R285). -/
def causeStatus (c : Cause) : BitVec 16 := statusWord (kindCode c) (causeCode c)

/-- `STATUS.KIND`, bits [3:0] (R22). -/
def statusKind (w : BitVec 16) : BitVec 4 := w.extractLsb' 0 4

/-- `STATUS.CAUSE`, bits [11:4] (R22). -/
def statusCause (w : BitVec 16) : BitVec 8 := w.extractLsb' 4 8

/-- The recommended cause strings; no rule depends on them (R290). -/
def causeText : Cause → String
  | .nullBuffer => "null pixel buffer"
  | .badWidth => "non-positive width"
  | .badHeight => "non-positive height"
  | .tooShort => "buffer shorter than 19-byte header"
  | .badMagic => "bad magic"
  | .badVersion => "unsupported version"
  | .truncated => "declared section length exceeds buffer"
  | .badDimensions => "zero or oversized image dimension"
  | .badRowIndexCount => "row-index byte count is not ceil(height/8)"
  | .outOfData => "bitstream exhausted"
  | .invalidTag => "invalid tag code"
  | .rowOverrun => "row beyond image height"
  | .imageCapacity => "image does not fit image memory"
  | .writerCapacity => "bitstream does not fit writer buffer"
  | .streamCapacity => "container does not fit output memory"
  | .reservedOpcode => "reserved opcode"
  | .countOutOfRange => "bit count above 32"
  | .writerFinished => "writer already finished"
  | .writerNotFinished => "writer not finished"
  | .sliceOutOfRange => "slice beyond input memory"
  | .rowOutOfRange => "row out of range"
  | .groupOutOfRange => "group out of range"
  | .noRowIndex => "no row index"

/-- BW_STATE: CUR in [7:0], CURSOR in [10:8], FIN in [11], 0 above (R22). -/
def State.bwState (s : State) : BitVec 16 := (0#4 ++ BitVec.ofBool s.fin ++ s.bwCursor ++ s.cur : BitVec (4 + 1 + 3 + 8))

/-- BR_STATE: CURSOR in [2:0], 0 above (R22). -/
def State.brState (s : State) : BitVec 8 := (0#5 ++ s.brCursor : BitVec (5 + 3))

/-- FLAGS: IMG_VALID in [0], RI_VALID in [1], 0 above (R22). -/
def State.flags (s : State) : BitVec 8 :=
  (0#6 ++ BitVec.ofBool s.riValid ++ BitVec.ofBool s.imgValid : BitVec (6 + 1 + 1))

/-- Register number `r` as RDREG reads it, zero-extended to 32 bits; a number from 0x0E up reads 0 (R22, R262). -/
def readReg (r : Word32) (s : State) : Word32 :=
  match r.toNat with
  | 0x00 => s.status.setWidth 32
  | 0x01 => s.result
  | 0x02 => s.width
  | 0x03 => s.height
  | 0x04 => s.riCount
  | 0x05 => s.bsCount
  | 0x06 => s.bwLen
  | 0x07 => s.bwState.setWidth 32
  | 0x08 => s.brBase
  | 0x09 => s.brLen
  | 0x0A => s.brIdx
  | 0x0B => s.brState.setWidth 32
  | 0x0C => s.flags.setWidth 32
  | 0x0D => s.soutLen
  | _ => 0#32

/-- The 48-bit response word: status in [47:32], result in [31:0] (R95). -/
def responseWord (r : Response) : BitVec 48 := (r.status ++ r.result : BitVec (16 + 32))

end Machine
end Sys2Proof
end

