-- ==== Sys2Proof/Syntax.lean ====
section
/-! DEFINITION. The instructions: one constructor per row of spec/opcode_table.json, with the operands the row uses
(spec/30_encoding.md R92, R94, R98). -/

namespace Sys2Proof

/-- The 24 commands (R92) and the three tag codes of the bitstream (R98). A field the command does not use is not an
operand (R91). -/
inductive Instr where
  /-- NOP (R260). -/
  | nop
  /-- SRST (R261). -/
  | srst
  /-- RDREG: register number `r = A` (R262). -/
  | rdreg (r : Word32)
  /-- IMGDESC: width `w = A`, height `h = B` (R263). -/
  | imgdesc (w h : Word32)
  /-- IMGREL (R264). -/
  | imgrel
  /-- BW_INIT (R122). -/
  | bwInit
  /-- BW_PUTBIT: the bit `b = B[0]` (R123). -/
  | bwPutbit (b : Bool)
  /-- BW_PUTBITS: count `n = N`, value `v = B` (R124). -/
  | bwPutbits (n : BitVec 8) (v : Word32)
  /-- BW_PUTBYTE: the byte `v = B[7:0]` (R125). -/
  | bwPutbyte (v : Byte)
  /-- BW_FINISH (R126). -/
  | bwFinish
  /-- BR_INIT: slice base `A`, slice length `B` (R141). -/
  | brInit (base len : Word32)
  /-- BR_GETBIT (R142). -/
  | brGetbit
  /-- BR_GETBITS: count `k = N` (R143). -/
  | brGetbits (k : BitVec 8)
  /-- BR_GETBYTE (R144). -/
  | brGetbyte
  /-- REI_BUILD (R161). -/
  | reiBuild
  /-- REI_TEST: row `y = A` (R163). -/
  | reiTest (y : Word32)
  /-- BE_ENCODE_GROUP: row `y = A`, group `g = B` (R181). -/
  | beEncodeGroup (y g : Word32)
  /-- BE_ENCODE_ROW: row `y = A` (R182). -/
  | beEncodeRow (y : Word32)
  /-- BD_DECODE_GROUP: row `y = A`, group `g = B` (R201). -/
  | bdDecodeGroup (y g : Word32)
  /-- BD_DECODE_ROW: row `y = A` (R202). -/
  | bdDecodeRow (y : Word32)
  /-- CF_ASSEMBLE (R220). -/
  | cfAssemble
  /-- CF_PARSE: buffer length `l = A` (R221). -/
  | cfParse (l : Word32)
  /-- CF_ENCODE (R223). -/
  | cfEncode
  /-- CF_DECODE: buffer length `l = A` (R224). -/
  | cfDecode (l : Word32)
  /-- The tag code `0` (R98). -/
  | tagWhite
  /-- The tag code `10` (R98). -/
  | tagBlack
  /-- The tag code `11` and its four payload bytes (R98). -/
  | tagLiteral (p q r s : Byte)
deriving DecidableEq, Repr

/-- The instruction a tag is (R98). -/
def Tag.toInstr : Tag → Instr
  | .white => .tagWhite
  | .black => .tagBlack
  | .literal p q r s => .tagLiteral p q r s

end Sys2Proof
end

