-- ==== Sys2Proof/Decode.lean ====
section
/-! DEFINITION. Decoding and encoding: the command word (spec/30_encoding.md R90 to R94), the tag code (R98, R99), the
pseudo-commands (R97), and the bit-order helpers of spec/00_scope.md R8 to R10. -/

namespace Sys2Proof

/-! ### Bit order -/

/-- The `n` lowest bits of `v`, most significant of them first: bit `n-1` down to bit 0 (R9, R94, R124). -/
def msbBits {w : Nat} : (n : Nat) → (v : BitVec w) → List Bool
  | 0, _ => []
  | n + 1, v => v.getLsbD n :: msbBits n v

/-- One more bit at the low end: `(v << 1) | b` (R143). -/
def shiftIn {w : Nat} (v : BitVec w) (b : Bool) : BitVec w := (v <<< 1) ||| (BitVec.ofBool b).setWidth w

/-- The number whose bits are `bs`, first bit most significant. -/
def msbValue {w : Nat} (bs : List Bool) : BitVec w := bs.foldl shiftIn 0#w

/-! ### The command word -/

/-- Why bits stand for no instruction. -/
inductive DecodeError where
  /-- A reserved OPC (R93): the command raises IllegalCommand(ReservedOpcode). -/
  | reservedOpcode (opc : Byte)
  /-- The bits end inside a tag code (R99). -/
  | truncatedTag
  /-- Bits follow the one tag code asked for. -/
  | trailingBits
deriving DecidableEq, Repr

/-- `OPC = cmd[79:72]` (R90). -/
def CommandWord.opc (w : CommandWord) : Byte := w.extractLsb' 72 8

/-- `N = cmd[71:64]` (R90). -/
def CommandWord.n (w : CommandWord) : Byte := w.extractLsb' 64 8

/-- `A = cmd[63:32]` (R90). -/
def CommandWord.a (w : CommandWord) : Word32 := w.extractLsb' 32 32

/-- `B = cmd[31:0]` (R90). -/
def CommandWord.b (w : CommandWord) : Word32 := w.extractLsb' 0 32

/-- The opcode map of R92. OPC alone selects the command (R90); a field the command does not use is ignored (R91);
BW_PUTBIT takes `B[0]` and BW_PUTBYTE `B[7:0]` (R94); every other OPC is reserved (R93). -/
def decodeCommand (w : CommandWord) : Except DecodeError Instr :=
  match (CommandWord.opc w).toNat with
  | 0x00 => .ok .nop
  | 0x01 => .ok .srst
  | 0x02 => .ok (.rdreg (CommandWord.a w))
  | 0x03 => .ok (.imgdesc (CommandWord.a w) (CommandWord.b w))
  | 0x04 => .ok .imgrel
  | 0x10 => .ok .bwInit
  | 0x11 => .ok (.bwPutbit ((CommandWord.b w).getLsbD 0))
  | 0x12 => .ok (.bwPutbits (CommandWord.n w) (CommandWord.b w))
  | 0x13 => .ok (.bwPutbyte ((CommandWord.b w).extractLsb' 0 8))
  | 0x14 => .ok .bwFinish
  | 0x20 => .ok (.brInit (CommandWord.a w) (CommandWord.b w))
  | 0x21 => .ok .brGetbit
  | 0x22 => .ok (.brGetbits (CommandWord.n w))
  | 0x23 => .ok .brGetbyte
  | 0x30 => .ok .reiBuild
  | 0x31 => .ok (.reiTest (CommandWord.a w))
  | 0x40 => .ok (.beEncodeGroup (CommandWord.a w) (CommandWord.b w))
  | 0x41 => .ok (.beEncodeRow (CommandWord.a w))
  | 0x50 => .ok (.bdDecodeGroup (CommandWord.a w) (CommandWord.b w))
  | 0x51 => .ok (.bdDecodeRow (CommandWord.a w))
  | 0x60 => .ok .cfAssemble
  | 0x61 => .ok (.cfParse (CommandWord.a w))
  | 0x62 => .ok .cfEncode
  | 0x63 => .ok (.cfDecode (CommandWord.a w))
  | _ => .error (.reservedOpcode (CommandWord.opc w))

/-! ### The tag code -/

/-- The next byte of a bit string, most significant bit first (R98), and the bits after it. -/
def takeByte (bs : List Bool) : Except DecodeError (Byte × List Bool) :=
  if bs.length < 8 then .error .truncatedTag else .ok (msbValue (bs.take 8), bs.drop 8)

/-- The four payload bytes of a Literal, group pixel 0 first (R98), and the bits after them. -/
def takePayload (bs : List Bool) : Except DecodeError (Tag × List Bool) :=
  match takeByte bs with
  | .error e => .error e
  | .ok (p0, bs1) =>
    match takeByte bs1 with
    | .error e => .error e
    | .ok (p1, bs2) =>
      match takeByte bs2 with
      | .error e => .error e
      | .ok (p2, bs3) =>
        match takeByte bs3 with
        | .error e => .error e
        | .ok (p3, rest) => .ok (.literal p0 p1 p2 p3, rest)

/-- The prefix code of R99: `0` is White, `10` Black, `11` Literal with 32 more bits. The only bits it refuses are those
that end inside a code; no code is illegal (R100). -/
def decodeTag : List Bool → Except DecodeError (Tag × List Bool)
  | false :: rest => .ok (.white, rest)
  | true :: false :: rest => .ok (.black, rest)
  | true :: true :: rest => takePayload rest
  | [true] => .error .truncatedTag
  | [] => .error .truncatedTag

/-! ### Words and instructions -/

/-- The two forms of encoding of spec/opcode_table.json: a command word and a tag code in stream order. -/
inductive Encoding where
  | command (w : CommandWord)
  | tag (bits : List Bool)
deriving DecidableEq, Repr

/-- The instruction an encoding stands for; a tag's bits are exactly one code. -/
def decode : Encoding → Except DecodeError Instr
  | .command w => decodeCommand w
  | .tag bs =>
    match decodeTag bs with
    | .ok (t, []) => .ok t.toInstr
    | .ok (_, _ :: _) => .error .trailingBits
    | .error e => .error e

/-- The command word with the given fields (R90). -/
def commandWord (opc n : Byte) (a b : Word32) : CommandWord := opc ++ n ++ a ++ b

/-- The bits of a tag in stream order: its code, then the payload of a Literal, each byte most significant bit first
(R98). -/
def Tag.bits : Tag → List Bool
  | .white => [false]
  | .black => [true, false]
  | .literal p0 p1 p2 p3 => [true, true] ++ msbBits 8 p0 ++ msbBits 8 p1 ++ msbBits 8 p2 ++ msbBits 8 p3

/-- The encoding of an instruction (R92, R98); a field the command does not use is assembled as 0 (R96). -/
def encode : Instr → Encoding
  | .nop => .command (commandWord 0x00 0 0 0)
  | .srst => .command (commandWord 0x01 0 0 0)
  | .rdreg r => .command (commandWord 0x02 0 r 0)
  | .imgdesc w h => .command (commandWord 0x03 0 w h)
  | .imgrel => .command (commandWord 0x04 0 0 0)
  | .bwInit => .command (commandWord 0x10 0 0 0)
  | .bwPutbit b => .command (commandWord 0x11 0 0 ((BitVec.ofBool b).setWidth 32))
  | .bwPutbits n v => .command (commandWord 0x12 n 0 v)
  | .bwPutbyte v => .command (commandWord 0x13 0 0 (v.setWidth 32))
  | .bwFinish => .command (commandWord 0x14 0 0 0)
  | .brInit base len => .command (commandWord 0x20 0 base len)
  | .brGetbit => .command (commandWord 0x21 0 0 0)
  | .brGetbits k => .command (commandWord 0x22 k 0 0)
  | .brGetbyte => .command (commandWord 0x23 0 0 0)
  | .reiBuild => .command (commandWord 0x30 0 0 0)
  | .reiTest y => .command (commandWord 0x31 0 y 0)
  | .beEncodeGroup y g => .command (commandWord 0x40 0 y g)
  | .beEncodeRow y => .command (commandWord 0x41 0 y 0)
  | .bdDecodeGroup y g => .command (commandWord 0x50 0 y g)
  | .bdDecodeRow y => .command (commandWord 0x51 0 y 0)
  | .cfAssemble => .command (commandWord 0x60 0 0 0)
  | .cfParse l => .command (commandWord 0x61 0 l 0)
  | .cfEncode => .command (commandWord 0x62 0 0 0)
  | .cfDecode l => .command (commandWord 0x63 0 l 0)
  | .tagWhite => .tag Tag.white.bits
  | .tagBlack => .tag Tag.black.bits
  | .tagLiteral p q r s => .tag (Tag.literal p q r s).bits

/-! ### The opcode table's numbers -/

/-- The bits of a number from its highest set bit down to bit 0. -/
def topBits (w : Nat) : List Bool :=
  if w = 0 then [] else (List.range (w.log2 + 1)).map fun i => w.testBit (w.log2 - i)

/-- The bits of a tag row's number in stream order. DESIGN CHOICE (safe; log 12): the table writes a tag as a pattern
of 1, 2 or 34 bits and does not say how it is numbered; the number's highest set bit is taken as the first bit of a code
that begins with 1, and 0 is the code `0`. -/
def tableTagBits (w : Nat) : List Bool := if w = 0 then [false] else topBits w

/-- A row of at most this many bits is a tag row, a wider one a command row. -/
def tagRowBits : Nat := 40

/-- The instruction the decoder reads from a row's number: a row of 80 bits is a command word, taken whole (R70, R90),
and a row of at most 40 bits a tag code. -/
def decodeTableWord (nbits w : Nat) : Option Instr :=
  if nbits ≤ tagRowBits then
    match decodeTag (tableTagBits w) with
    | .ok (t, _) => some t.toInstr
    | .error _ => none
  else
    match decodeCommand (BitVec.ofNat 80 w) with
    | .ok i => some i
    | .error _ => none

/-! ### Pseudo-commands (R97) -/

/-- The pseudo-commands of R97. -/
inductive Pseudo where
  | putWhite
  | putBlack
  | putLittag
  | putLiteral (b0 b1 b2 b3 : Byte)
  | rdstatus
  | rdresult
deriving DecidableEq, Repr

/-- What each pseudo-command expands to; each command of the expansion is a command of its own (R97). -/
def Pseudo.expand : Pseudo → List Instr
  | .putWhite => [.bwPutbit false]
  | .putBlack => [.bwPutbits 2 0b10]
  | .putLittag => [.bwPutbits 2 0b11]
  | .putLiteral b0 b1 b2 b3 => [.bwPutbits 2 0b11, .bwPutbyte b0, .bwPutbyte b1, .bwPutbyte b2, .bwPutbyte b3]
  | .rdstatus => [.rdreg 0x00]
  | .rdresult => [.rdreg 0x01]

end Sys2Proof
end

