-- ==== Sys2Proof/Machine/Operands.lean ====
section
/-! DEFINITION. The operand forms of the commands: image geometry (spec/00_scope.md R10, R13, R14), classification of a
group (spec/43_block_encoder.md R180) and the fields of a container header (R10, spec/30_encoding.md R102). -/

namespace Sys2Proof
namespace Machine

/-- `ceil(a / b)` for `b > 0`: the least `q` with `q * b >= a` (R10). -/
def ceilDiv (a b : Nat) : Nat := (a + b - 1) / b

/-- `G(W) = ceil(W / 4)`, the number of groups of a row (R14). -/
def groupCount (w : Nat) : Nat := ceilDiv w 4

/-- `n(g) = min(4, W - 4g)`, the valid count of group `g` (R14). -/
def validCount (w g : Nat) : Nat := min 4 (w - 4 * g)

/-- The address of pixel `(x, y)` of an image of width `w` (R13). -/
def pixelAddr (w x y : Nat) : Nat := y * w + x

/-- Group pixel `gp(y, g, i)` given the bytes of the group's valid pixels: a pixel that is none of them is a padding
pixel, white (R14). -/
def paddedPixel (valid : List Byte) (i : Nat) : Byte := valid.getD i Config.white

/-- The tag of four group pixels (R180). -/
def classify (p0 p1 p2 p3 : Byte) : Tag :=
  if p0 = Config.white ∧ p1 = Config.white ∧ p2 = Config.white ∧ p3 = Config.white then .white
  else if p0 = Config.black ∧ p1 = Config.black ∧ p2 = Config.black ∧ p3 = Config.black then .black
  else .literal p0 p1 p2 p3

/-- The tag class result: 0 White, 1 Black, 2 Literal (R92, R98). -/
def tagClass : Tag → Word32
  | .white => 0#32
  | .black => 1#32
  | .literal _ _ _ _ => 2#32

/-- The bytes a tag gives the first `n` pixels of its group: all white, all black, or the first `n` payload bytes
(R201). -/
def tagPixels (n : Nat) : Tag → List Byte
  | .white => List.replicate n Config.white
  | .black => List.replicate n Config.black
  | .literal p0 p1 p2 p3 => [p0, p1, p2, p3].take n

/-- `LE32(b0, b1, b2, b3)` (R10), of the first four bytes of a list. -/
def le32 (bs : List Byte) : Nat :=
  (bs.getD 0 0#8).toNat + 256 * (bs.getD 1 0#8).toNat + 65536 * (bs.getD 2 0#8).toNat + 16777216 * (bs.getD 3 0#8).toNat

/-- `LE32bytes(v)`, least significant byte first (R10, R68). -/
def le32Bytes (v : Word32) : List Byte :=
  [v.extractLsb' 0 8, v.extractLsb' 8 8, v.extractLsb' 16 8, v.extractLsb' 24 8]

/-- The 19 header bytes of a container (R102, R220). -/
def headerBytes (w h r b : Word32) : List Byte :=
  [Config.magic0, Config.magic1, Config.formatVersion] ++ le32Bytes w ++ le32Bytes h ++ le32Bytes r ++ le32Bytes b

/-- Total length `19 + R + B` of a container, exact (R7, R102). -/
def containerLength (r b : Nat) : Nat := Config.headerLen + r + b

/-- A dimension is legal from 1 to DIM_MAX (R24, R221, R263). -/
def legalDim (d : Nat) : Bool := 1 ≤ d && d ≤ Config.dimMax

end Machine
end Sys2Proof
end

