-- ==== Sys2Proof/Machine/Ops.lean ====
section
/-! DEFINITION. The operations the commands share: memory (spec/20_memory.md), raising and returning (spec/60_exceptions.md
R285, R286), the Bit Writer's and Bit Reader's primitives (R120, R121, R140), loops, and what the host does. -/

namespace Sys2Proof
namespace Machine

/-- How the pseudocode of a command goes on: with a value, by `raise` (R11), or at a fault of the model (R67). The state
is the one the statements so far have left. -/
inductive Res (α : Type) where
  | ok (a : α) (s : State)
  | raise (c : Cause) (s : State)
  | fault (f : Fault)
deriving DecidableEq, Repr

/-- Statement after statement: `raise` and a fault end the command (R11, R285). -/
def Res.bind {α β : Type} (r : Res α) (k : α → State → Res β) : Res β :=
  match r with
  | .ok a s => k a s
  | .raise c s => .raise c s
  | .fault f => .fault f

/-- Run `h` on the state a raise leaves, and raise the same cause after it (R225, R226). -/
def Res.onRaise {α : Type} (r : Res α) (h : State → Res Unit) : Res α :=
  match r with
  | .ok a s => .ok a s
  | .raise c s => (h s).bind fun _ s' => .raise c s'
  | .fault f => .fault f

/-- `if b then raise c` (R11). -/
def raiseIf (b : Bool) (c : Cause) (s : State) : Res Unit := if b then .raise c s else .ok () s

/-- `for i in i0 .. i0 + k - 1`, in that order (R11). -/
def forLoop (body : Nat → State → Res Unit) : (k i0 : Nat) → State → Res Unit
  | 0, _, s => .ok () s
  | k + 1, i0, s => (body i0 s).bind fun _ s' => forLoop body k (i0 + 1) s'

/-! ### Raising an error and returning -/

/-- The response a command returns (R95); the newest stands first. -/
def State.respond (status : BitVec 16) (result : Word32) (s : State) : State :=
  { s with responses := ⟨status, result⟩ :: s.responses }

/-- The end of a command that writes STATUS and RESULT; the response carries the same two values (R95, R286). -/
def State.endCommand (status : BitVec 16) (result : Word32) (s : State) : State :=
  { s with status := status, result := result, responses := ⟨status, result⟩ :: s.responses }

/-- Taking an error, the block's one exception entry (R285): STATUS takes `CAUSE << 4 | KIND`, RESULT takes 0, the
response carries the same two values, and nothing else is written; no state is saved, no handler runs and no mode
changes. There is no return instruction: the next command starts normally (R288). -/
def raiseError (c : Cause) (s : State) : State := s.endCommand (causeStatus c) 0#32

/-- The successful end of a command with its returned value: STATUS 0x0000 (R286). -/
def returnValue (v : Word32) (s : State) : State := s.endCommand statusOk v

/-- The end of a command's pseudocode as an outcome of the step (R285, R286). -/
def complete (r : Res Word32) : Host.Outcome State Fault Refusal :=
  match r with
  | .ok v s => .next (returnValue v s)
  | .raise c s => .next (raiseError c s)
  | .fault f => .fault f

/-! ### Memory -/

/-- The byte written at an address, if any. -/
def memGet : Memory → Nat → Option Byte
  | [], _ => none
  | (x, v) :: m, a => if x = a then some v else memGet m a

/-- Write one byte, keeping the addresses strictly rising. -/
def memSet : Memory → Nat → Byte → Memory
  | [], a, b => [(a, b)]
  | (x, v) :: m, a, b =>
    if a < x then (a, b) :: (x, v) :: m
    else if a = x then (a, b) :: m
    else (x, v) :: memSet m a b

/-- Every address of `m` lies above `a`, and they rise strictly. -/
def Memory.risesFrom : Nat → Memory → Bool
  | _, [] => true
  | a, (x, _) :: m => a < x && Memory.risesFrom x m

/-- The canonical form of a memory: addresses strictly rising. An unlisted address reads as no listed value, so no entry
can equal it (log 3). -/
def Memory.wf : Memory → Bool
  | [] => true
  | (x, _) :: m => Memory.risesFrom x m

/-- Every listed address is one of the space. -/
def Memory.within (cap : Nat) (m : Memory) : Bool := m.all fun c => c.1 < cap

/-- The contents of a space. -/
def State.mem (s : State) : Space → Memory
  | .img => s.img
  | .sin => s.sin
  | .sout => s.sout
  | .wbuf => s.wbuf
  | .ribuf => s.ribuf

/-- Replace the contents of a space. -/
def State.setMem (s : State) (sp : Space) (m : Memory) : State :=
  match sp with
  | .img => { s with img := m }
  | .sin => { s with sin := m }
  | .sout => { s with sout := m }
  | .wbuf => { s with wbuf := m }
  | .ribuf => { s with ribuf := m }

/-- What an address that is not listed reads as: in WBUF the free value of the writer's last change (R64; log 6), in the
other spaces the free value it has held since power-on (R38, R311; log 3). -/
def State.unlisted (s : State) (sp : Space) (a : Nat) : Byte :=
  match sp with
  | .img => Config.powerOnByte .img a
  | .sin => Config.powerOnByte .sin a
  | .sout => Config.powerOnByte .sout a
  | .wbuf => Config.wbufByte s.wbufDraws a
  | .ribuf => Config.powerOnByte .ribuf a

/-- The byte at an address of a space: the last one written there, or a free value (R38, R64, R72, R311). -/
def State.byte (s : State) (sp : Space) (a : Nat) : Byte := (memGet (s.mem sp) a).getD (s.unlisted sp a)

/-- The `n` bytes from an address up. -/
def State.bytes (s : State) (sp : Space) (a n : Nat) : List Byte := (List.range n).map fun i => s.byte sp (a + i)

/-- `MemRead(S, a)` (R11); an address at or beyond the capacity is a fault of the model (R67). -/
def memRead (sp : Space) (a : Nat) (s : State) : Res Byte :=
  if a < s.params.cap sp then .ok (s.byte sp a) s else .fault (.outsideSpace sp a)

/-- `MemWrite(S, a, v)` (R11); an address at or beyond the capacity is a fault of the model (R67). -/
def memWrite (sp : Space) (a : Nat) (v : Byte) (s : State) : Res Unit :=
  if a < s.params.cap sp then .ok () (s.setMem sp (memSet (s.mem sp) a v)) else .fault (.outsideSpace sp a)

/-- Read `n` bytes from `a` up, in rising order. -/
def memReadBytes (sp : Space) : (n a : Nat) → State → Res (List Byte)
  | 0, _, s => .ok [] s
  | n + 1, a, s =>
    (memRead sp a s).bind fun b s1 => (memReadBytes sp n (a + 1) s1).bind fun bs s2 => .ok (b :: bs) s2

/-- Write bytes from `a` up, in rising order. -/
def memWriteBytes (sp : Space) : (a : Nat) → List Byte → State → Res Unit
  | _, [], s => .ok () s
  | a, b :: bs, s => (memWrite sp a b s).bind fun _ s' => memWriteBytes sp (a + 1) bs s'

/-- Leave `n` bytes of IMG from `a` up with unspecified values, fresh at each use (R201, R202, R226; 93 I-3, I-4;
log 4). -/
def unspecifyImg (a n : Nat) (s : State) : Res Unit :=
  memWriteBytes .img a ((List.range n).map fun i => Config.freeByte s.draws (a + i)) { s with draws := s.draws + 1 }

/-! ### Bit Writer primitives -/

/-- The entries of a memory below an address. -/
def memBelow (n : Nat) (m : Memory) : Memory := m.filter fun c => c.1 < n

/-- The writer's state becomes `BW_LEN`, `CUR`, `BW_CURSOR`. The bytes of WBUF at or above BW_LEN are unspecified from
then on, fresh at each change (R64, R122; 93 I-2; log 6). -/
def State.withWriter (len : Word32) (cur : Byte) (cursor : BitVec 3) (s : State) : State :=
  { s with bwLen := len, cur := cur, bwCursor := cursor, wbuf := memBelow len.toNat s.wbuf, wbufDraws := s.wbufDraws + 1 }

/-- `NBITS = 8 * BW_LEN + BW_CURSOR`, the bits written since the last BW_INIT (R27). -/
def State.nbits (s : State) : Nat := 8 * s.bwLen.toNat + s.bwCursor.toNat

/-- `bw_room(k)` (R120). -/
def bwRoom (k : Nat) (s : State) : Res Unit :=
  raiseIf (decide (s.params.wbufCap < ceilDiv (s.nbits + k) 8)) .writerCapacity s

/-- CUR with one more bit, at position `7 - BW_CURSOR` (R121). -/
def State.curWith (s : State) (b : Bool) : Byte := s.cur ||| ((BitVec.ofBool b).setWidth 8 <<< (7 - s.bwCursor.toNat))

/-- `bw_emit(b)` (R121). -/
def bwEmit (b : Bool) (s : State) : Res Unit :=
  if s.bwCursor = 7#3 then
    (memWrite .wbuf s.bwLen.toNat (s.curWith b) s).bind fun _ s' => .ok () (s'.withWriter (s.bwLen + 1#32) 0#8 0#3)
  else .ok () (s.withWriter s.bwLen (s.curWith b) (s.bwCursor + 1#3))

/-- Emit a string of bits, first bit first. -/
def bwEmitAll : List Bool → State → Res Unit
  | [], s => .ok () s
  | b :: bs, s => (bwEmit b s).bind fun _ s' => bwEmitAll bs s'

/-- Room for all the bits, then every bit: a put emits all its bits or none (R120, R128). -/
def bwPut (bs : List Bool) (s : State) : Res Unit := (bwRoom bs.length s).bind fun _ s' => bwEmitAll bs s'

/-! ### Bit Reader primitives -/

/-- The reader's position `BR_IDX`, `BR_CURSOR`. -/
def State.withReader (idx : Word32) (cursor : BitVec 3) (s : State) : State := { s with brIdx := idx, brCursor := cursor }

/-- The reader one bit further on (R140). -/
def State.advanceReader (s : State) : State :=
  if s.brCursor = 7#3 then s.withReader (s.brIdx + 1#32) 0#3 else s.withReader s.brIdx (s.brCursor + 1#3)

/-- `br_take()` (R140): the end of the slice is checked before every bit, and a failing read changes nothing. -/
def brTake (s : State) : Res Bool :=
  if s.brLen.toNat ≤ s.brIdx.toNat then .raise .outOfData s
  else
    (memRead .sin (s.brBase.toNat + s.brIdx.toNat) s).bind fun byte s' =>
      .ok (byte.getLsbD (7 - s.brCursor.toNat)) s'.advanceReader

/-- `for i in 1 .. k: v <- (v << 1) | br_take()` (R143). -/
def brTakeBits {w : Nat} : (k : Nat) → BitVec w → State → Res (BitVec w)
  | 0, v, s => .ok v s
  | k + 1, v, s => (brTake s).bind fun b s' => brTakeBits k (shiftIn v b) s'

/-- Eight bits as a byte (R144, R201). -/
def brTakeByte (s : State) : Res Byte := brTakeBits 8 0#8 s

/-! ### The host -/

/-- The outcome of something the host does between two commands: no register changes and there is no response (R316). A
write outside the space is a fault of the model (log 8). -/
def hostOutcome (r : Res Unit) : Host.Outcome State Fault Refusal :=
  match r with
  | .ok _ s => .next s
  | .raise _ s => .next s
  | .fault f => .fault f

/-- The host copies `len` bytes of SOUT to SIN (R227). -/
def hostCopySout (src dst len : Nat) (s : State) : Res Unit :=
  (memReadBytes .sout len src s).bind fun bs s' => memWriteBytes .sin dst bs s'

/-- A reserved OPC: raises IllegalCommand(ReservedOpcode) and changes no state other than STATUS and RESULT (R93). -/
def runReserved (s : State) : Host.Outcome State Fault Refusal := .next (raiseError .reservedOpcode s)

/-! ### Placing one instruction -/

/-- Write bytes to SIN without the capacity check, to place a tag stream. -/
def sinWith (a : Nat) : List Byte → Memory → Memory
  | [], m => m
  | b :: bs, m => memSet (sinWith (a + 1) bs m) a b

/-- A bit string packed MSB-first into `n` bytes, zeros after it (R9). -/
def packBits : (n : Nat) → List Bool → List Byte
  | 0, _ => []
  | n + 1, bs => msbValue ((bs ++ List.replicate 8 false).take 8) :: packBits n (bs.drop 8)

/-- A command row is issued on the port. A tag row can only run inside a command that decodes a group (R201), so its
bits are placed at the start of SIN, the reader wraps them, WIDTH and HEIGHT describe an image of one group, and
BD_DECODE_GROUP 0, 0 is issued (log 12). -/
def placeInstruction (nbits w : Nat) (s : State) : State :=
  if nbits ≤ tagRowBits then
    { s with
      sin := sinWith 0 (packBits 5 (tableTagBits w)) s.sin
      brBase := 0#32
      brLen := 5#32
      brIdx := 0#32
      brCursor := 0#3
      width := 4#32
      height := 1#32
      port := .command (commandWord 0x50 0 0 0) :: s.port }
  else { s with port := .command (BitVec.ofNat 80 w) :: s.port }

end Machine
end Sys2Proof
end

