-- ==== Sys2Proof/Machine/BitReader.lean ====
section
/-! DEFINITION. The Bit Reader commands (spec/41_bit_reader.md R141 to R144). -/

namespace Sys2Proof
namespace Machine

/-- The reader wraps the slice of `len` bytes at `base`, at its first bit (R141, R221). -/
def State.wrapSlice (base len : Word32) (s : State) : State :=
  { s with brBase := base, brLen := len, brIdx := 0#32, brCursor := 0#3 }

/-- The body of BR_INIT (R141); the sum is exact. -/
def brInitOp (base len : Word32) (s : State) : Res Word32 :=
  (raiseIf (decide (s.params.sinCap < base.toNat + len.toNat)) .sliceOutOfRange s).bind fun _ s' =>
  .ok 0#32 (s'.wrapSlice base len)

/-- BR_INIT (R141). -/
def execBrInit (base len : Word32) (s : State) : Host.Outcome State Fault Refusal := complete (brInitOp base len s)

/-- BR_GETBIT (R142). -/
def execBrGetbit (s : State) : Host.Outcome State Fault Refusal :=
  complete ((brTake s).bind fun b s' => .ok ((BitVec.ofBool b).setWidth 32) s')

/-- BR_GETBITS (R143): bits read before the slice runs out stay consumed. -/
def execBrGetbits (k : BitVec 8) (s : State) : Host.Outcome State Fault Refusal :=
  complete ((raiseIf (decide (Config.nMax < k.toNat)) .countOutOfRange s).bind fun _ s' => brTakeBits k.toNat 0#32 s')

/-- BR_GETBYTE (R144). -/
def execBrGetbyte (s : State) : Host.Outcome State Fault Refusal := complete (brTakeBits 8 0#32 s)

end Machine
end Sys2Proof
end

