-- ==== Sys2Proof/Machine/BitWriter.lean ====
section
/-! DEFINITION. The Bit Writer commands (spec/40_bit_writer.md R122 to R126). -/

namespace Sys2Proof
namespace Machine

/-- The body of BW_INIT (R122); no byte of WBUF is written, and all of them are unspecified from then on (log 6). -/
def bwInitOp (s : State) : Res Word32 := .ok 0#32 { s.withWriter 0#32 0#8 0#3 with fin := false }

/-- BW_INIT (R122). -/
def execBwInit (s : State) : Host.Outcome State Fault Refusal := complete (bwInitOp s)

/-- A put command after its own checks: the writer must be open, the bits must fit, and then all are emitted (R123 to
R125). -/
def bwPutOp (bs : List Bool) (s : State) : Res Word32 :=
  (raiseIf s.fin .writerFinished s).bind fun _ s1 => (bwPut bs s1).bind fun _ s2 => .ok 0#32 s2

/-- BW_PUTBIT (R123). -/
def execBwPutbit (b : Bool) (s : State) : Host.Outcome State Fault Refusal := complete (bwPutOp [b] s)

/-- BW_PUTBITS (R124): the count is checked first, then the `n` lowest bits of `v` go out, most significant first. -/
def execBwPutbits (n : BitVec 8) (v : Word32) (s : State) : Host.Outcome State Fault Refusal :=
  complete ((raiseIf (decide (Config.nMax < n.toNat)) .countOutOfRange s).bind fun _ s1 => bwPutOp (msbBits n.toNat v) s1)

/-- BW_PUTBYTE (R125). -/
def execBwPutbyte (v : Byte) (s : State) : Host.Outcome State Fault Refusal := complete (bwPutOp (msbBits 8 v) s)

/-- Flush a partial byte, if there is one (R126). -/
def bwFlush (s : State) : Res Unit :=
  if s.bwCursor = 0#3 then .ok () s
  else (memWrite .wbuf s.bwLen.toNat s.cur s).bind fun _ s' => .ok () (s'.withWriter (s.bwLen + 1#32) 0#8 0#3)

/-- The body of BW_FINISH (R126). -/
def bwFinishOp (s : State) : Res Word32 :=
  if s.fin then .ok s.bwLen s else (bwFlush s).bind fun _ s' => .ok s'.bwLen { s' with fin := true }

/-- BW_FINISH (R126). -/
def execBwFinish (s : State) : Host.Outcome State Fault Refusal := complete (bwFinishOp s)

end Machine
end Sys2Proof
end

