-- ==== Sys2Proof/Machine/RowIndex.lean ====
section
/-! DEFINITION. The Row Emptiness Index (spec/42_row_index.md R160 to R163). -/

namespace Sys2Proof
namespace Machine

/-- `empty(y)`: every one of the `W` pixels of row `y` is white (R160). -/
def rowEmpty (y : Nat) (s : State) : Res Bool :=
  (memReadBytes .img s.width.toNat (pixelAddr s.width.toNat 0 y) s).bind fun row s' =>
  .ok (row.all fun p => p = Config.white) s'

/-- Row `y`'s bit set in its bitmap byte (R9, R161). -/
def withRowBit (v : Byte) (y : Nat) : Byte := v ||| (1#8 <<< (y % 8))

/-- One row of REI_BUILD: the row's bit is set when the row is empty (R161). -/
def reiBuildRow (y : Nat) (s : State) : Res Unit :=
  (rowEmpty y s).bind fun e s1 =>
  if e then (memRead .ribuf (y / 8) s1).bind fun v s2 => memWrite .ribuf (y / 8) (withRowBit v y) s2 else .ok () s1

/-- The body of REI_BUILD (R161). -/
def reiBuildOp (s : State) : Res Word32 :=
  (raiseIf (!s.imgValid) .nullBuffer s).bind fun _ s1 =>
  (memWriteBytes .ribuf 0 (List.replicate (ceilDiv s1.height.toNat 8) 0#8) s1).bind fun _ s2 =>
  (forLoop reiBuildRow s2.height.toNat 0 s2).bind fun _ s3 =>
  .ok (BitVec.ofNat 32 (ceilDiv s3.height.toNat 8))
    { s3 with riCount := BitVec.ofNat 32 (ceilDiv s3.height.toNat 8), riValid := true }

/-- REI_BUILD (R161). -/
def execReiBuild (s : State) : Host.Outcome State Fault Refusal := complete (reiBuildOp s)

/-- `rix_bit(y)`: bit `y mod 8` of bitmap byte `y div 8` (R9, R162). -/
def rixBit (y : Nat) (s : State) : Res Bool :=
  (memRead .ribuf (y / 8) s).bind fun v s' => .ok (v.getLsbD (y % 8)) s'

/-- REI_TEST (R163). -/
def execReiTest (y : Word32) (s : State) : Host.Outcome State Fault Refusal :=
  complete
    ((raiseIf (!s.riValid) .noRowIndex s).bind fun _ s1 =>
     (raiseIf (decide (s1.height.toNat ≤ y.toNat)) .rowOutOfRange s1).bind fun _ s2 =>
     (rixBit y.toNat s2).bind fun b s3 => .ok ((BitVec.ofBool b).setWidth 32) s3)

end Machine
end Sys2Proof
end

