-- ==== Sys2Proof/Machine/BlockDecoder.lean ====
section
/-! DEFINITION. The Block Decoder and the tag codes it runs (spec/44_block_decoder.md R200 to R202,
spec/30_encoding.md R98, R99). -/

namespace Sys2Proof
namespace Machine

/-- The payload of a Literal: always four bytes, whatever the valid count (R99, R201). -/
def fetchPayload (s : State) : Res Tag :=
  (brTakeByte s).bind fun p0 s1 =>
  (brTakeByte s1).bind fun p1 s2 =>
  (brTakeByte s2).bind fun p2 s3 =>
  (brTakeByte s3).bind fun p3 s4 => .ok (.literal p0 p1 p2 p3) s4

/-- `bd_tag()` and a Literal's payload, read from the Bit Reader one checked bit at a time (R200, R201). The payload is
read before the first pixel is written; R201 interleaves the two, which no command can tell apart (log 15). -/
def fetchTag (s : State) : Res Tag :=
  (brTake s).bind fun b0 s1 =>
  if b0 then (brTake s1).bind fun b1 s2 => if b1 then fetchPayload s2 else .ok .black s2
  else .ok .white s1

/-- The Block Decoder at group `g` of row `y` (log 5). -/
def State.atGroup (y g : Word32) (s : State) : State := { s with tagRow := y, tagGroup := g }

/-- What a tag does to the group the decoder is at: it gives the group's valid pixels their bytes and writes nothing
else (R201). -/
def runTag (t : Tag) (s : State) : Res Unit :=
  memWriteBytes .img (pixelAddr s.width.toNat (4 * s.tagGroup.toNat) s.tagRow.toNat)
    (tagPixels (validCount s.width.toNat s.tagGroup.toNat) t) s

/-- A tag as an instruction: no command ends, so STATUS, RESULT and the responses stay (R12, R286; log 5). -/
def tagOutcome (r : Res Unit) : Host.Outcome State Fault Refusal :=
  match r with
  | .ok _ s => .next s
  | .raise c s => .next (raiseError c s)
  | .fault f => .fault f

/-- TAG_WHITE: the group's valid pixels become 255 (R98, R201). -/
def execTagWhite (s : State) : Host.Outcome State Fault Refusal := tagOutcome (runTag .white s)

/-- TAG_BLACK: the group's valid pixels become 0 (R98, R201). -/
def execTagBlack (s : State) : Host.Outcome State Fault Refusal := tagOutcome (runTag .black s)

/-- TAG_LITERAL: the group's `n` valid pixels become the first `n` payload bytes (R98, R201). -/
def execTagLiteral (p q r s : Byte) (st : State) : Host.Outcome State Fault Refusal :=
  tagOutcome (runTag (.literal p q r s) st)

/-- The body of BD_DECODE_GROUP after its checks (R201): fetch the next tag of the bitstream and run it on the group. -/
def bdGroupBody (y g : Nat) (s : State) : Res Word32 :=
  (fetchTag (s.atGroup (BitVec.ofNat 32 y) (BitVec.ofNat 32 g))).bind fun t s1 =>
  (runTag t s1).bind fun _ s2 => .ok (tagClass t) s2

/-- BD_DECODE_GROUP (R201); when the slice runs out, the group's bytes of IMG are unspecified. -/
def execBdDecodeGroup (y g : Word32) (s : State) : Host.Outcome State Fault Refusal :=
  complete
    ((raiseIf (decide (s.height.toNat ≤ y.toNat)) .rowOverrun s).bind fun _ s1 =>
     (raiseIf (decide (groupCount s1.width.toNat ≤ g.toNat)) .groupOutOfRange s1).bind fun _ s2 =>
     (bdGroupBody y.toNat g.toNat s2).onRaise
       (unspecifyImg (pixelAddr s2.width.toNat (4 * g.toNat) y.toNat) (validCount s2.width.toNat g.toNat)))

/-- The tag loop of a row: `written` takes the values 0, 4, 8, ... below WIDTH, so it runs the `G(WIDTH)` groups in order
(R202). -/
def bdGroups (y : Nat) (s : State) : Res Unit :=
  forLoop (fun g s' => (bdGroupBody y g s').bind fun _ s'' => .ok () s'') (groupCount s.width.toNat) 0 s

/-- Fill row `y` with white, taking no bits (R202 step 1). -/
def bdFillRow (y : Nat) (s : State) : Res Unit :=
  memWriteBytes .img (pixelAddr s.width.toNat 0 y) (List.replicate s.width.toNat Config.white) s

/-- The body of BD_DECODE_ROW, checks included (R202): the tag loop runs only when the emptiness bit is 0, the corrected
behaviour of 90_conflicts.md C3. When the slice runs out, the row's bytes of IMG are unspecified. -/
def bdDecodeRowOp (y : Nat) (s : State) : Res Word32 :=
  (raiseIf (!s.riValid) .noRowIndex s).bind fun _ s1 =>
  (raiseIf (decide (s1.height.toNat ≤ y)) .rowOverrun s1).bind fun _ s2 =>
  (rixBit y s2).bind fun e s3 =>
  if e then (bdFillRow y s3).bind fun _ s4 => .ok 1#32 s4
  else
    ((bdGroups y s3).onRaise (unspecifyImg (pixelAddr s3.width.toNat 0 y) s3.width.toNat)).bind fun _ s4 => .ok 0#32 s4

/-- BD_DECODE_ROW (R202). -/
def execBdDecodeRow (y : Word32) (s : State) : Host.Outcome State Fault Refusal := complete (bdDecodeRowOp y.toNat s)

end Machine
end Sys2Proof
end

