-- ==== Sys2Proof/Machine/BlockEncoder.lean ====
section
/-! DEFINITION. The Block Encoder (spec/43_block_encoder.md R180 to R182). -/

namespace Sys2Proof
namespace Machine

/-- `classify(y, g)`: the tag of group `g` of row `y` from its four group pixels, padding included (R14, R180). -/
def groupTag (y g : Nat) (s : State) : Res Tag :=
  (memReadBytes .img (validCount s.width.toNat g) (pixelAddr s.width.toNat (4 * g) y) s).bind fun ps s' =>
  .ok (classify (paddedPixel ps 0) (paddedPixel ps 1) (paddedPixel ps 2) (paddedPixel ps 3)) s'

/-- The body of BE_ENCODE_GROUP after its checks (R181): the group's code and payload go out if they all fit. -/
def beGroupBody (y g : Nat) (s : State) : Res Word32 :=
  (groupTag y g s).bind fun t s1 => (bwPut t.bits s1).bind fun _ s2 => .ok (tagClass t) s2

/-- BE_ENCODE_GROUP (R181). -/
def execBeEncodeGroup (y g : Word32) (s : State) : Host.Outcome State Fault Refusal :=
  complete
    ((raiseIf (!s.imgValid) .nullBuffer s).bind fun _ s1 =>
     (raiseIf (decide (s1.height.toNat ≤ y.toNat)) .rowOutOfRange s1).bind fun _ s2 =>
     (raiseIf (decide (groupCount s2.width.toNat ≤ g.toNat)) .groupOutOfRange s2).bind fun _ s3 =>
     (raiseIf s3.fin .writerFinished s3).bind fun _ s4 => beGroupBody y.toNat g.toNat s4)

/-- The groups of a row, in order (R182). -/
def beGroups (y : Nat) (s : State) : Res Unit :=
  forLoop (fun g s' => (beGroupBody y g s').bind fun _ s'' => .ok () s'') (groupCount s.width.toNat) 0 s

/-- The body of BE_ENCODE_ROW, checks included (R182). -/
def beEncodeRowOp (y : Nat) (s : State) : Res Word32 :=
  (raiseIf (!s.imgValid) .nullBuffer s).bind fun _ s1 =>
  (raiseIf (decide (s1.height.toNat ≤ y)) .rowOutOfRange s1).bind fun _ s2 =>
  (raiseIf (!s2.riValid) .noRowIndex s2).bind fun _ s3 =>
  (raiseIf s3.fin .writerFinished s3).bind fun _ s4 =>
  (rixBit y s4).bind fun e s5 =>
  if e then .ok 1#32 s5 else (beGroups y s5).bind fun _ s6 => .ok 0#32 s6

/-- BE_ENCODE_ROW (R182). -/
def execBeEncodeRow (y : Word32) (s : State) : Host.Outcome State Fault Refusal := complete (beEncodeRowOp y.toNat s)

end Machine
end Sys2Proof
end

