-- ==== Sys2Proof/Machine/Control.lean ====
section
/-! DEFINITION. The control commands (spec/46_control.md R260 to R264). -/

namespace Sys2Proof
namespace Machine

/-- NOP (R260): the response status 0x0000, result 0, and nothing else. -/
def execNop (s : State) : Host.Outcome State Fault Refusal := .next (s.respond statusOk 0#32)

/-- Every register of R22 takes its reset value of R37; memory is not changed (R310). -/
def State.resetRegisters (s : State) : State :=
  { s with
    status := 0#16
    result := 0#32
    width := 0#32
    height := 0#32
    riCount := 0#32
    bsCount := 0#32
    bwLen := 0#32
    cur := 0#8
    bwCursor := 0#3
    fin := false
    brBase := 0#32
    brLen := 0#32
    brIdx := 0#32
    brCursor := 0#3
    imgValid := false
    riValid := false
    soutLen := 0#32 }

/-- SRST (R261). -/
def execSrst (s : State) : Host.Outcome State Fault Refusal := complete (.ok 0#32 s.resetRegisters)

/-- RDREG (R262): status 0x0000 and the register's value in the response; no register is written. -/
def execRdreg (r : Word32) (s : State) : Host.Outcome State Fault Refusal := .next (s.respond statusOk (readReg r s))

/-- The body of IMGDESC (R263); the product is exact. -/
def imgdescOp (w h : Word32) (s : State) : Res Word32 :=
  (raiseIf (!legalDim w.toNat) .badWidth s).bind fun _ s1 =>
  (raiseIf (!legalDim h.toNat) .badHeight s1).bind fun _ s2 =>
  (raiseIf (decide (s2.params.imgCap < w.toNat * h.toNat)) .imageCapacity s2).bind fun _ s3 =>
  .ok (BitVec.ofNat 32 (w.toNat * h.toNat)) { s3 with width := w, height := h, imgValid := true, riValid := false }

/-- IMGDESC (R263). -/
def execImgdesc (w h : Word32) (s : State) : Host.Outcome State Fault Refusal := complete (imgdescOp w h s)

/-- IMGREL (R264). -/
def execImgrel (s : State) : Host.Outcome State Fault Refusal :=
  complete (.ok 0#32 { s with imgValid := false, riValid := false })

end Machine
end Sys2Proof
end

