-- ==== Sys2Proof/Machine/Container.lean ====
section
/-! DEFINITION. The Container Framer and the whole-image commands (spec/45_container.md R220 to R226). -/

namespace Sys2Proof
namespace Machine

/-- The bytes of the container CF_ASSEMBLE writes: header, row index, bitstream, no padding between them (R102, R220). -/
def assembleBytes (rows stream : List Byte) (s : State) : List Byte :=
  headerBytes s.width s.height s.riCount s.bwLen ++ rows ++ stream

/-- The body of CF_ASSEMBLE (R220). RIBUF and WBUF are read before SOUT is written; the spaces are disjoint (R317). -/
def cfAssembleOp (s : State) : Res Word32 :=
  (raiseIf (!s.riValid) .noRowIndex s).bind fun _ s1 =>
  (raiseIf (!s1.fin) .writerNotFinished s1).bind fun _ s2 =>
  (raiseIf (decide (s2.params.soutCap < containerLength s2.riCount.toNat s2.bwLen.toNat)) .streamCapacity s2).bind
    fun _ s3 =>
  (memReadBytes .ribuf s3.riCount.toNat 0 s3).bind fun rows s4 =>
  (memReadBytes .wbuf s4.bwLen.toNat 0 s4).bind fun stream s5 =>
  (memWriteBytes .sout 0 (assembleBytes rows stream s5) s5).bind fun _ s6 =>
  .ok (BitVec.ofNat 32 (containerLength s6.riCount.toNat s6.bwLen.toNat))
    { s6 with
      bsCount := s6.bwLen
      soutLen := BitVec.ofNat 32 (containerLength s6.riCount.toNat s6.bwLen.toNat) }

/-- CF_ASSEMBLE (R220). -/
def execCfAssemble (s : State) : Host.Outcome State Fault Refusal := complete (cfAssembleOp s)

/-- `LE32(SIN[a .. a+3])` (R10, R221). -/
def readLe32 (a : Nat) (s : State) : Res Nat := (memReadBytes .sin 4 a s).bind fun bs s' => .ok (le32 bs) s'

/-- The commit of CF_PARSE after every check has passed (R221). -/
def cfParseCommit (w h r b : Nat) (s : State) : Res Word32 :=
  (memReadBytes .sin r Config.headerLen
    { s with
      width := BitVec.ofNat 32 w
      height := BitVec.ofNat 32 h
      riCount := BitVec.ofNat 32 r
      bsCount := BitVec.ofNat 32 b }).bind fun rows s1 =>
  (memWriteBytes .ribuf 0 rows s1).bind fun _ s2 =>
  .ok 0#32
    ({ s2 with riValid := true, imgValid := false }.wrapSlice (BitVec.ofNat 32 (Config.headerLen + r))
      (BitVec.ofNat 32 b))

/-- Checks (4) to (7) of CF_PARSE and its commit, over the four header fields (R221); every sum and product is exact. -/
def cfParseFields (l w h r b : Nat) (s : State) : Res Word32 :=
  (raiseIf (decide (l < containerLength r b)) .truncated s).bind fun _ s1 =>
  (raiseIf (!(legalDim w && legalDim h)) .badDimensions s1).bind fun _ s2 =>
  (raiseIf (decide (r ≠ ceilDiv h 8)) .badRowIndexCount s2).bind fun _ s3 =>
  (raiseIf (decide (s3.params.imgCap < w * h)) .imageCapacity s3).bind fun _ s4 => cfParseCommit w h r b s4

/-- The body of CF_PARSE (R221), the checks in its order. -/
def cfParseOp (l : Nat) (s : State) : Res Word32 :=
  (raiseIf (decide (s.params.sinCap < l)) .sliceOutOfRange s).bind fun _ s1 =>
  (raiseIf (decide (l < Config.headerLen)) .tooShort s1).bind fun _ s2 =>
  (memRead .sin 0 s2).bind fun m0 s3 =>
  (memRead .sin 1 s3).bind fun m1 s4 =>
  (raiseIf (decide (m0 ≠ Config.magic0 ∨ m1 ≠ Config.magic1)) .badMagic s4).bind fun _ s5 =>
  (memRead .sin 2 s5).bind fun v s6 =>
  (raiseIf (decide (v ≠ Config.formatVersion)) .badVersion s6).bind fun _ s7 =>
  (readLe32 3 s7).bind fun w s8 =>
  (readLe32 7 s8).bind fun h s9 =>
  (readLe32 11 s9).bind fun r s10 =>
  (readLe32 15 s10).bind fun b s11 => cfParseFields l w h r b s11

/-- CF_PARSE (R221). -/
def execCfParse (l : Word32) (s : State) : Host.Outcome State Fault Refusal := complete (cfParseOp l.toNat s)

/-- CF_ENCODE after its check for an image: the sub-operations in order (R223). -/
def cfEncodeBody (s : State) : Res Word32 :=
  (bwInitOp s).bind fun _ s1 =>
  (reiBuildOp s1).bind fun _ s2 =>
  (forLoop (fun y s' => (beEncodeRowOp y s').bind fun _ s'' => .ok () s'') s2.height.toNat 0 s2).bind fun _ s3 =>
  (bwFinishOp s3).bind fun _ s4 => cfAssembleOp s4

/-- The body of CF_ENCODE, its check for an image included (R223). -/
def cfEncodeOp (s : State) : Res Word32 := (raiseIf (!s.imgValid) .nullBuffer s).bind fun _ s1 => cfEncodeBody s1

/-- CF_ENCODE (R223). Every failure, the want of an image among them, leaves SOUT_LEN 0 (R33, R287, D19; log 7) and the
rest as the sub-operations left it (R225). -/
def execCfEncode (s : State) : Host.Outcome State Fault Refusal :=
  complete ((cfEncodeOp s).onRaise fun s1 => .ok () { s1 with soutLen := 0#32 })

/-- The rows of CF_DECODE, in order, exactly HEIGHT of them (R224). -/
def cfDecodeRows (s : State) : Res Unit :=
  forLoop (fun y s' => (bdDecodeRowOp y s').bind fun _ s'' => .ok () s'') s.height.toNat 0 s

/-- CF_DECODE (R224). A header failure changes nothing but STATUS and RESULT; a failure while decoding rows leaves
IMG_VALID 0, every byte of the image unspecified and the registers CF_PARSE wrote (R226). -/
def execCfDecode (l : Word32) (s : State) : Host.Outcome State Fault Refusal :=
  complete
    ((cfParseOp l.toNat s).bind fun _ s1 =>
     ((cfDecodeRows s1).onRaise (unspecifyImg 0 (s1.width.toNat * s1.height.toNat))).bind fun _ s2 =>
     .ok (BitVec.ofNat 32 (s2.width.toNat * s2.height.toNat)) { s2 with imgValid := true })

end Machine
end Sys2Proof
end

