-- ==== Sys2Proof/Machine/Dispatch.lean ====
section
/-! DEFINITION. One arm per instruction, each one call of its meaning. -/

namespace Sys2Proof
namespace Machine

/-- The effect of an instruction on a state. -/
def exec (i : Instr) (s : State) : Host.Outcome State Fault Refusal :=
  match i with
  | .nop => Sys2Proof.Machine.execNop s
  | .srst => Sys2Proof.Machine.execSrst s
  | .rdreg r => Sys2Proof.Machine.execRdreg r s
  | .imgdesc w h => Sys2Proof.Machine.execImgdesc w h s
  | .imgrel => Sys2Proof.Machine.execImgrel s
  | .bwInit => Sys2Proof.Machine.execBwInit s
  | .bwPutbit b => Sys2Proof.Machine.execBwPutbit b s
  | .bwPutbits n v => Sys2Proof.Machine.execBwPutbits n v s
  | .bwPutbyte v => Sys2Proof.Machine.execBwPutbyte v s
  | .bwFinish => Sys2Proof.Machine.execBwFinish s
  | .brInit base len => Sys2Proof.Machine.execBrInit base len s
  | .brGetbit => Sys2Proof.Machine.execBrGetbit s
  | .brGetbits k => Sys2Proof.Machine.execBrGetbits k s
  | .brGetbyte => Sys2Proof.Machine.execBrGetbyte s
  | .reiBuild => Sys2Proof.Machine.execReiBuild s
  | .reiTest y => Sys2Proof.Machine.execReiTest y s
  | .beEncodeGroup y g => Sys2Proof.Machine.execBeEncodeGroup y g s
  | .beEncodeRow y => Sys2Proof.Machine.execBeEncodeRow y s
  | .bdDecodeGroup y g => Sys2Proof.Machine.execBdDecodeGroup y g s
  | .bdDecodeRow y => Sys2Proof.Machine.execBdDecodeRow y s
  | .cfAssemble => Sys2Proof.Machine.execCfAssemble s
  | .cfParse l => Sys2Proof.Machine.execCfParse l s
  | .cfEncode => Sys2Proof.Machine.execCfEncode s
  | .cfDecode l => Sys2Proof.Machine.execCfDecode l s
  | .tagWhite => Sys2Proof.Machine.execTagWhite s
  | .tagBlack => Sys2Proof.Machine.execTagBlack s
  | .tagLiteral p0 p1 p2 p3 => Sys2Proof.Machine.execTagLiteral p0 p1 p2 p3 s

end Machine
end Sys2Proof
end

