-- ==== Sys2Proof/Machine/Step.lean ====
section
/-! DEFINITION. One step: the next thing the host does, which for a command is one whole command (spec/00_scope.md R2,
spec/70_reset_and_hazards.md R315, R316). -/

namespace Sys2Proof
namespace Machine

/-- Perform one command word: the instruction it decodes to, or IllegalCommand(ReservedOpcode) (R90, R93). -/
def runCommand (w : CommandWord) (s : State) : Host.Outcome State Fault Refusal :=
  match decodeCommand w with
  | .ok i => exec i s
  | .error _ => runReserved s

/-- One step: a block with nothing on its port idles and loses no state (R297; log 13); otherwise the next host action is
taken from the port and carried out whole. -/
def step (s : State) : Host.Outcome State Fault Refusal :=
  match s.port with
  | [] => .next s
  | .command w :: rest => runCommand w { s with port := rest }
  | .writeImg a bs :: rest => hostOutcome (memWriteBytes .img a bs { s with port := rest })
  | .writeSin a bs :: rest => hostOutcome (memWriteBytes .sin a bs { s with port := rest })
  | .copySout src dst len :: rest => hostOutcome (hostCopySout src dst len { s with port := rest })

/-- `s` with one row's instruction placed so that the next step runs it (log 12). -/
def State.withFetchWord (s : State) (nbits w : Nat) : State := placeInstruction nbits w s

end Machine
end Sys2Proof
end

