-- ==== Sys2Proof/Safety.lean ====
section
/-! DEFINITION. The terms claims are made in: what the spec says of a stream, an image and a container, written as plain
functions of a state, and the invariants it says hold after every command. Nothing here is part of the machine. -/

namespace Sys2Proof
namespace Machine

/-! ### Streams (spec/00_scope.md R9, spec/10_state.md R27, R29) -/

/-- The bits of bytes in stream order, most significant bit of each first (R9). -/
def bitsOf (bs : List Byte) : List Bool := bs.flatMap (msbBits 8)

/-- The bits written since the last BW_INIT: those of WBUF[0 .. BW_LEN-1], then the `BW_CURSOR` high bits of CUR (R27). -/
def State.written (s : State) : List Bool :=
  bitsOf (s.bytes .wbuf 0 s.bwLen.toNat) ++ (msbBits 8 s.cur).take s.bwCursor.toNat

/-- The number of bits read since the reader was set, `8 * BR_IDX + BR_CURSOR` (R29). -/
def State.readPos (s : State) : Nat := 8 * s.brIdx.toNat + s.brCursor.toNat

/-- The bits of the slice that are still to be read (R29). -/
def State.unread (s : State) : List Bool := (bitsOf (s.bytes .sin s.brBase.toNat s.brLen.toNat)).drop s.readPos

/-- The reader `n` bits further on. -/
def State.skipBits (n : Nat) (s : State) : State :=
  s.withReader (BitVec.ofNat 32 ((s.readPos + n) / 8)) (BitVec.ofNat 3 (s.readPos + n))

/-- The reader exhausted: `BR_IDX = BR_LEN`, `BR_CURSOR = 0` (R29). -/
def State.exhausted (s : State) : State := s.withReader s.brLen 0#3

/-- Bits put into bytes MSB-first, the last byte filled up with zeros: `ceil(t / 8)` bytes (R101, R127). -/
def packed (bs : List Bool) : List Byte := packBits (ceilDiv bs.length 8) bs

/-- `t` is `s` after exactly the bits `bs` were put into the writer: the stream grows by them, CUR is 0 below its cursor
(R27), no byte of WBUF that was output before changes, and nothing else of the state changes. Nothing is said of the bytes
of WBUF at or above BW_LEN, which are free values (R64; log 6). -/
structure Appends (s t : State) (bs : List Bool) : Prop where
  stream : t.written = s.written ++ bs
  count : t.nbits = s.nbits + bs.length
  clean : ∀ k < 8 - t.bwCursor.toNat, t.cur.getLsbD k = false
  below : ∀ a < s.bwLen.toNat, t.byte .wbuf a = s.byte .wbuf a
  frame : t = { s with wbuf := t.wbuf, wbufDraws := t.wbufDraws, bwLen := t.bwLen, cur := t.cur, bwCursor := t.bwCursor }

/-- `t` is `s` with the bytes `bs` written to a space from address `a` up: those locations hold them, and every other
location of the space reads as before. -/
structure Stores (sp : Space) (a : Nat) (bs : List Byte) (s t : State) : Prop where
  stored : t.bytes sp a bs.length = bs
  others : ∀ x, x < a ∨ a + bs.length ≤ x → t.byte sp x = s.byte sp x

/-! ### Images (R13, R14, R160, R180) -/

/-- Group pixel `gp(y, g, i)` of the current image (R14). -/
def State.groupPixel (s : State) (y g i : Nat) : Byte :=
  if 4 * g + i < s.width.toNat then s.byte .img (y * s.width.toNat + 4 * g + i) else 255#8

/-- `classify(y, g)` of the current image (R180). -/
def State.tagOf (s : State) (y g : Nat) : Tag :=
  if s.groupPixel y g 0 = 255#8 ∧ s.groupPixel y g 1 = 255#8 ∧ s.groupPixel y g 2 = 255#8 ∧ s.groupPixel y g 3 = 255#8
  then .white
  else if s.groupPixel y g 0 = 0#8 ∧ s.groupPixel y g 1 = 0#8 ∧ s.groupPixel y g 2 = 0#8 ∧ s.groupPixel y g 3 = 0#8
  then .black
  else .literal (s.groupPixel y g 0) (s.groupPixel y g 1) (s.groupPixel y g 2) (s.groupPixel y g 3)

/-- `empty(y)` (R160). -/
def State.rowWhite (s : State) (y : Nat) : Bool :=
  (List.range s.width.toNat).all fun x => s.byte .img (y * s.width.toNat + x) = 255#8

/-- `rix_bit(y)` (R162). -/
def State.rowBit (s : State) (y : Nat) : Bool := (s.byte .ribuf (y / 8)).getLsbD (y % 8)

/-- The bits a row gives when it is coded group by group (R184). -/
def State.rowBits (s : State) (y : Nat) : List Bool :=
  (List.range (groupCount s.width.toNat)).flatMap fun g => (s.tagOf y g).bits

/-- The bitstream of the current image before padding: nothing for an empty row (R101). -/
def State.imageBits (s : State) : List Bool :=
  (List.range s.height.toNat).flatMap fun y => if s.rowWhite y then [] else s.rowBits y

/-- Byte `j` of the row index of the current image; bits that belong to no row are 0 (R103). -/
def State.indexByte (s : State) (j : Nat) : Byte :=
  msbValue ((List.range 8).map fun k => decide (8 * j + (7 - k) < s.height.toNat) && s.rowWhite (8 * j + (7 - k)))

/-- The row index of the current image, `ceil(H / 8)` bytes (R103). -/
def State.indexBytes (s : State) : List Byte := (List.range (ceilDiv s.height.toNat 8)).map s.indexByte

/-- The canonical container of the current image (R102, R104). -/
def State.container (s : State) : List Byte :=
  headerBytes s.width s.height (BitVec.ofNat 32 (ceilDiv s.height.toNat 8))
    (BitVec.ofNat 32 (ceilDiv s.imageBits.length 8)) ++
  s.indexBytes ++ packed s.imageBits

/-- The pixels a row takes from its tags, one for each group (R202). -/
def rowPixels (w : Nat) (tags : List Tag) : List Byte :=
  (List.range (groupCount w)).flatMap fun g => tagPixels (validCount w g) (tags.getD g .white)

/-- The bits of a list of tags (R98). -/
def tagBits (tags : List Tag) : List Bool := tags.flatMap Tag.bits

/-- The tags of the current image in stream order: none for an empty row, one for each group of any other (R101). -/
def State.imageTags (s : State) : List Tag :=
  (List.range s.height.toNat).flatMap fun y =>
    if s.rowWhite y then [] else (List.range (groupCount s.width.toNat)).map (s.tagOf y)

/-- `LE32(SIN[a .. a+3])` (R10). -/
def State.sinLe32 (s : State) (a : Nat) : Nat :=
  (s.byte .sin a).toNat + 256 * (s.byte .sin (a + 1)).toNat + 65536 * (s.byte .sin (a + 2)).toNat +
    16777216 * (s.byte .sin (a + 3)).toNat

/-- The first check of CF_PARSE `l` that fails, in the order of R221 and R289; none when all pass. -/
def State.parseError (s : State) (l : Nat) : Option Cause :=
  if l > s.params.sinCap then some .sliceOutOfRange
  else if l < 19 then some .tooShort
  else if s.byte .sin 0 ≠ Config.magic0 ∨ s.byte .sin 1 ≠ Config.magic1 then some .badMagic
  else if s.byte .sin 2 ≠ 1#8 then some .badVersion
  else if 19 + s.sinLe32 11 + s.sinLe32 15 > l then some .truncated
  else if s.sinLe32 3 = 0 ∨ s.sinLe32 7 = 0 ∨ s.sinLe32 3 > Config.dimMax ∨ s.sinLe32 7 > Config.dimMax then
    some .badDimensions
  else if s.sinLe32 11 ≠ ceilDiv (s.sinLe32 7) 8 then some .badRowIndexCount
  else if s.sinLe32 3 * s.sinLe32 7 > s.params.imgCap then some .imageCapacity
  else none

/-- What a CF_PARSE whose checks all pass commits, all but the bytes of RIBUF (R221). -/
def State.parsed (s : State) : State :=
  { s with
    width := BitVec.ofNat 32 (s.sinLe32 3)
    height := BitVec.ofNat 32 (s.sinLe32 7)
    riCount := BitVec.ofNat 32 (s.sinLe32 11)
    bsCount := BitVec.ofNat 32 (s.sinLe32 15)
    riValid := true
    imgValid := false
    brBase := BitVec.ofNat 32 (19 + s.sinLe32 11)
    brLen := BitVec.ofNat 32 (s.sinLe32 15)
    brIdx := 0#32
    brCursor := 0#3 }

/-- Row `y`'s emptiness bit in the container SIN holds (R103). -/
def State.sinRowBit (s : State) (y : Nat) : Bool := (s.byte .sin (19 + y / 8)).getLsbD (y % 8)

/-- The container SIN holds has in its bitstream, one list of tags a row, the tags `rows`: none for a row flagged empty,
one for each group of any other row; the bits after them are not looked at (R101, R205). -/
structure State.HoldsTags (s : State) (rows : List (List Tag)) : Prop where
  count : rows.length = s.sinLe32 7
  groups : ∀ y < rows.length,
    (rows.getD y []).length = if s.sinRowBit y then 0 else groupCount (s.sinLe32 3)
  bits : tagBits rows.flatten <+: bitsOf (s.bytes .sin (19 + s.sinLe32 11) (s.sinLe32 15))

/-- The image those tags give (R202). -/
def State.decodedImage (s : State) (rows : List (List Tag)) : List Byte :=
  (List.range (s.sinLe32 7)).flatMap fun y =>
    if s.sinRowBit y then List.replicate (s.sinLe32 3) 255#8 else rowPixels (s.sinLe32 3) (rows.getD y [])

/-! ### Runs of instructions -/

/-- The bits a put command puts: `B[0]`, the `n` lowest bits of `B`, or the byte, most significant first (R94); none for
any other instruction. -/
def putBitsOf : Instr → List Bool
  | .bwPutbit b => [b]
  | .bwPutbits n v => (List.range n.toNat).map fun i => v.getLsbD (n.toNat - 1 - i)
  | .bwPutbyte v => (List.range 8).map fun i => v.getLsbD (7 - i)
  | _ => []

/-- A put command with a legal count (R93). -/
def isPut : Instr → Bool
  | .bwPutbit _ => true
  | .bwPutbits n _ => n.toNat ≤ 32
  | .bwPutbyte _ => true
  | _ => false

/-- The number whose binary digits are `bs`, first digit most significant. -/
def numberOf (bs : List Bool) : Nat := bs.foldl (fun v b => 2 * v + b.toNat) 0

/-- Instructions one after another, stopping at a fault or a refusal. -/
def execAll : List Instr → State → Host.Outcome State Fault Refusal
  | [], s => .next s
  | i :: is, s =>
    match exec i s with
    | .next t => execAll is t
    | .fault f => .fault f
    | .refused r => .refused r

/-- The stepwise encode of R313 after its IMGDESC. -/
def stepwiseEncode (h : Nat) : List Instr :=
  [.bwInit, .reiBuild] ++ (List.range h).map (fun y => .beEncodeRow (BitVec.ofNat 32 y)) ++ [.bwFinish, .cfAssemble]

/-- The stepwise decode of R314. -/
def stepwiseDecode (l : Word32) (h : Nat) : List Instr :=
  .cfParse l :: (List.range h).map fun y => .bdDecodeRow (BitVec.ofNat 32 y)

/-- The instruction is a command that writes STATUS and RESULT: every one but NOP and RDREG, and no tag code (R286). -/
def writesStatus : Instr → Bool
  | .nop => false
  | .rdreg _ => false
  | .tagWhite => false
  | .tagBlack => false
  | .tagLiteral _ _ _ _ => false
  | .srst => true
  | .imgdesc _ _ => true
  | .imgrel => true
  | .bwInit => true
  | .bwPutbit _ => true
  | .bwPutbits _ _ => true
  | .bwPutbyte _ => true
  | .bwFinish => true
  | .brInit _ _ => true
  | .brGetbit => true
  | .brGetbits _ => true
  | .brGetbyte => true
  | .reiBuild => true
  | .reiTest _ => true
  | .beEncodeGroup _ _ => true
  | .beEncodeRow _ => true
  | .bdDecodeGroup _ _ => true
  | .bdDecodeRow _ => true
  | .cfAssemble => true
  | .cfParse _ => true
  | .cfEncode => true
  | .cfDecode _ => true

/-! ### The invariants -/

/-- The status words a command can leave: success, or a cause that a rule raises; FormatError(InvalidTag) is none
(R100, R280 to R284). -/
def legalStatuses : List (BitVec 16) :=
  statusOk ::
  ([.nullBuffer, .badWidth, .badHeight, .tooShort, .badMagic, .badVersion, .truncated, .badDimensions, .badRowIndexCount,
    .outOfData, .rowOverrun, .imageCapacity, .writerCapacity, .streamCapacity, .reservedOpcode, .countOutOfRange,
    .writerFinished, .writerNotFinished, .sliceOutOfRange, .rowOutOfRange, .groupOutOfRange, .noRowIndex].map causeStatus)

/-- What the spec says holds after reset and after every command. -/
structure State.Inv (s : State) : Prop where
  /-- The parameters meet R6. -/
  params : s.params.Legal
  /-- No dimension exceeds DIM_MAX (R24). -/
  dims : s.width.toNat ≤ Config.dimMax ∧ s.height.toNat ≤ Config.dimMax
  /-- The image fits IMG (R24). -/
  fits : s.width.toNat * s.height.toNat ≤ s.params.imgCap
  /-- A described image and a held bitmap have positive dimensions (R24). -/
  positive : s.imgValid = true ∨ s.riValid = true → 1 ≤ s.width.toNat ∧ 1 ≤ s.height.toNat
  /-- A held bitmap has `ceil(HEIGHT / 8)` bytes (R26). -/
  rows : s.riValid = true → s.riCount.toNat = ceilDiv s.height.toNat 8
  /-- CUR is 0 below the bits written (R27). -/
  clean : ∀ k < 8 - s.bwCursor.toNat, s.cur.getLsbD k = false
  /-- A finished writer has no partial byte (R28). -/
  flushed : s.fin = true → s.bwCursor = 0#3 ∧ s.cur = 0#8
  /-- The bits written fit WBUF (R28, R126). -/
  room : ceilDiv s.nbits 8 ≤ s.params.wbufCap
  /-- The slice lies inside SIN (R29). -/
  slice : s.brBase.toNat + s.brLen.toNat ≤ s.params.sinCap
  /-- The reader lies inside the slice (R29). -/
  position : s.brIdx.toNat ≤ s.brLen.toNat
  /-- An exhausted reader has cursor 0 (R29). -/
  atEnd : s.brIdx = s.brLen → s.brCursor = 0#3
  /-- The last container fits SOUT (R33). -/
  stream : s.soutLen.toNat ≤ s.params.soutCap
  /-- STATUS is one of the words a command leaves (R280 to R284). -/
  status : s.status ∈ legalStatuses
  /-- An error leaves RESULT 0 (R285). -/
  failed : s.status ≠ statusOk → s.result = 0#32
  /-- Every memory is in its canonical form. -/
  forms : s.img.wf = true ∧ s.sin.wf = true ∧ s.sout.wf = true ∧ s.wbuf.wf = true ∧ s.ribuf.wf = true
  /-- No memory lists an address outside its space (R60, R67). -/
  inside : s.img.within (s.params.cap .img) = true ∧ s.sin.within (s.params.cap .sin) = true ∧
    s.sout.within (s.params.cap .sout) = true ∧ s.wbuf.within (s.params.cap .wbuf) = true ∧
    s.ribuf.within (s.params.cap .ribuf) = true
  /-- Every byte of the writer's output has been written (R64, R311). -/
  output : ∀ a < s.bwLen.toNat, (memGet s.wbuf a).isSome = true
  /-- Every byte of a held bitmap has been written (R65, R311). -/
  bitmap : s.riValid = true → ∀ a < s.riCount.toNat, (memGet s.ribuf a).isSome = true

/-- A step that does not stop. -/
def Goes (o : Host.Outcome State Fault Refusal) : Prop := ∃ t, o = .next t

/-- What is next on the port is a command, which the block carries out whole. -/
def State.commandNext (s : State) : Prop := ∃ w rest, s.port = .command w :: rest

end Machine
end Sys2Proof
end

