-- ==== Sys2Proof/Certificates/Slice0/Obligations.lean ====
section
/-! DEFINITION. The statements for the provers. Each docstring names the rule of spec/ it states. -/

open Sys2Proof Sys2Proof.Machine

/-! ### Encodings -/

/-- Decode and encode agree for every instruction, with every operand at every value its field admits (R90 to R94, R98). -/
def Obligations.DecodeOfEncode : Prop := ∀ i : Instr, decode (encode i) = .ok i

/-- R90, R91, R92, R94: the four fields of a command word stand in bits [79:72], [71:64], [63:32] and [31:0], and each OPC of
the opcode map selects its command whatever the fields it does not use hold; BW_PUTBIT takes `B[0]`, BW_PUTBYTE `B[7:0]`. -/
def Obligations.OpcodeMapDecodes : Prop :=
  ∀ (opc n : Byte) (a b : Word32),
    (commandWord opc n a b).toNat = opc.toNat * 2 ^ 72 + n.toNat * 2 ^ 64 + a.toNat * 2 ^ 32 + b.toNat ∧
    decodeCommand (commandWord 0x00 n a b) = .ok .nop ∧
    decodeCommand (commandWord 0x01 n a b) = .ok .srst ∧
    decodeCommand (commandWord 0x02 n a b) = .ok (.rdreg a) ∧
    decodeCommand (commandWord 0x03 n a b) = .ok (.imgdesc a b) ∧
    decodeCommand (commandWord 0x04 n a b) = .ok .imgrel ∧
    decodeCommand (commandWord 0x10 n a b) = .ok .bwInit ∧
    decodeCommand (commandWord 0x11 n a b) = .ok (.bwPutbit (b.getLsbD 0)) ∧
    decodeCommand (commandWord 0x12 n a b) = .ok (.bwPutbits n b) ∧
    decodeCommand (commandWord 0x13 n a b) = .ok (.bwPutbyte (b.setWidth 8)) ∧
    decodeCommand (commandWord 0x14 n a b) = .ok .bwFinish ∧
    decodeCommand (commandWord 0x20 n a b) = .ok (.brInit a b) ∧
    decodeCommand (commandWord 0x21 n a b) = .ok .brGetbit ∧
    decodeCommand (commandWord 0x22 n a b) = .ok (.brGetbits n) ∧
    decodeCommand (commandWord 0x23 n a b) = .ok .brGetbyte ∧
    decodeCommand (commandWord 0x30 n a b) = .ok .reiBuild ∧
    decodeCommand (commandWord 0x31 n a b) = .ok (.reiTest a) ∧
    decodeCommand (commandWord 0x40 n a b) = .ok (.beEncodeGroup a b) ∧
    decodeCommand (commandWord 0x41 n a b) = .ok (.beEncodeRow a) ∧
    decodeCommand (commandWord 0x50 n a b) = .ok (.bdDecodeGroup a b) ∧
    decodeCommand (commandWord 0x51 n a b) = .ok (.bdDecodeRow a) ∧
    decodeCommand (commandWord 0x60 n a b) = .ok .cfAssemble ∧
    decodeCommand (commandWord 0x61 n a b) = .ok (.cfParse a) ∧
    decodeCommand (commandWord 0x62 n a b) = .ok .cfEncode ∧
    decodeCommand (commandWord 0x63 n a b) = .ok (.cfDecode a)

/-- R93: an OPC in one of the reserved ranges, and no other, decodes to no instruction; the step that takes such a word
raises IllegalCommand(ReservedOpcode), status 0x0015, and changes only STATUS and RESULT; and a count above 32 raises
IllegalCommand(CountOutOfRange), status 0x0025. -/
def Obligations.ReservedAndIllegalEncodings : Prop :=
  (∀ w : CommandWord,
    (∃ e, decodeCommand w = .error e) ↔
      let opc := w.toNat / 2 ^ 72
      (0x05 ≤ opc ∧ opc ≤ 0x0F) ∨ (0x15 ≤ opc ∧ opc ≤ 0x1F) ∨ (0x24 ≤ opc ∧ opc ≤ 0x2F) ∨ (0x32 ≤ opc ∧ opc ≤ 0x3F) ∨
        (0x42 ≤ opc ∧ opc ≤ 0x4F) ∨ (0x52 ≤ opc ∧ opc ≤ 0x5F) ∨ (0x64 ≤ opc ∧ opc ≤ 0xFF)) ∧
  (∀ (s : State) (w : CommandWord) (rest : List HostAction) (e : DecodeError),
    s.port = .command w :: rest → decodeCommand w = .error e →
    step s = .next { s with
      port := rest, status := 0x0015#16, result := 0#32, responses := ⟨0x0015#16, 0#32⟩ :: s.responses }) ∧
  (∀ (s : State) (n : BitVec 8) (v : Word32), 32 < n.toNat →
    exec (.bwPutbits n v) s =
        .next { s with status := 0x0025#16, result := 0#32, responses := ⟨0x0025#16, 0#32⟩ :: s.responses } ∧
    exec (.brGetbits n) s =
        .next { s with status := 0x0025#16, result := 0#32, responses := ⟨0x0025#16, 0#32⟩ :: s.responses })

/-- R99: the tag a decoder reads from a tag's bits followed by anything is that tag, and no code is the beginning of
another: of two tags whose bits begin one bit string, both are the same. -/
def Obligations.TagsFormPrefixCode : Prop :=
  (∀ (t : Tag) (rest : List Bool), decodeTag (t.bits ++ rest) = .ok (t, rest)) ∧
  ∀ t t' : Tag, t.bits <+: t'.bits → t = t'

/-- R100: no bit string is an illegal code: every string of at least 34 bits begins with a tag. -/
def Obligations.NoTagCodeIsIllegal : Prop :=
  ∀ bs : List Bool, 34 ≤ bs.length → ∃ t rest, decodeTag bs = .ok (t, rest) ∧ bs = t.bits ++ rest

/-- A few command words and tag codes written out from R92 and R98 decode to the instructions they stand for. -/
def Obligations.SampleWordsDecode : Prop :=
  decodeCommand 0x03000000000500000003#80 = .ok (.imgdesc 5 3) ∧
  decodeCommand 0x11FFFFFFFFFFFFFFFFFE#80 = .ok (.bwPutbit false) ∧
  decodeCommand 0x1203000000000000000D#80 = .ok (.bwPutbits 3 13) ∧
  decodeCommand 0x20000000001400000009#80 = .ok (.brInit 20 9) ∧
  decodeCommand 0x50000000000100000002#80 = .ok (.bdDecodeGroup 1 2) ∧
  decodeCommand 0x63000000001900000000#80 = .ok (.cfDecode 25) ∧
  decode (.tag [true, false]) = .ok .tagBlack

/-- R97: the commands PUT_WHITE, PUT_BLACK and PUT_LITERAL expand to put the bits of a White, a Black and a Literal tag. -/
def Obligations.PseudoCommandsPutTags : Prop :=
  ∀ s : State, s.Inv → s.fin = false → ceilDiv (s.nbits + 34) 8 ≤ s.params.wbufCap →
    (∃ t, execAll Pseudo.putWhite.expand s = .next t ∧ t.written = s.written ++ [false]) ∧
    (∃ t, execAll Pseudo.putBlack.expand s = .next t ∧ t.written = s.written ++ [true, false]) ∧
    (∃ t, execAll Pseudo.putLittag.expand s = .next t ∧ t.written = s.written ++ [true, true]) ∧
    ∀ b0 b1 b2 b3 : Byte, ∃ t, execAll (Pseudo.putLiteral b0 b1 b2 b3).expand s = .next t ∧
      t.written = s.written ++ [true, true] ++ bitsOf [b0, b1, b2, b3]

/-! ### The step, errors and reset -/

/-- When the command word at the head of the port decodes to an instruction, the step is `exec` of it on the state with
the word taken from the port. -/
def Obligations.StepRunsDecodedInstruction : Prop :=
  ∀ (s : State) (w : CommandWord) (rest : List HostAction) (i : Instr),
    s.port = .command w :: rest → decodeCommand w = .ok i → step s = exec i { s with port := rest }

/-- The host writes IMG and SIN between commands and copies SOUT to SIN; nothing else changes, and an idle block loses no
state (R60, R297, R316; the model's own list of host actions, log 1 and log 13). -/
def Obligations.HostActionsWriteOnlyTheirSpace : Prop :=
  ∀ (s : State) (rest : List HostAction),
    (s.port = [] → step s = .next s) ∧
    (∀ (a : Nat) (bs : List Byte), s.port = .writeImg a bs :: rest → a + bs.length ≤ s.params.imgCap →
      ∃ t, step s = .next t ∧ Stores .img a bs s t ∧ t = { s with port := rest, img := t.img }) ∧
    (∀ (a : Nat) (bs : List Byte), s.port = .writeSin a bs :: rest → a + bs.length ≤ s.params.sinCap →
      ∃ t, step s = .next t ∧ Stores .sin a bs s t ∧ t = { s with port := rest, sin := t.sin }) ∧
    (∀ src dst len : Nat, s.port = .copySout src dst len :: rest → src + len ≤ s.params.soutCap →
      dst + len ≤ s.params.sinCap →
      ∃ t, step s = .next t ∧ Stores .sin dst (s.bytes .sout src len) s t ∧ t = { s with port := rest, sin := t.sin })

/-- R285: an error writes `CAUSE << 4 | KIND` to STATUS and 0 to RESULT, the response carries the same two values, and
nothing else is written. -/
def Obligations.ErrorEntryWritesStatusAndResult : Prop :=
  ∀ (c : Cause) (s : State),
    raiseError c s = { s with
      status := causeStatus c, result := 0#32, responses := ⟨causeStatus c, 0#32⟩ :: s.responses } ∧
    (causeStatus c).toNat = 16 * causeCode c + kindCode c

/-- R281 to R284: the status word of every cause. -/
def Obligations.StatusWordOfEveryCause : Prop :=
  causeStatus .nullBuffer = 0x011#16 ∧ causeStatus .badWidth = 0x021#16 ∧ causeStatus .badHeight = 0x031#16 ∧
  causeStatus .tooShort = 0x012#16 ∧ causeStatus .badMagic = 0x022#16 ∧ causeStatus .badVersion = 0x032#16 ∧
  causeStatus .truncated = 0x042#16 ∧ causeStatus .badDimensions = 0x052#16 ∧
  causeStatus .badRowIndexCount = 0x062#16 ∧ causeStatus .outOfData = 0x072#16 ∧ causeStatus .invalidTag = 0x082#16 ∧
  causeStatus .rowOverrun = 0x092#16 ∧ causeStatus .imageCapacity = 0x014#16 ∧ causeStatus .writerCapacity = 0x024#16 ∧
  causeStatus .streamCapacity = 0x034#16 ∧ causeStatus .reservedOpcode = 0x015#16 ∧
  causeStatus .countOutOfRange = 0x025#16 ∧ causeStatus .writerFinished = 0x035#16 ∧
  causeStatus .writerNotFinished = 0x045#16 ∧ causeStatus .sliceOutOfRange = 0x055#16 ∧
  causeStatus .rowOutOfRange = 0x065#16 ∧ causeStatus .groupOutOfRange = 0x075#16 ∧ causeStatus .noRowIndex = 0x085#16

/-- R286: every command except NOP and RDREG writes STATUS and RESULT when it ends and responds with the same two values,
0 as the result where STATUS reports an error; NOP and RDREG write neither. -/
def Obligations.EveryCommandReportsItsOutcome : Prop :=
  ∀ (i : Instr) (s t : State), exec i s = .next t →
    (writesStatus i = true →
      t.responses = ⟨t.status, t.result⟩ :: s.responses ∧ (t.status ≠ 0x0000#16 → t.result = 0#32)) ∧
    (i = .nop ∨ (∃ r, i = .rdreg r) → t.status = s.status ∧ t.result = s.result)

/-- R37: after reset every register reads 0, for every choice of the parameters; and no memory byte has been written. -/
def Obligations.ResetLeavesEveryRegisterZero : Prop :=
  ∀ p : Params, (∀ r : Word32, readReg r (State.resetWith p) = 0#32) ∧
    ∀ sp a, memGet ((State.resetWith p).mem sp) a = none

/-- R312: after reset bits may be put without a BW_INIT, every bit read is out of data, and the commands that need an
image or a row index report that there is none. -/
def Obligations.FirstCommandsAfterReset : Prop :=
  ∀ (p : Params) (b : Bool) (y g : Word32) (k : BitVec 8), p.Legal → 1 ≤ k.toNat → k.toNat ≤ 32 →
    let s := State.resetWith p
    (∃ t, exec (.bwPutbit b) s = .next (returnValue 0#32 t) ∧ t.written = [b]) ∧
    exec .brGetbit s = .next (raiseError .outOfData s) ∧
    exec .brGetbyte s = .next (raiseError .outOfData s) ∧
    exec .reiBuild s = .next (raiseError .nullBuffer s) ∧
    exec (.brGetbits k) s = .next (raiseError .outOfData s) ∧
    exec (.beEncodeGroup y g) s = .next (raiseError .nullBuffer s) ∧
    exec (.beEncodeRow y) s = .next (raiseError .nullBuffer s) ∧
    exec .cfEncode s = .next (raiseError .nullBuffer s) ∧
    exec (.reiTest y) s = .next (raiseError .noRowIndex s) ∧
    exec (.bdDecodeRow y) s = .next (raiseError .noRowIndex s) ∧
    exec .cfAssemble s = .next (raiseError .noRowIndex s)

/-! ### Control commands -/

/-- R260: NOP responds with status 0x0000 and result 0 and writes nothing. -/
def Obligations.NopOnlyResponds : Prop :=
  ∀ s : State, exec .nop s = .next { s with responses := ⟨0x0000#16, 0#32⟩ :: s.responses }

/-- R261, R310: SRST gives every register its value after power-on reset and keeps every memory. -/
def Obligations.SrstResetsRegistersAndKeepsMemory : Prop :=
  ∀ s : State, exec .srst s = .next { State.resetWith s.params with
    img := s.img, sin := s.sin, sout := s.sout, wbuf := s.wbuf, ribuf := s.ribuf, port := s.port,
    responses := ⟨0x0000#16, 0#32⟩ :: s.responses, tagRow := s.tagRow, tagGroup := s.tagGroup, wbufDraws := s.wbufDraws,
    draws := s.draws }

/-- R262: RDREG responds with status 0x0000 and the register's value, its fields placed as R22 places them, and writes
nothing; a number from 0x0E up reads 0. -/
def Obligations.RdregReturnsTheRegister : Prop :=
  ∀ (s : State) (r : Word32), ∃ v : Word32,
    exec (.rdreg r) s = .next { s with responses := ⟨0x0000#16, v⟩ :: s.responses } ∧
    (r.toNat = 0x00 → v.toNat = s.status.toNat) ∧ (r.toNat = 0x01 → v = s.result) ∧ (r.toNat = 0x02 → v = s.width) ∧
    (r.toNat = 0x03 → v = s.height) ∧ (r.toNat = 0x04 → v = s.riCount) ∧ (r.toNat = 0x05 → v = s.bsCount) ∧
    (r.toNat = 0x06 → v = s.bwLen) ∧
    (r.toNat = 0x07 → v.toNat = s.cur.toNat + 256 * s.bwCursor.toNat + 2048 * s.fin.toNat) ∧
    (r.toNat = 0x08 → v = s.brBase) ∧ (r.toNat = 0x09 → v = s.brLen) ∧ (r.toNat = 0x0A → v = s.brIdx) ∧
    (r.toNat = 0x0B → v.toNat = s.brCursor.toNat) ∧
    (r.toNat = 0x0C → v.toNat = s.imgValid.toNat + 2 * s.riValid.toNat) ∧
    (r.toNat = 0x0D → v = s.soutLen) ∧ (0x0E ≤ r.toNat → v = 0#32)

/-- R263: IMGDESC checks the width, then the height, then the capacity, and describes the image only when all hold. The
value of DIM_MAX is presumed (log 11); the statement does not rest on it. -/
def Obligations.ImgdescDescribesTheImage : Prop :=
  ∀ (s : State) (w h : Word32),
    (w.toNat = 0 ∨ w.toNat > Config.dimMax → exec (.imgdesc w h) s = .next (raiseError .badWidth s)) ∧
    (1 ≤ w.toNat ∧ w.toNat ≤ Config.dimMax → h.toNat = 0 ∨ h.toNat > Config.dimMax →
      exec (.imgdesc w h) s = .next (raiseError .badHeight s)) ∧
    (1 ≤ w.toNat ∧ w.toNat ≤ Config.dimMax → 1 ≤ h.toNat ∧ h.toNat ≤ Config.dimMax →
      w.toNat * h.toNat > s.params.imgCap → exec (.imgdesc w h) s = .next (raiseError .imageCapacity s)) ∧
    (s.params.Legal → 1 ≤ w.toNat ∧ w.toNat ≤ Config.dimMax → 1 ≤ h.toNat ∧ h.toNat ≤ Config.dimMax →
      w.toNat * h.toNat ≤ s.params.imgCap →
      ∃ v : Word32, v.toNat = w.toNat * h.toNat ∧ exec (.imgdesc w h) s =
        .next (returnValue v { s with width := w, height := h, imgValid := true, riValid := false }))

/-- R264: IMGREL clears both flags and nothing else, also when the image is already released. -/
def Obligations.ImgrelReleasesTheImage : Prop :=
  ∀ s : State, exec .imgrel s = .next (returnValue 0#32 { s with imgValid := false, riValid := false })

/-! ### Bit Writer -/

/-- R122: BW_INIT leaves the writer empty and open. Nothing is said of the bytes of WBUF, which are unspecified from then
on (free values, log 6). -/
def Obligations.BwInitStartsAnEmptyWriter : Prop :=
  ∀ s : State, ∃ t, exec .bwInit s = .next (returnValue 0#32 t) ∧ t.written = [] ∧
    t = { s with
      bwLen := 0#32, cur := 0#8, bwCursor := 0#3, fin := false, wbuf := t.wbuf, wbufDraws := t.wbufDraws }

/-- R123: BW_PUTBIT is refused by a finished writer and by a full one, and otherwise puts its bit. Here and in the put and
encode statements below nothing is said of the bytes of WBUF at or above BW_LEN, which R64 leaves open (log 6). -/
def Obligations.BwPutbitPutsOneBit : Prop :=
  ∀ (s : State) (b : Bool),
    (s.fin = true → exec (.bwPutbit b) s = .next (raiseError .writerFinished s)) ∧
    (s.fin = false → ceilDiv (s.nbits + 1) 8 > s.params.wbufCap →
      exec (.bwPutbit b) s = .next (raiseError .writerCapacity s)) ∧
    (s.Inv → s.fin = false → ceilDiv (s.nbits + 1) 8 ≤ s.params.wbufCap →
      ∃ t, exec (.bwPutbit b) s = .next (returnValue 0#32 t) ∧ Appends s t [b])

/-- R124: BW_PUTBITS checks its count, then FIN, then the room, and puts the `n` lowest bits of its value, most significant
first. -/
def Obligations.BwPutbitsPutsTheLowestBits : Prop :=
  ∀ (s : State) (n : BitVec 8) (v : Word32),
    (n.toNat > 32 → exec (.bwPutbits n v) s = .next (raiseError .countOutOfRange s)) ∧
    (n.toNat ≤ 32 → s.fin = true → exec (.bwPutbits n v) s = .next (raiseError .writerFinished s)) ∧
    (n.toNat ≤ 32 → s.fin = false → ceilDiv (s.nbits + n.toNat) 8 > s.params.wbufCap →
      exec (.bwPutbits n v) s = .next (raiseError .writerCapacity s)) ∧
    (s.Inv → n.toNat ≤ 32 → s.fin = false → ceilDiv (s.nbits + n.toNat) 8 ≤ s.params.wbufCap →
      ∃ t, exec (.bwPutbits n v) s = .next (returnValue 0#32 t) ∧
        Appends s t ((List.range n.toNat).map fun i => v.getLsbD (n.toNat - 1 - i)))

/-- R125: BW_PUTBYTE puts the eight bits of its byte at any cursor, with exactly the effect of BW_PUTBITS 8. -/
def Obligations.BwPutbytePutsOneByte : Prop :=
  ∀ (s : State) (v : Byte),
    (s.fin = true → exec (.bwPutbyte v) s = .next (raiseError .writerFinished s)) ∧
    (s.fin = false → ceilDiv (s.nbits + 8) 8 > s.params.wbufCap →
      exec (.bwPutbyte v) s = .next (raiseError .writerCapacity s)) ∧
    (s.Inv → s.fin = false → ceilDiv (s.nbits + 8) 8 ≤ s.params.wbufCap →
      ∃ t, exec (.bwPutbyte v) s = .next (returnValue 0#32 t) ∧
        Appends s t ((List.range 8).map fun i => v.getLsbD (7 - i)) ∧ t.bwCursor = s.bwCursor) ∧
    exec (.bwPutbyte v) s = exec (.bwPutbits 8 (v.setWidth 32)) s

/-- R126: BW_FINISH flushes a partial byte padded with zeros and returns the length; a second one changes nothing and
returns the same. Nothing is said of the bytes of WBUF at or above the new BW_LEN (R64; log 6). -/
def Obligations.BwFinishFlushesAndReturnsLength : Prop :=
  ∀ s : State, s.Inv →
    (s.fin = true → exec .bwFinish s = .next (returnValue s.bwLen s)) ∧
    (s.fin = false → ∃ t, exec .bwFinish s = .next (returnValue t.bwLen t) ∧
      t.bwLen.toNat = ceilDiv s.nbits 8 ∧ t.bytes .wbuf 0 t.bwLen.toNat = packed s.written ∧
      (∀ a < s.bwLen.toNat, t.byte .wbuf a = s.byte .wbuf a) ∧
      t = { s with
        wbuf := t.wbuf, wbufDraws := t.wbufDraws, bwLen := t.bwLen, cur := 0#8, bwCursor := 0#3, fin := true })

/-- R127: after BW_INIT and any puts of `t` bits in all, BW_FINISH returns `ceil(t / 8)` and WBUF holds the bits in stream
order followed by zeros; once FIN is 1 no put changes the buffer. -/
def Obligations.WriterLengthContract : Prop :=
  (∀ (s : State) (puts : List Instr), s.Inv → (∀ i ∈ puts, isPut i = true) →
    ceilDiv (puts.flatMap putBitsOf).length 8 ≤ s.params.wbufCap →
    ∃ t, execAll ([.bwInit] ++ puts ++ [.bwFinish]) s = .next t ∧ t.status = 0x0000#16 ∧
      t.result.toNat = ceilDiv (puts.flatMap putBitsOf).length 8 ∧
      t.bytes .wbuf 0 t.result.toNat = packed (puts.flatMap putBitsOf)) ∧
  ∀ (s t : State) (i : Instr), s.fin = true → isPut i = true → exec i s = .next t →
    t.wbuf = s.wbuf ∧ t.bwLen = s.bwLen ∧ t.fin = true

/-- R128: a put command that raises changes nothing but STATUS, RESULT and the response. -/
def Obligations.RaisingPutChangesNoWriterState : Prop :=
  ∀ (s t : State) (i : Instr), i = .bwPutbit true ∨ i = .bwPutbit false ∨ (∃ n v, i = .bwPutbits n v) ∨
      (∃ v, i = .bwPutbyte v) →
    exec i s = .next t → t.status ≠ 0x0000#16 → ∃ c, t = raiseError c s

/-! ### Bit Reader -/

/-- R141: BR_INIT refuses a slice that does not lie in SIN, the sum being exact, and otherwise wraps it. -/
def Obligations.BrInitWrapsASlice : Prop :=
  ∀ (s : State) (base len : Word32),
    (base.toNat + len.toNat > s.params.sinCap → exec (.brInit base len) s = .next (raiseError .sliceOutOfRange s)) ∧
    (base.toNat + len.toNat ≤ s.params.sinCap →
      exec (.brInit base len) s =
        .next (returnValue 0#32 { s with brBase := base, brLen := len, brIdx := 0#32, brCursor := 0#3 }))

/-- R142: BR_GETBIT returns the next bit of the slice, or raises OutOfData at its end and changes nothing. -/
def Obligations.BrGetbitReturnsTheNextBit : Prop :=
  ∀ s : State, s.Inv →
    (s.brIdx = s.brLen → exec .brGetbit s = .next (raiseError .outOfData s)) ∧
    (s.brIdx ≠ s.brLen → ∃ (b : Bool) (rest : List Bool), s.unread = b :: rest ∧
      exec .brGetbit s = .next (returnValue (BitVec.ofNat 32 b.toNat) (s.skipBits 1)))

/-- R143: BR_GETBITS refuses a count above 32; it returns the next `k` bits, first bit most significant, or, when fewer are
left, raises OutOfData with the reader exhausted. -/
def Obligations.BrGetbitsReturnsTheNextBits : Prop :=
  ∀ (s : State) (k : BitVec 8),
    (k.toNat > 32 → exec (.brGetbits k) s = .next (raiseError .countOutOfRange s)) ∧
    (s.Inv → k.toNat ≤ 32 → k.toNat ≤ s.unread.length →
      exec (.brGetbits k) s =
        .next (returnValue (BitVec.ofNat 32 (numberOf (s.unread.take k.toNat))) (s.skipBits k.toNat)) ∧
      numberOf (s.unread.take k.toNat) < 2 ^ k.toNat) ∧
    (s.Inv → k.toNat ≤ 32 → s.unread.length < k.toNat →
      exec (.brGetbits k) s = .next (raiseError .outOfData s.exhausted))

/-- R144: BR_GETBYTE returns the next eight bits, aligned or not, or raises OutOfData with the reader exhausted. -/
def Obligations.BrGetbyteReturnsTheNextByte : Prop :=
  ∀ s : State, s.Inv →
    (8 ≤ s.unread.length →
      exec .brGetbyte s = .next (returnValue (BitVec.ofNat 32 (numberOf (s.unread.take 8))) (s.skipBits 8))) ∧
    (s.unread.length < 8 → exec .brGetbyte s = .next (raiseError .outOfData s.exhausted))

/-- R145: the reading commands depend on no byte of SIN outside the slice. -/
def Obligations.ReadsStayInsideTheSlice : Prop :=
  ∀ (s t : State) (m : Memory) (i : Instr),
    i = .brGetbit ∨ (∃ k, i = .brGetbits k) ∨ i = .brGetbyte ∨ (∃ y g, i = .bdDecodeGroup y g) ∨
      (∃ y, i = .bdDecodeRow y) →
    (∀ a, s.brBase.toNat ≤ a → a < s.brBase.toNat + s.brLen.toNat → { s with sin := m }.byte .sin a = s.byte .sin a) →
    exec i s = .next t → exec i { s with sin := m } = .next { t with sin := m }

/-- R146, the mirror law: a writer that has put the bits `bs` and finishes leaves bytes from which a reader reads `bs`, then
zeros up to whole bytes, and then raises OutOfData. -/
def Obligations.ReaderMirrorsWriter : Prop :=
  ∀ (s f u : State) (base : Word32), s.Inv → s.fin = false → exec .bwFinish s = .next f → u.Inv →
    base.toNat + f.bwLen.toNat ≤ u.params.sinCap →
    u.bytes .sin base.toNat f.bwLen.toNat = f.bytes .wbuf 0 f.bwLen.toNat →
    ∃ t, execAll (.brInit base f.bwLen :: List.replicate (8 * f.bwLen.toNat) .brGetbit) u = .next t ∧
      (t.responses.take (8 * f.bwLen.toNat)).reverse =
        (s.written ++ List.replicate (8 * f.bwLen.toNat - s.nbits) false).map
          (fun b => ⟨0x0000#16, BitVec.ofNat 32 b.toNat⟩) ∧
      exec .brGetbit t = .next (raiseError .outOfData t)

/-! ### Row Emptiness Index -/

/-- R161: REI_BUILD needs an image, writes the `ceil(H / 8)` bitmap bytes and RI_COUNT, and sets RI_VALID. -/
def Obligations.ReiBuildWritesTheBitmap : Prop :=
  ∀ s : State,
    (s.imgValid = false → exec .reiBuild s = .next (raiseError .nullBuffer s)) ∧
    (s.Inv → s.imgValid = true →
      ∃ t, exec .reiBuild s = .next (returnValue (BitVec.ofNat 32 (ceilDiv s.height.toNat 8)) t) ∧
        Stores .ribuf 0 s.indexBytes s t ∧
        t = { s with ribuf := t.ribuf, riCount := BitVec.ofNat 32 (ceilDiv s.height.toNat 8), riValid := true })

/-- R164: after a successful REI_BUILD a row's bit is 1 exactly when every pixel of the row is 255, and every other bit of
the bitmap is 0. -/
def Obligations.BitmapBitsMarkEmptyRows : Prop :=
  ∀ s t : State, s.Inv → exec .reiBuild s = .next t → t.status = 0x0000#16 →
    (∀ y < s.height.toNat,
      t.rowBit y = true ↔ ∀ x < s.width.toNat, s.byte .img (y * s.width.toNat + x) = 255#8) ∧
    (∀ y, s.height.toNat ≤ y → y < 8 * t.riCount.toNat → t.rowBit y = false)

/-- R163: REI_TEST needs a bitmap and a row inside the image, and returns the row's bit. -/
def Obligations.ReiTestReturnsTheRowBit : Prop :=
  ∀ (s : State) (y : Word32),
    (s.riValid = false → exec (.reiTest y) s = .next (raiseError .noRowIndex s)) ∧
    (s.riValid = true → s.height.toNat ≤ y.toNat → exec (.reiTest y) s = .next (raiseError .rowOutOfRange s)) ∧
    (s.Inv → s.riValid = true → y.toNat < s.height.toNat →
      exec (.reiTest y) s = .next (returnValue (BitVec.ofNat 32 (s.rowBit y.toNat).toNat) s))

/-! ### Block Encoder -/

/-- R181: BE_ENCODE_GROUP's checks in order, and otherwise exactly the bits of the group's tag go out, padding included. -/
def Obligations.BeEncodeGroupPutsTheTag : Prop :=
  ∀ (s : State) (y g : Word32),
    (s.imgValid = false → exec (.beEncodeGroup y g) s = .next (raiseError .nullBuffer s)) ∧
    (s.imgValid = true → s.height.toNat ≤ y.toNat →
      exec (.beEncodeGroup y g) s = .next (raiseError .rowOutOfRange s)) ∧
    (s.imgValid = true → y.toNat < s.height.toNat → ceilDiv s.width.toNat 4 ≤ g.toNat →
      exec (.beEncodeGroup y g) s = .next (raiseError .groupOutOfRange s)) ∧
    (s.imgValid = true → y.toNat < s.height.toNat → g.toNat < ceilDiv s.width.toNat 4 → s.fin = true →
      exec (.beEncodeGroup y g) s = .next (raiseError .writerFinished s)) ∧
    (s.Inv → s.imgValid = true → y.toNat < s.height.toNat → g.toNat < ceilDiv s.width.toNat 4 → s.fin = false →
      (ceilDiv (s.nbits + (s.tagOf y.toNat g.toNat).bits.length) 8 > s.params.wbufCap →
        exec (.beEncodeGroup y g) s = .next (raiseError .writerCapacity s)) ∧
      (ceilDiv (s.nbits + (s.tagOf y.toNat g.toNat).bits.length) 8 ≤ s.params.wbufCap →
        ∃ t, exec (.beEncodeGroup y g) s = .next (returnValue (tagClass (s.tagOf y.toNat g.toNat)) t) ∧
          Appends s t (s.tagOf y.toNat g.toNat).bits))

/-- R182: BE_ENCODE_ROW's checks in order; a row flagged empty puts nothing and returns 1; any other row puts the bits of
its groups in order and returns 0, or stops with WriterCapacity at the first group that does not fit, the groups before
it staying. -/
def Obligations.BeEncodeRowPutsTheGroups : Prop :=
  ∀ (s : State) (y : Word32),
    (s.imgValid = false → exec (.beEncodeRow y) s = .next (raiseError .nullBuffer s)) ∧
    (s.imgValid = true → s.height.toNat ≤ y.toNat → exec (.beEncodeRow y) s = .next (raiseError .rowOutOfRange s)) ∧
    (s.imgValid = true → y.toNat < s.height.toNat → s.riValid = false →
      exec (.beEncodeRow y) s = .next (raiseError .noRowIndex s)) ∧
    (s.imgValid = true → y.toNat < s.height.toNat → s.riValid = true → s.fin = true →
      exec (.beEncodeRow y) s = .next (raiseError .writerFinished s)) ∧
    (s.Inv → s.imgValid = true → y.toNat < s.height.toNat → s.riValid = true → s.fin = false →
      (s.rowBit y.toNat = true → exec (.beEncodeRow y) s = .next (returnValue 1#32 s)) ∧
      (s.rowBit y.toNat = false → ceilDiv (s.nbits + (s.rowBits y.toNat).length) 8 ≤ s.params.wbufCap →
        ∃ t, exec (.beEncodeRow y) s = .next (returnValue 0#32 t) ∧ Appends s t (s.rowBits y.toNat)) ∧
      (∀ k, s.rowBit y.toNat = false → k < ceilDiv s.width.toNat 4 →
        ceilDiv (s.nbits + ((List.range k).flatMap fun g => (s.tagOf y.toNat g).bits).length) 8 ≤ s.params.wbufCap →
        ceilDiv (s.nbits + ((List.range (k + 1)).flatMap fun g => (s.tagOf y.toNat g).bits).length) 8 >
          s.params.wbufCap →
        ∃ t, exec (.beEncodeRow y) s = .next (raiseError .writerCapacity t) ∧
          Appends s t ((List.range k).flatMap fun g => (s.tagOf y.toNat g).bits)))

/-- R180: four group pixels that are all 255 are classified White, all 0 Black, and any others as the Literal of them; the
group pixels are those of the group alone, padding pixels 255, so that a padded group is never Black. -/
def Obligations.ClassificationOfAGroup : Prop :=
  (∀ p0 p1 p2 p3 : Byte,
    (classify p0 p1 p2 p3 = .white ↔ p0 = 255#8 ∧ p1 = 255#8 ∧ p2 = 255#8 ∧ p3 = 255#8) ∧
    (classify p0 p1 p2 p3 = .black ↔ p0 = 0#8 ∧ p1 = 0#8 ∧ p2 = 0#8 ∧ p3 = 0#8) ∧
    (classify p0 p1 p2 p3 ≠ .white → classify p0 p1 p2 p3 ≠ .black → classify p0 p1 p2 p3 = .literal p0 p1 p2 p3)) ∧
  ∀ (s : State) (y g : Nat), y < s.height.toNat → g < ceilDiv s.width.toNat 4 →
    s.width.toNat * s.height.toNat ≤ s.params.imgCap →
    groupTag y g s =
      .ok (classify (s.groupPixel y g 0) (s.groupPixel y g 1) (s.groupPixel y g 2) (s.groupPixel y g 3)) s ∧
    (s.width.toNat < 4 * g + 4 →
      classify (s.groupPixel y g 0) (s.groupPixel y g 1) (s.groupPixel y g 2) (s.groupPixel y g 3) ≠ .black)

/-- R183: the lengths of the three codes; and a row with a pixel other than 255 gives at least `G(W) + 1` and at most
`34 * G(W)` bits. -/
def Obligations.RowBitCountBounds : Prop :=
  (∀ t : Tag, t.bits.length = match t with | .white => 1 | .black => 2 | .literal _ _ _ _ => 34) ∧
  ∀ (s : State) (y : Nat), s.rowWhite y = false →
    groupCount s.width.toNat + 1 ≤ (s.rowBits y).length ∧ (s.rowBits y).length ≤ 34 * groupCount s.width.toNat

/-! ### Block Decoder and tag codes -/

/-- R98, R201: as instructions, the three tag codes give the valid pixels of the group the decoder is at their bytes and
change nothing else (the model's choice that a tag is an instruction: log 5). -/
def Obligations.TagInstructionsFillTheGroup : Prop :=
  ∀ (s : State) (p q r v : Byte), s.tagRow.toNat < s.height.toNat → s.tagGroup.toNat < ceilDiv s.width.toNat 4 →
    s.width.toNat * s.height.toNat ≤ s.params.imgCap →
    let a := s.tagRow.toNat * s.width.toNat + 4 * s.tagGroup.toNat
    let n := min 4 (s.width.toNat - 4 * s.tagGroup.toNat)
    (∃ t, exec .tagWhite s = .next t ∧ Stores .img a (List.replicate n 255#8) s t ∧ t = { s with img := t.img }) ∧
    (∃ t, exec .tagBlack s = .next t ∧ Stores .img a (List.replicate n 0#8) s t ∧ t = { s with img := t.img }) ∧
    (∃ t, exec (.tagLiteral p q r v) s = .next t ∧ Stores .img a ([p, q, r, v].take n) s t ∧ t = { s with img := t.img })

/-- R201: BD_DECODE_GROUP's checks in order; then it takes one tag from the slice, 1, 2 or 34 bits whatever the valid count,
and writes the group's valid pixels; or the slice runs out, the reader is exhausted and only bytes of the group may have
changed. -/
def Obligations.BdDecodeGroupWritesTheGroup : Prop :=
  ∀ (s : State) (y g : Word32),
    (s.height.toNat ≤ y.toNat → exec (.bdDecodeGroup y g) s = .next (raiseError .rowOverrun s)) ∧
    (y.toNat < s.height.toNat → ceilDiv s.width.toNat 4 ≤ g.toNat →
      exec (.bdDecodeGroup y g) s = .next (raiseError .groupOutOfRange s)) ∧
    (s.Inv → y.toNat < s.height.toNat → g.toNat < ceilDiv s.width.toNat 4 →
      let a := y.toNat * s.width.toNat + 4 * g.toNat
      let n := min 4 (s.width.toNat - 4 * g.toNat)
      (∀ (tag : Tag) (rest : List Bool), s.unread = tag.bits ++ rest →
        ∃ t, exec (.bdDecodeGroup y g) s = .next (returnValue (tagClass tag) t) ∧
          Stores .img a
            (match tag with
             | .white => List.replicate n 255#8
             | .black => List.replicate n 0#8
             | .literal p0 p1 p2 p3 => [p0, p1, p2, p3].take n) s t ∧
          t = { s.skipBits tag.bits.length with img := t.img, tagRow := y, tagGroup := g }) ∧
      ((∀ tag : Tag, ¬ tag.bits <+: s.unread) →
        ∃ t, exec (.bdDecodeGroup y g) s = .next (raiseError .outOfData t) ∧
          (∀ x, x < a ∨ a + n ≤ x → t.byte .img x = s.byte .img x) ∧
          t = { s.exhausted with img := t.img, tagRow := t.tagRow, tagGroup := t.tagGroup, draws := t.draws }))

/-- R202: BD_DECODE_ROW's checks in order; a row flagged empty becomes white and takes no bits, even from an exhausted
reader; any other row takes one tag for each group, in order; or the slice runs out, the reader is exhausted and only
bytes of the row may have changed. -/
def Obligations.BdDecodeRowWritesTheRow : Prop :=
  ∀ (s : State) (y : Word32),
    (s.riValid = false → exec (.bdDecodeRow y) s = .next (raiseError .noRowIndex s)) ∧
    (s.riValid = true → s.height.toNat ≤ y.toNat → exec (.bdDecodeRow y) s = .next (raiseError .rowOverrun s)) ∧
    (s.Inv → s.riValid = true → y.toNat < s.height.toNat →
      (s.rowBit y.toNat = true →
        ∃ t, exec (.bdDecodeRow y) s = .next (returnValue 1#32 t) ∧
          Stores .img (y.toNat * s.width.toNat) (List.replicate s.width.toNat 255#8) s t ∧ t = { s with img := t.img }) ∧
      (∀ (tags : List Tag) (rest : List Bool), s.rowBit y.toNat = false → tags.length = groupCount s.width.toNat →
        s.unread = tagBits tags ++ rest →
        ∃ t, exec (.bdDecodeRow y) s = .next (returnValue 0#32 t) ∧
          Stores .img (y.toNat * s.width.toNat) (rowPixels s.width.toNat tags) s t ∧
          t = { s.skipBits (tagBits tags).length with img := t.img, tagRow := t.tagRow, tagGroup := t.tagGroup }) ∧
      (s.rowBit y.toNat = false →
        (∀ tags : List Tag, tags.length = groupCount s.width.toNat → ¬ tagBits tags <+: s.unread) →
        ∃ t, exec (.bdDecodeRow y) s = .next (raiseError .outOfData t) ∧
          (∀ x, x < y.toNat * s.width.toNat ∨ y.toNat * s.width.toNat + s.width.toNat ≤ x →
            t.byte .img x = s.byte .img x) ∧
          t = { s.exhausted with img := t.img, tagRow := t.tagRow, tagGroup := t.tagGroup, draws := t.draws }))

/-! ### Container Framer -/

/-- R102: the header is 19 bytes, the magic, the version, and the four fields least significant byte first. The
byte values of the magic are presumed (log 11); the statement does not rest on them. -/
def Obligations.HeaderLayout : Prop :=
  ∀ w h r b : Word32,
    (headerBytes w h r b).length = 19 ∧ (headerBytes w h r b).take 3 = [Config.magic0, Config.magic1, 1#8] ∧
    le32 ((headerBytes w h r b).drop 3) = w.toNat ∧ le32 ((headerBytes w h r b).drop 7) = h.toNat ∧
    le32 ((headerBytes w h r b).drop 11) = r.toNat ∧ le32 ((headerBytes w h r b).drop 15) = b.toNat

/-- R220: CF_ASSEMBLE's checks in order, and otherwise SOUT holds header, row index and bitstream with nothing between. -/
def Obligations.CfAssembleWritesTheContainer : Prop :=
  ∀ s : State,
    (s.riValid = false → exec .cfAssemble s = .next (raiseError .noRowIndex s)) ∧
    (s.riValid = true → s.fin = false → exec .cfAssemble s = .next (raiseError .writerNotFinished s)) ∧
    (s.riValid = true → s.fin = true → 19 + s.riCount.toNat + s.bwLen.toNat > s.params.soutCap →
      exec .cfAssemble s = .next (raiseError .streamCapacity s)) ∧
    (s.Inv → s.riValid = true → s.fin = true → 19 + s.riCount.toNat + s.bwLen.toNat ≤ s.params.soutCap →
      let total := 19 + s.riCount.toNat + s.bwLen.toNat
      ∃ t, exec .cfAssemble s = .next (returnValue (BitVec.ofNat 32 total) t) ∧
        Stores .sout 0
          (headerBytes s.width s.height s.riCount s.bwLen ++ s.bytes .ribuf 0 s.riCount.toNat ++
            s.bytes .wbuf 0 s.bwLen.toNat) s t ∧
        t = { s with sout := t.sout, bsCount := s.bwLen, soutLen := BitVec.ofNat 32 total } ∧
        (BitVec.ofNat 32 total).toNat = total)

/-- R221: CF_PARSE raises the first check that fails and then changes nothing else; when every check passes it commits the
dimensions, the counts, the row index and the slice. -/
def Obligations.CfParseChecksThenCommits : Prop :=
  ∀ (s : State) (l : Word32), s.Inv →
    (∀ c, s.parseError l.toNat = some c → exec (.cfParse l) s = .next (raiseError c s)) ∧
    (s.parseError l.toNat = none →
      ∃ t, exec (.cfParse l) s = .next (returnValue 0#32 t) ∧
        Stores .ribuf 0 (s.bytes .sin 19 (s.sinLe32 11)) s t ∧ t = { s.parsed with ribuf := t.ribuf } ∧
        t.width.toNat = s.sinLe32 3 ∧ t.height.toNat = s.sinLe32 7 ∧ t.brBase.toNat = 19 + s.sinLe32 11)

/-- R222: a CF_PARSE that fails depends on no byte of SIN at or beyond offset 19, and at check (1) on none, at (2) on bytes
0 and 1, at (3) on bytes 0 to 2. -/
def Obligations.FailingParseReadsOnlyTheHeader : Prop :=
  ∀ (s t : State) (m : Memory) (l : Word32) (c : Cause) (n : Nat), s.parseError l.toNat = some c →
    n = (match c with | .sliceOutOfRange => 0 | .tooShort => 0 | .badMagic => 2 | .badVersion => 3 | _ => 19) →
    (∀ a < n, { s with sin := m }.byte .sin a = s.byte .sin a) →
    exec (.cfParse l) s = .next t → exec (.cfParse l) { s with sin := m } = .next { t with sin := m }

/-- R223: CF_ENCODE of a described image that fits writes its canonical container to SOUT and returns its length. Nothing is
said of the bytes of WBUF above the bitstream, which are free values (log 6). -/
def Obligations.CfEncodeWritesTheContainer : Prop :=
  ∀ s : State, s.Inv → s.imgValid = true → ceilDiv s.imageBits.length 8 ≤ s.params.wbufCap →
    s.container.length ≤ s.params.soutCap →
    ∃ t, exec .cfEncode s = .next (returnValue (BitVec.ofNat 32 s.container.length) t) ∧
      Stores .sout 0 s.container s t ∧ Stores .ribuf 0 s.indexBytes s t ∧
      t.bytes .wbuf 0 t.bwLen.toNat = packed s.imageBits ∧
      t = { s with
        sout := t.sout, ribuf := t.ribuf, wbuf := t.wbuf, wbufDraws := t.wbufDraws
        bwLen := BitVec.ofNat 32 (ceilDiv s.imageBits.length 8), cur := 0#8, bwCursor := 0#3, fin := true
        riCount := BitVec.ofNat 32 (ceilDiv s.height.toNat 8), riValid := true
        bsCount := BitVec.ofNat 32 (ceilDiv s.imageBits.length 8)
        soutLen := BitVec.ofNat 32 s.container.length }

/-- R33, R225, R287: without an image CF_ENCODE raises NullBuffer and changes nothing else but SOUT_LEN, which becomes 0
(that it does also here is the model's reading, by R33, R287 and D19 over R225's clause on InvalidInput: log 7; the bytes
of WBUF at or above BW_LEN are free values, log 6); when the bitstream does not fit WBUF it raises
WriterCapacity with the writer open, holding exactly the tags before the first that does not fit; when the container does not fit SOUT it raises
StreamCapacity with the writer finished; in both SOUT is not written and SOUT_LEN is 0. -/
def Obligations.FailingCfEncodeHandsOverNothing : Prop :=
  ∀ s : State,
    (s.imgValid = false → exec .cfEncode s = .next (raiseError .nullBuffer { s with soutLen := 0#32 })) ∧
    (s.Inv → s.imgValid = true → ceilDiv s.imageBits.length 8 > s.params.wbufCap →
      ∃ t k, exec .cfEncode s = .next (raiseError .writerCapacity t) ∧ k < s.imageTags.length ∧
        t.written = tagBits (s.imageTags.take k) ∧
        ceilDiv (tagBits (s.imageTags.take k)).length 8 ≤ s.params.wbufCap ∧
        ceilDiv (tagBits (s.imageTags.take (k + 1))).length 8 > s.params.wbufCap ∧
        Stores .ribuf 0 s.indexBytes s t ∧
        t = { s with
          wbuf := t.wbuf, wbufDraws := t.wbufDraws, bwLen := t.bwLen, cur := t.cur, bwCursor := t.bwCursor, fin := false, ribuf := t.ribuf
          riCount := BitVec.ofNat 32 (ceilDiv s.height.toNat 8), riValid := true, soutLen := 0#32 }) ∧
    (s.Inv → s.imgValid = true → ceilDiv s.imageBits.length 8 ≤ s.params.wbufCap →
      s.container.length > s.params.soutCap →
      ∃ t, exec .cfEncode s = .next (raiseError .streamCapacity t) ∧
        Stores .ribuf 0 s.indexBytes s t ∧ t.bytes .wbuf 0 t.bwLen.toNat = packed s.imageBits ∧
        t = { s with
          ribuf := t.ribuf, wbuf := t.wbuf, wbufDraws := t.wbufDraws
          bwLen := BitVec.ofNat 32 (ceilDiv s.imageBits.length 8), cur := 0#8, bwCursor := 0#3, fin := true
          riCount := BitVec.ofNat 32 (ceilDiv s.height.toNat 8), riValid := true, soutLen := 0#32 })

/-- R224: CF_DECODE of a container whose checks pass and whose bitstream holds a tag for every group writes the image,
hands it over and returns its size; bits after the last tag and bytes after the container are not looked at. -/
def Obligations.CfDecodeWritesTheImage : Prop :=
  ∀ (s : State) (l : Word32) (rows : List (List Tag)), s.Inv → s.parseError l.toNat = none → s.HoldsTags rows →
    ∃ t, exec (.cfDecode l) s = .next (returnValue (BitVec.ofNat 32 (s.sinLe32 3 * s.sinLe32 7)) t) ∧
      Stores .img 0 (s.decodedImage rows) s t ∧ Stores .ribuf 0 (s.bytes .sin 19 (s.sinLe32 11)) s t ∧
      t = { s.parsed.skipBits (tagBits rows.flatten).length with
        img := t.img, ribuf := t.ribuf, imgValid := true, tagRow := t.tagRow, tagGroup := t.tagGroup }

/-- R226: a CF_DECODE whose header fails changes nothing but STATUS and RESULT; one whose bitstream runs out leaves
IMG_VALID 0, the registers CF_PARSE wrote and the reader exhausted, and no byte of IMG outside the image changes. -/
def Obligations.FailingCfDecodeHandsOverNothing : Prop :=
  ∀ (s : State) (l : Word32), s.Inv →
    (∀ c, s.parseError l.toNat = some c → exec (.cfDecode l) s = .next (raiseError c s)) ∧
    (s.parseError l.toNat = none → (∀ rows, ¬ s.HoldsTags rows) →
      ∃ t, exec (.cfDecode l) s = .next (raiseError .outOfData t) ∧
        (∀ x, s.sinLe32 3 * s.sinLe32 7 ≤ x → t.byte .img x = s.byte .img x) ∧
        Stores .ribuf 0 (s.bytes .sin 19 (s.sinLe32 11)) s t ∧
        t = { s.parsed.exhausted with
          img := t.img, ribuf := t.ribuf, tagRow := t.tagRow, tagGroup := t.tagGroup, draws := t.draws })

/-- R227, the round trip: if CF_ENCODE returns a length `T` and SIN is given the bytes SOUT[0 .. T-1], whatever IMG holds by
then, CF_DECODE of length `T` succeeds and gives back the dimensions and every pixel. -/
def Obligations.DecodeOfEncodedImageIsTheImage : Prop :=
  ∀ (s t : State) (simg ssin : Memory), s.Inv → s.imgValid = true → exec .cfEncode s = .next t →
    t.status = 0x0000#16 → t.result.toNat ≤ s.params.sinCap → { t with img := simg, sin := ssin }.Inv →
    (∀ a < t.result.toNat, { t with img := simg, sin := ssin }.byte .sin a = t.byte .sout a) →
    ∃ u, exec (.cfDecode t.result) { t with img := simg, sin := ssin } = .next u ∧ u.status = 0x0000#16 ∧
      u.imgValid = true ∧ u.width = s.width ∧ u.height = s.height ∧
      ∀ a < s.width.toNat * s.height.toNat, u.byte .img a = s.byte .img a

/-- R313: after IMGDESC and a successful CF_ENCODE the result is SOUT_LEN and SOUT holds the container; and IMGDESC, then
BW_INIT, REI_BUILD, BE_ENCODE_ROW for every row in order, BW_FINISH and CF_ASSEMBLE leave the same state, the responses
and the free bytes of WBUF above the bitstream (log 6) aside. -/
def Obligations.StepwiseEncodeAgrees : Prop :=
  ∀ (s r t : State) (w h : Word32), s.Inv → exec (.imgdesc w h) s = .next r → r.status = 0x0000#16 →
    exec .cfEncode r = .next t → t.status = 0x0000#16 →
    t.result = t.soutLen ∧ t.bytes .sout 0 t.result.toNat = r.container ∧
    ∃ u, execAll (.imgdesc w h :: stepwiseEncode h.toNat) s = .next u ∧ u.status = 0x0000#16 ∧
      { u with responses := t.responses, wbufDraws := t.wbufDraws } = t

/-- R314: a successful CF_DECODE sets IMG_VALID and returns `W * H`; CF_PARSE and BD_DECODE_ROW for every row in order leave
the same state, but for IMG_VALID, which only CF_DECODE sets, and the outcome of the last command. -/
def Obligations.StepwiseDecodeAgrees : Prop :=
  ∀ (s t : State) (l : Word32), s.Inv → exec (.cfDecode l) s = .next t → t.status = 0x0000#16 →
    t.imgValid = true ∧ t.result.toNat = t.width.toNat * t.height.toNat ∧
    ∃ u, execAll (stepwiseDecode l t.height.toNat) s = .next u ∧ u.status = 0x0000#16 ∧ u.imgValid = false ∧
      { u with imgValid := true, result := t.result, responses := t.responses } = t

/-! ### The whole machine -/

/-- The state after reset meets the invariants (R24 to R33), for every legal choice of the parameters. -/
def Obligations.ResetMeetsTheInvariants : Prop := (∀ p : Params, p.Legal → (State.resetWith p).Inv) ∧ State.reset.Inv

/-- Every step keeps the invariants of R24 to R33, and the memories their canonical form. -/
def Obligations.EveryStepKeepsTheInvariants : Prop := ∀ s t : State, s.Inv → step s = .next t → t.Inv

/-- R67: no command accesses an address at or beyond a space's capacity: from a state that meets the invariants, a step
that takes a command from the port does not stop. -/
def Obligations.NoCommandLeavesItsSpace : Prop := ∀ s : State, s.Inv → s.commandNext → Goes (step s)

/-- R61 to R65: IMG is written only by the decode side, SIN by no instruction, SOUT only by CF_ASSEMBLE and CF_ENCODE, WBUF
only by the puts, BW_FINISH and the encode side (BW_INIT makes its bytes unspecified, log 6), RIBUF only by REI_BUILD, CF_PARSE, CF_ENCODE and CF_DECODE. -/
def Obligations.SpacesWrittenOnlyByTheirCommands : Prop :=
  ∀ (i : Instr) (s t : State), exec i s = .next t →
    t.sin = s.sin ∧
    (t.sout = s.sout ∨ i = .cfAssemble ∨ i = .cfEncode) ∧
    (t.img = s.img ∨ (∃ y g, i = .bdDecodeGroup y g) ∨ (∃ y, i = .bdDecodeRow y) ∨ (∃ l, i = .cfDecode l) ∨
      i = .tagWhite ∨ i = .tagBlack ∨ ∃ p q r v, i = .tagLiteral p q r v) ∧
    (t.wbuf = s.wbuf ∨ i = .bwInit ∨ (∃ b, i = .bwPutbit b) ∨ (∃ n v, i = .bwPutbits n v) ∨
      (∃ v, i = .bwPutbyte v) ∨ i = .bwFinish ∨ (∃ y g, i = .beEncodeGroup y g) ∨ (∃ y, i = .beEncodeRow y) ∨
      i = .cfEncode) ∧
    (t.ribuf = s.ribuf ∨ i = .reiBuild ∨ (∃ l, i = .cfParse l) ∨ i = .cfEncode ∨ ∃ l, i = .cfDecode l)

/-- R22: each register is written only by the commands its row of the register table names; STATUS and RESULT by every
command except NOP and RDREG. -/
def Obligations.RegistersWrittenOnlyByTheirCommands : Prop :=
  ∀ (i : Instr) (s t : State), exec i s = .next t → i ≠ .srst →
    ((t.status = s.status ∧ t.result = s.result) ∨ writesStatus i = true) ∧
    ((t.width = s.width ∧ t.height = s.height) ∨ (∃ w h, i = .imgdesc w h) ∨ (∃ l, i = .cfParse l) ∨
      ∃ l, i = .cfDecode l) ∧
    (t.riCount = s.riCount ∨ i = .reiBuild ∨ (∃ l, i = .cfParse l) ∨ (∃ l, i = .cfDecode l) ∨ i = .cfEncode) ∧
    (t.bsCount = s.bsCount ∨ i = .cfAssemble ∨ (∃ l, i = .cfParse l) ∨ i = .cfEncode ∨ ∃ l, i = .cfDecode l) ∧
    ((t.bwLen = s.bwLen ∧ t.cur = s.cur ∧ t.bwCursor = s.bwCursor ∧ t.fin = s.fin) ∨ i = .bwInit ∨
      (∃ b, i = .bwPutbit b) ∨ (∃ n v, i = .bwPutbits n v) ∨ (∃ v, i = .bwPutbyte v) ∨ i = .bwFinish ∨
      (∃ y g, i = .beEncodeGroup y g) ∨ (∃ y, i = .beEncodeRow y) ∨ i = .cfEncode) ∧
    ((t.brBase = s.brBase ∧ t.brLen = s.brLen) ∨ (∃ b n, i = .brInit b n) ∨ (∃ l, i = .cfParse l) ∨
      ∃ l, i = .cfDecode l) ∧
    ((t.brIdx = s.brIdx ∧ t.brCursor = s.brCursor) ∨ (∃ b n, i = .brInit b n) ∨ i = .brGetbit ∨
      (∃ k, i = .brGetbits k) ∨ i = .brGetbyte ∨ (∃ y g, i = .bdDecodeGroup y g) ∨ (∃ y, i = .bdDecodeRow y) ∨
      (∃ l, i = .cfParse l) ∨ ∃ l, i = .cfDecode l) ∧
    ((t.imgValid = s.imgValid ∧ t.riValid = s.riValid) ∨ (∃ w h, i = .imgdesc w h) ∨ i = .imgrel ∨ i = .reiBuild ∨
      (∃ l, i = .cfParse l) ∨ (∃ l, i = .cfDecode l) ∨ i = .cfEncode) ∧
    (t.soutLen = s.soutLen ∨ i = .cfAssemble ∨ i = .cfEncode)

/-- The parameters are fixed per instance and the port is the host's: no instruction changes them (R36, R315; the model
holds them in its state, log 1 and log 2). -/
def Obligations.NoInstructionChangesParametersOrPort : Prop :=
  ∀ (i : Instr) (s t : State), exec i s = .next t → t.params = s.params ∧ t.port = s.port

/-- R61: a command never writes IMG at or beyond `WIDTH * HEIGHT`, the dimensions being those it leaves; from a state that
meets the invariants, and for every command. -/
def Obligations.NothingBeyondTheImageIsWritten : Prop :=
  ∀ (i : Instr) (s t : State), s.Inv → i ≠ .tagWhite → i ≠ .tagBlack → (∀ p q r v, i ≠ .tagLiteral p q r v) →
    exec i s = .next t →
    ∀ a, t.width.toNat * t.height.toNat ≤ a → t.byte .img a = s.byte .img a
end

