-- ==== Sys2Proof/Laws/State.lean ====
section
/-! SUPPORT. What each named update of the state does to each field: one lemma a field, so that no proof unfolds an
update. -/

namespace Sys2Proof
namespace Machine

section Updates
variable (s : State)

/-- Taking an error writes STATUS, RESULT and the response (R285). -/
@[simp] theorem raiseError_eq (c : Cause) : raiseError c s = s.endCommand (causeStatus c) 0#32 := rfl

/-- Returning a value writes STATUS, RESULT and the response (R286). -/
@[simp] theorem returnValue_eq (v : Word32) : returnValue v s = s.endCommand statusOk v := rfl

@[simp] theorem State.respond_params (w : BitVec 16) (v : Word32) : (s.respond w v).params = s.params := rfl
@[simp] theorem State.respond_status (w : BitVec 16) (v : Word32) : (s.respond w v).status = s.status := rfl
@[simp] theorem State.respond_result (w : BitVec 16) (v : Word32) : (s.respond w v).result = s.result := rfl
@[simp] theorem State.respond_width (w : BitVec 16) (v : Word32) : (s.respond w v).width = s.width := rfl
@[simp] theorem State.respond_height (w : BitVec 16) (v : Word32) : (s.respond w v).height = s.height := rfl
@[simp] theorem State.respond_riCount (w : BitVec 16) (v : Word32) : (s.respond w v).riCount = s.riCount := rfl
@[simp] theorem State.respond_bsCount (w : BitVec 16) (v : Word32) : (s.respond w v).bsCount = s.bsCount := rfl
@[simp] theorem State.respond_bwLen (w : BitVec 16) (v : Word32) : (s.respond w v).bwLen = s.bwLen := rfl
@[simp] theorem State.respond_cur (w : BitVec 16) (v : Word32) : (s.respond w v).cur = s.cur := rfl
@[simp] theorem State.respond_bwCursor (w : BitVec 16) (v : Word32) : (s.respond w v).bwCursor = s.bwCursor := rfl
@[simp] theorem State.respond_fin (w : BitVec 16) (v : Word32) : (s.respond w v).fin = s.fin := rfl
@[simp] theorem State.respond_brBase (w : BitVec 16) (v : Word32) : (s.respond w v).brBase = s.brBase := rfl
@[simp] theorem State.respond_brLen (w : BitVec 16) (v : Word32) : (s.respond w v).brLen = s.brLen := rfl
@[simp] theorem State.respond_brIdx (w : BitVec 16) (v : Word32) : (s.respond w v).brIdx = s.brIdx := rfl
@[simp] theorem State.respond_brCursor (w : BitVec 16) (v : Word32) : (s.respond w v).brCursor = s.brCursor := rfl
@[simp] theorem State.respond_imgValid (w : BitVec 16) (v : Word32) : (s.respond w v).imgValid = s.imgValid := rfl
@[simp] theorem State.respond_riValid (w : BitVec 16) (v : Word32) : (s.respond w v).riValid = s.riValid := rfl
@[simp] theorem State.respond_soutLen (w : BitVec 16) (v : Word32) : (s.respond w v).soutLen = s.soutLen := rfl
@[simp] theorem State.respond_img (w : BitVec 16) (v : Word32) : (s.respond w v).img = s.img := rfl
@[simp] theorem State.respond_sin (w : BitVec 16) (v : Word32) : (s.respond w v).sin = s.sin := rfl
@[simp] theorem State.respond_sout (w : BitVec 16) (v : Word32) : (s.respond w v).sout = s.sout := rfl
@[simp] theorem State.respond_wbuf (w : BitVec 16) (v : Word32) : (s.respond w v).wbuf = s.wbuf := rfl
@[simp] theorem State.respond_ribuf (w : BitVec 16) (v : Word32) : (s.respond w v).ribuf = s.ribuf := rfl
@[simp] theorem State.respond_port (w : BitVec 16) (v : Word32) : (s.respond w v).port = s.port := rfl
@[simp] theorem State.respond_responses (w : BitVec 16) (v : Word32) : (s.respond w v).responses = ⟨w, v⟩ :: s.responses := rfl
@[simp] theorem State.respond_tagRow (w : BitVec 16) (v : Word32) : (s.respond w v).tagRow = s.tagRow := rfl
@[simp] theorem State.respond_tagGroup (w : BitVec 16) (v : Word32) : (s.respond w v).tagGroup = s.tagGroup := rfl
@[simp] theorem State.respond_wbufDraws (w : BitVec 16) (v : Word32) : (s.respond w v).wbufDraws = s.wbufDraws := rfl
@[simp] theorem State.respond_draws (w : BitVec 16) (v : Word32) : (s.respond w v).draws = s.draws := rfl
@[simp] theorem State.respond_mem (w : BitVec 16) (v : Word32) (sp : Space) : (s.respond w v).mem sp = s.mem sp := by cases sp <;> rfl
@[simp] theorem State.respond_byte (w : BitVec 16) (v : Word32) (sp : Space) (a : Nat) : (s.respond w v).byte sp a = s.byte sp a := by cases sp <;> rfl

@[simp] theorem State.endCommand_params (w : BitVec 16) (v : Word32) : (s.endCommand w v).params = s.params := rfl
@[simp] theorem State.endCommand_status (w : BitVec 16) (v : Word32) : (s.endCommand w v).status = w := rfl
@[simp] theorem State.endCommand_result (w : BitVec 16) (v : Word32) : (s.endCommand w v).result = v := rfl
@[simp] theorem State.endCommand_width (w : BitVec 16) (v : Word32) : (s.endCommand w v).width = s.width := rfl
@[simp] theorem State.endCommand_height (w : BitVec 16) (v : Word32) : (s.endCommand w v).height = s.height := rfl
@[simp] theorem State.endCommand_riCount (w : BitVec 16) (v : Word32) : (s.endCommand w v).riCount = s.riCount := rfl
@[simp] theorem State.endCommand_bsCount (w : BitVec 16) (v : Word32) : (s.endCommand w v).bsCount = s.bsCount := rfl
@[simp] theorem State.endCommand_bwLen (w : BitVec 16) (v : Word32) : (s.endCommand w v).bwLen = s.bwLen := rfl
@[simp] theorem State.endCommand_cur (w : BitVec 16) (v : Word32) : (s.endCommand w v).cur = s.cur := rfl
@[simp] theorem State.endCommand_bwCursor (w : BitVec 16) (v : Word32) : (s.endCommand w v).bwCursor = s.bwCursor := rfl
@[simp] theorem State.endCommand_fin (w : BitVec 16) (v : Word32) : (s.endCommand w v).fin = s.fin := rfl
@[simp] theorem State.endCommand_brBase (w : BitVec 16) (v : Word32) : (s.endCommand w v).brBase = s.brBase := rfl
@[simp] theorem State.endCommand_brLen (w : BitVec 16) (v : Word32) : (s.endCommand w v).brLen = s.brLen := rfl
@[simp] theorem State.endCommand_brIdx (w : BitVec 16) (v : Word32) : (s.endCommand w v).brIdx = s.brIdx := rfl
@[simp] theorem State.endCommand_brCursor (w : BitVec 16) (v : Word32) : (s.endCommand w v).brCursor = s.brCursor := rfl
@[simp] theorem State.endCommand_imgValid (w : BitVec 16) (v : Word32) : (s.endCommand w v).imgValid = s.imgValid := rfl
@[simp] theorem State.endCommand_riValid (w : BitVec 16) (v : Word32) : (s.endCommand w v).riValid = s.riValid := rfl
@[simp] theorem State.endCommand_soutLen (w : BitVec 16) (v : Word32) : (s.endCommand w v).soutLen = s.soutLen := rfl
@[simp] theorem State.endCommand_img (w : BitVec 16) (v : Word32) : (s.endCommand w v).img = s.img := rfl
@[simp] theorem State.endCommand_sin (w : BitVec 16) (v : Word32) : (s.endCommand w v).sin = s.sin := rfl
@[simp] theorem State.endCommand_sout (w : BitVec 16) (v : Word32) : (s.endCommand w v).sout = s.sout := rfl
@[simp] theorem State.endCommand_wbuf (w : BitVec 16) (v : Word32) : (s.endCommand w v).wbuf = s.wbuf := rfl
@[simp] theorem State.endCommand_ribuf (w : BitVec 16) (v : Word32) : (s.endCommand w v).ribuf = s.ribuf := rfl
@[simp] theorem State.endCommand_port (w : BitVec 16) (v : Word32) : (s.endCommand w v).port = s.port := rfl
@[simp] theorem State.endCommand_responses (w : BitVec 16) (v : Word32) : (s.endCommand w v).responses = ⟨w, v⟩ :: s.responses := rfl
@[simp] theorem State.endCommand_tagRow (w : BitVec 16) (v : Word32) : (s.endCommand w v).tagRow = s.tagRow := rfl
@[simp] theorem State.endCommand_tagGroup (w : BitVec 16) (v : Word32) : (s.endCommand w v).tagGroup = s.tagGroup := rfl
@[simp] theorem State.endCommand_wbufDraws (w : BitVec 16) (v : Word32) : (s.endCommand w v).wbufDraws = s.wbufDraws := rfl
@[simp] theorem State.endCommand_draws (w : BitVec 16) (v : Word32) : (s.endCommand w v).draws = s.draws := rfl
@[simp] theorem State.endCommand_mem (w : BitVec 16) (v : Word32) (sp : Space) : (s.endCommand w v).mem sp = s.mem sp := by cases sp <;> rfl
@[simp] theorem State.endCommand_byte (w : BitVec 16) (v : Word32) (sp : Space) (a : Nat) : (s.endCommand w v).byte sp a = s.byte sp a := by cases sp <;> rfl

@[simp] theorem State.withWriter_params (n : Word32) (c : Byte) (k : BitVec 3) : (s.withWriter n c k).params = s.params := rfl
@[simp] theorem State.withWriter_status (n : Word32) (c : Byte) (k : BitVec 3) : (s.withWriter n c k).status = s.status := rfl
@[simp] theorem State.withWriter_result (n : Word32) (c : Byte) (k : BitVec 3) : (s.withWriter n c k).result = s.result := rfl
@[simp] theorem State.withWriter_width (n : Word32) (c : Byte) (k : BitVec 3) : (s.withWriter n c k).width = s.width := rfl
@[simp] theorem State.withWriter_height (n : Word32) (c : Byte) (k : BitVec 3) : (s.withWriter n c k).height = s.height := rfl
@[simp] theorem State.withWriter_riCount (n : Word32) (c : Byte) (k : BitVec 3) : (s.withWriter n c k).riCount = s.riCount := rfl
@[simp] theorem State.withWriter_bsCount (n : Word32) (c : Byte) (k : BitVec 3) : (s.withWriter n c k).bsCount = s.bsCount := rfl
@[simp] theorem State.withWriter_bwLen (n : Word32) (c : Byte) (k : BitVec 3) : (s.withWriter n c k).bwLen = n := rfl
@[simp] theorem State.withWriter_cur (n : Word32) (c : Byte) (k : BitVec 3) : (s.withWriter n c k).cur = c := rfl
@[simp] theorem State.withWriter_bwCursor (n : Word32) (c : Byte) (k : BitVec 3) : (s.withWriter n c k).bwCursor = k := rfl
@[simp] theorem State.withWriter_fin (n : Word32) (c : Byte) (k : BitVec 3) : (s.withWriter n c k).fin = s.fin := rfl
@[simp] theorem State.withWriter_brBase (n : Word32) (c : Byte) (k : BitVec 3) : (s.withWriter n c k).brBase = s.brBase := rfl
@[simp] theorem State.withWriter_brLen (n : Word32) (c : Byte) (k : BitVec 3) : (s.withWriter n c k).brLen = s.brLen := rfl
@[simp] theorem State.withWriter_brIdx (n : Word32) (c : Byte) (k : BitVec 3) : (s.withWriter n c k).brIdx = s.brIdx := rfl
@[simp] theorem State.withWriter_brCursor (n : Word32) (c : Byte) (k : BitVec 3) : (s.withWriter n c k).brCursor = s.brCursor := rfl
@[simp] theorem State.withWriter_imgValid (n : Word32) (c : Byte) (k : BitVec 3) : (s.withWriter n c k).imgValid = s.imgValid := rfl
@[simp] theorem State.withWriter_riValid (n : Word32) (c : Byte) (k : BitVec 3) : (s.withWriter n c k).riValid = s.riValid := rfl
@[simp] theorem State.withWriter_soutLen (n : Word32) (c : Byte) (k : BitVec 3) : (s.withWriter n c k).soutLen = s.soutLen := rfl
@[simp] theorem State.withWriter_img (n : Word32) (c : Byte) (k : BitVec 3) : (s.withWriter n c k).img = s.img := rfl
@[simp] theorem State.withWriter_sin (n : Word32) (c : Byte) (k : BitVec 3) : (s.withWriter n c k).sin = s.sin := rfl
@[simp] theorem State.withWriter_sout (n : Word32) (c : Byte) (k : BitVec 3) : (s.withWriter n c k).sout = s.sout := rfl
@[simp] theorem State.withWriter_wbuf (n : Word32) (c : Byte) (k : BitVec 3) : (s.withWriter n c k).wbuf = memBelow n.toNat s.wbuf := rfl
@[simp] theorem State.withWriter_ribuf (n : Word32) (c : Byte) (k : BitVec 3) : (s.withWriter n c k).ribuf = s.ribuf := rfl
@[simp] theorem State.withWriter_port (n : Word32) (c : Byte) (k : BitVec 3) : (s.withWriter n c k).port = s.port := rfl
@[simp] theorem State.withWriter_responses (n : Word32) (c : Byte) (k : BitVec 3) : (s.withWriter n c k).responses = s.responses := rfl
@[simp] theorem State.withWriter_tagRow (n : Word32) (c : Byte) (k : BitVec 3) : (s.withWriter n c k).tagRow = s.tagRow := rfl
@[simp] theorem State.withWriter_tagGroup (n : Word32) (c : Byte) (k : BitVec 3) : (s.withWriter n c k).tagGroup = s.tagGroup := rfl
@[simp] theorem State.withWriter_wbufDraws (n : Word32) (c : Byte) (k : BitVec 3) : (s.withWriter n c k).wbufDraws = s.wbufDraws + 1 := rfl
@[simp] theorem State.withWriter_draws (n : Word32) (c : Byte) (k : BitVec 3) : (s.withWriter n c k).draws = s.draws := rfl
/-- The spaces other than WBUF stay. -/
theorem State.withWriter_mem_other (n : Word32) (c : Byte) (k : BitVec 3) {sp : Space} (h : sp ≠ .wbuf) : (s.withWriter n c k).mem sp = s.mem sp := by
  cases sp <;> first | rfl | exact absurd rfl h
/-- The bytes of the spaces other than WBUF stay. -/
theorem State.withWriter_byte_other (n : Word32) (c : Byte) (k : BitVec 3) {sp : Space} (h : sp ≠ .wbuf) (a : Nat) : (s.withWriter n c k).byte sp a = s.byte sp a := by
  cases sp <;> first | rfl | exact absurd rfl h

@[simp] theorem State.withReader_params (i : Word32) (k : BitVec 3) : (s.withReader i k).params = s.params := rfl
@[simp] theorem State.withReader_status (i : Word32) (k : BitVec 3) : (s.withReader i k).status = s.status := rfl
@[simp] theorem State.withReader_result (i : Word32) (k : BitVec 3) : (s.withReader i k).result = s.result := rfl
@[simp] theorem State.withReader_width (i : Word32) (k : BitVec 3) : (s.withReader i k).width = s.width := rfl
@[simp] theorem State.withReader_height (i : Word32) (k : BitVec 3) : (s.withReader i k).height = s.height := rfl
@[simp] theorem State.withReader_riCount (i : Word32) (k : BitVec 3) : (s.withReader i k).riCount = s.riCount := rfl
@[simp] theorem State.withReader_bsCount (i : Word32) (k : BitVec 3) : (s.withReader i k).bsCount = s.bsCount := rfl
@[simp] theorem State.withReader_bwLen (i : Word32) (k : BitVec 3) : (s.withReader i k).bwLen = s.bwLen := rfl
@[simp] theorem State.withReader_cur (i : Word32) (k : BitVec 3) : (s.withReader i k).cur = s.cur := rfl
@[simp] theorem State.withReader_bwCursor (i : Word32) (k : BitVec 3) : (s.withReader i k).bwCursor = s.bwCursor := rfl
@[simp] theorem State.withReader_fin (i : Word32) (k : BitVec 3) : (s.withReader i k).fin = s.fin := rfl
@[simp] theorem State.withReader_brBase (i : Word32) (k : BitVec 3) : (s.withReader i k).brBase = s.brBase := rfl
@[simp] theorem State.withReader_brLen (i : Word32) (k : BitVec 3) : (s.withReader i k).brLen = s.brLen := rfl
@[simp] theorem State.withReader_brIdx (i : Word32) (k : BitVec 3) : (s.withReader i k).brIdx = i := rfl
@[simp] theorem State.withReader_brCursor (i : Word32) (k : BitVec 3) : (s.withReader i k).brCursor = k := rfl
@[simp] theorem State.withReader_imgValid (i : Word32) (k : BitVec 3) : (s.withReader i k).imgValid = s.imgValid := rfl
@[simp] theorem State.withReader_riValid (i : Word32) (k : BitVec 3) : (s.withReader i k).riValid = s.riValid := rfl
@[simp] theorem State.withReader_soutLen (i : Word32) (k : BitVec 3) : (s.withReader i k).soutLen = s.soutLen := rfl
@[simp] theorem State.withReader_img (i : Word32) (k : BitVec 3) : (s.withReader i k).img = s.img := rfl
@[simp] theorem State.withReader_sin (i : Word32) (k : BitVec 3) : (s.withReader i k).sin = s.sin := rfl
@[simp] theorem State.withReader_sout (i : Word32) (k : BitVec 3) : (s.withReader i k).sout = s.sout := rfl
@[simp] theorem State.withReader_wbuf (i : Word32) (k : BitVec 3) : (s.withReader i k).wbuf = s.wbuf := rfl
@[simp] theorem State.withReader_ribuf (i : Word32) (k : BitVec 3) : (s.withReader i k).ribuf = s.ribuf := rfl
@[simp] theorem State.withReader_port (i : Word32) (k : BitVec 3) : (s.withReader i k).port = s.port := rfl
@[simp] theorem State.withReader_responses (i : Word32) (k : BitVec 3) : (s.withReader i k).responses = s.responses := rfl
@[simp] theorem State.withReader_tagRow (i : Word32) (k : BitVec 3) : (s.withReader i k).tagRow = s.tagRow := rfl
@[simp] theorem State.withReader_tagGroup (i : Word32) (k : BitVec 3) : (s.withReader i k).tagGroup = s.tagGroup := rfl
@[simp] theorem State.withReader_wbufDraws (i : Word32) (k : BitVec 3) : (s.withReader i k).wbufDraws = s.wbufDraws := rfl
@[simp] theorem State.withReader_draws (i : Word32) (k : BitVec 3) : (s.withReader i k).draws = s.draws := rfl
@[simp] theorem State.withReader_mem (i : Word32) (k : BitVec 3) (sp : Space) : (s.withReader i k).mem sp = s.mem sp := by cases sp <;> rfl
@[simp] theorem State.withReader_byte (i : Word32) (k : BitVec 3) (sp : Space) (a : Nat) : (s.withReader i k).byte sp a = s.byte sp a := by cases sp <;> rfl

@[simp] theorem State.wrapSlice_params (b n : Word32) : (s.wrapSlice b n).params = s.params := rfl
@[simp] theorem State.wrapSlice_status (b n : Word32) : (s.wrapSlice b n).status = s.status := rfl
@[simp] theorem State.wrapSlice_result (b n : Word32) : (s.wrapSlice b n).result = s.result := rfl
@[simp] theorem State.wrapSlice_width (b n : Word32) : (s.wrapSlice b n).width = s.width := rfl
@[simp] theorem State.wrapSlice_height (b n : Word32) : (s.wrapSlice b n).height = s.height := rfl
@[simp] theorem State.wrapSlice_riCount (b n : Word32) : (s.wrapSlice b n).riCount = s.riCount := rfl
@[simp] theorem State.wrapSlice_bsCount (b n : Word32) : (s.wrapSlice b n).bsCount = s.bsCount := rfl
@[simp] theorem State.wrapSlice_bwLen (b n : Word32) : (s.wrapSlice b n).bwLen = s.bwLen := rfl
@[simp] theorem State.wrapSlice_cur (b n : Word32) : (s.wrapSlice b n).cur = s.cur := rfl
@[simp] theorem State.wrapSlice_bwCursor (b n : Word32) : (s.wrapSlice b n).bwCursor = s.bwCursor := rfl
@[simp] theorem State.wrapSlice_fin (b n : Word32) : (s.wrapSlice b n).fin = s.fin := rfl
@[simp] theorem State.wrapSlice_brBase (b n : Word32) : (s.wrapSlice b n).brBase = b := rfl
@[simp] theorem State.wrapSlice_brLen (b n : Word32) : (s.wrapSlice b n).brLen = n := rfl
@[simp] theorem State.wrapSlice_brIdx (b n : Word32) : (s.wrapSlice b n).brIdx = 0#32 := rfl
@[simp] theorem State.wrapSlice_brCursor (b n : Word32) : (s.wrapSlice b n).brCursor = 0#3 := rfl
@[simp] theorem State.wrapSlice_imgValid (b n : Word32) : (s.wrapSlice b n).imgValid = s.imgValid := rfl
@[simp] theorem State.wrapSlice_riValid (b n : Word32) : (s.wrapSlice b n).riValid = s.riValid := rfl
@[simp] theorem State.wrapSlice_soutLen (b n : Word32) : (s.wrapSlice b n).soutLen = s.soutLen := rfl
@[simp] theorem State.wrapSlice_img (b n : Word32) : (s.wrapSlice b n).img = s.img := rfl
@[simp] theorem State.wrapSlice_sin (b n : Word32) : (s.wrapSlice b n).sin = s.sin := rfl
@[simp] theorem State.wrapSlice_sout (b n : Word32) : (s.wrapSlice b n).sout = s.sout := rfl
@[simp] theorem State.wrapSlice_wbuf (b n : Word32) : (s.wrapSlice b n).wbuf = s.wbuf := rfl
@[simp] theorem State.wrapSlice_ribuf (b n : Word32) : (s.wrapSlice b n).ribuf = s.ribuf := rfl
@[simp] theorem State.wrapSlice_port (b n : Word32) : (s.wrapSlice b n).port = s.port := rfl
@[simp] theorem State.wrapSlice_responses (b n : Word32) : (s.wrapSlice b n).responses = s.responses := rfl
@[simp] theorem State.wrapSlice_tagRow (b n : Word32) : (s.wrapSlice b n).tagRow = s.tagRow := rfl
@[simp] theorem State.wrapSlice_tagGroup (b n : Word32) : (s.wrapSlice b n).tagGroup = s.tagGroup := rfl
@[simp] theorem State.wrapSlice_wbufDraws (b n : Word32) : (s.wrapSlice b n).wbufDraws = s.wbufDraws := rfl
@[simp] theorem State.wrapSlice_draws (b n : Word32) : (s.wrapSlice b n).draws = s.draws := rfl
@[simp] theorem State.wrapSlice_mem (b n : Word32) (sp : Space) : (s.wrapSlice b n).mem sp = s.mem sp := by cases sp <;> rfl
@[simp] theorem State.wrapSlice_byte (b n : Word32) (sp : Space) (a : Nat) : (s.wrapSlice b n).byte sp a = s.byte sp a := by cases sp <;> rfl

@[simp] theorem State.atGroup_params (y g : Word32) : (s.atGroup y g).params = s.params := rfl
@[simp] theorem State.atGroup_status (y g : Word32) : (s.atGroup y g).status = s.status := rfl
@[simp] theorem State.atGroup_result (y g : Word32) : (s.atGroup y g).result = s.result := rfl
@[simp] theorem State.atGroup_width (y g : Word32) : (s.atGroup y g).width = s.width := rfl
@[simp] theorem State.atGroup_height (y g : Word32) : (s.atGroup y g).height = s.height := rfl
@[simp] theorem State.atGroup_riCount (y g : Word32) : (s.atGroup y g).riCount = s.riCount := rfl
@[simp] theorem State.atGroup_bsCount (y g : Word32) : (s.atGroup y g).bsCount = s.bsCount := rfl
@[simp] theorem State.atGroup_bwLen (y g : Word32) : (s.atGroup y g).bwLen = s.bwLen := rfl
@[simp] theorem State.atGroup_cur (y g : Word32) : (s.atGroup y g).cur = s.cur := rfl
@[simp] theorem State.atGroup_bwCursor (y g : Word32) : (s.atGroup y g).bwCursor = s.bwCursor := rfl
@[simp] theorem State.atGroup_fin (y g : Word32) : (s.atGroup y g).fin = s.fin := rfl
@[simp] theorem State.atGroup_brBase (y g : Word32) : (s.atGroup y g).brBase = s.brBase := rfl
@[simp] theorem State.atGroup_brLen (y g : Word32) : (s.atGroup y g).brLen = s.brLen := rfl
@[simp] theorem State.atGroup_brIdx (y g : Word32) : (s.atGroup y g).brIdx = s.brIdx := rfl
@[simp] theorem State.atGroup_brCursor (y g : Word32) : (s.atGroup y g).brCursor = s.brCursor := rfl
@[simp] theorem State.atGroup_imgValid (y g : Word32) : (s.atGroup y g).imgValid = s.imgValid := rfl
@[simp] theorem State.atGroup_riValid (y g : Word32) : (s.atGroup y g).riValid = s.riValid := rfl
@[simp] theorem State.atGroup_soutLen (y g : Word32) : (s.atGroup y g).soutLen = s.soutLen := rfl
@[simp] theorem State.atGroup_img (y g : Word32) : (s.atGroup y g).img = s.img := rfl
@[simp] theorem State.atGroup_sin (y g : Word32) : (s.atGroup y g).sin = s.sin := rfl
@[simp] theorem State.atGroup_sout (y g : Word32) : (s.atGroup y g).sout = s.sout := rfl
@[simp] theorem State.atGroup_wbuf (y g : Word32) : (s.atGroup y g).wbuf = s.wbuf := rfl
@[simp] theorem State.atGroup_ribuf (y g : Word32) : (s.atGroup y g).ribuf = s.ribuf := rfl
@[simp] theorem State.atGroup_port (y g : Word32) : (s.atGroup y g).port = s.port := rfl
@[simp] theorem State.atGroup_responses (y g : Word32) : (s.atGroup y g).responses = s.responses := rfl
@[simp] theorem State.atGroup_tagRow (y g : Word32) : (s.atGroup y g).tagRow = y := rfl
@[simp] theorem State.atGroup_tagGroup (y g : Word32) : (s.atGroup y g).tagGroup = g := rfl
@[simp] theorem State.atGroup_wbufDraws (y g : Word32) : (s.atGroup y g).wbufDraws = s.wbufDraws := rfl
@[simp] theorem State.atGroup_draws (y g : Word32) : (s.atGroup y g).draws = s.draws := rfl
@[simp] theorem State.atGroup_mem (y g : Word32) (sp : Space) : (s.atGroup y g).mem sp = s.mem sp := by cases sp <;> rfl
@[simp] theorem State.atGroup_byte (y g : Word32) (sp : Space) (a : Nat) : (s.atGroup y g).byte sp a = s.byte sp a := by cases sp <;> rfl

@[simp] theorem State.resetRegisters_params : (s.resetRegisters).params = s.params := rfl
@[simp] theorem State.resetRegisters_status : (s.resetRegisters).status = 0#16 := rfl
@[simp] theorem State.resetRegisters_result : (s.resetRegisters).result = 0#32 := rfl
@[simp] theorem State.resetRegisters_width : (s.resetRegisters).width = 0#32 := rfl
@[simp] theorem State.resetRegisters_height : (s.resetRegisters).height = 0#32 := rfl
@[simp] theorem State.resetRegisters_riCount : (s.resetRegisters).riCount = 0#32 := rfl
@[simp] theorem State.resetRegisters_bsCount : (s.resetRegisters).bsCount = 0#32 := rfl
@[simp] theorem State.resetRegisters_bwLen : (s.resetRegisters).bwLen = 0#32 := rfl
@[simp] theorem State.resetRegisters_cur : (s.resetRegisters).cur = 0#8 := rfl
@[simp] theorem State.resetRegisters_bwCursor : (s.resetRegisters).bwCursor = 0#3 := rfl
@[simp] theorem State.resetRegisters_fin : (s.resetRegisters).fin = false := rfl
@[simp] theorem State.resetRegisters_brBase : (s.resetRegisters).brBase = 0#32 := rfl
@[simp] theorem State.resetRegisters_brLen : (s.resetRegisters).brLen = 0#32 := rfl
@[simp] theorem State.resetRegisters_brIdx : (s.resetRegisters).brIdx = 0#32 := rfl
@[simp] theorem State.resetRegisters_brCursor : (s.resetRegisters).brCursor = 0#3 := rfl
@[simp] theorem State.resetRegisters_imgValid : (s.resetRegisters).imgValid = false := rfl
@[simp] theorem State.resetRegisters_riValid : (s.resetRegisters).riValid = false := rfl
@[simp] theorem State.resetRegisters_soutLen : (s.resetRegisters).soutLen = 0#32 := rfl
@[simp] theorem State.resetRegisters_img : (s.resetRegisters).img = s.img := rfl
@[simp] theorem State.resetRegisters_sin : (s.resetRegisters).sin = s.sin := rfl
@[simp] theorem State.resetRegisters_sout : (s.resetRegisters).sout = s.sout := rfl
@[simp] theorem State.resetRegisters_wbuf : (s.resetRegisters).wbuf = s.wbuf := rfl
@[simp] theorem State.resetRegisters_ribuf : (s.resetRegisters).ribuf = s.ribuf := rfl
@[simp] theorem State.resetRegisters_port : (s.resetRegisters).port = s.port := rfl
@[simp] theorem State.resetRegisters_responses : (s.resetRegisters).responses = s.responses := rfl
@[simp] theorem State.resetRegisters_tagRow : (s.resetRegisters).tagRow = s.tagRow := rfl
@[simp] theorem State.resetRegisters_tagGroup : (s.resetRegisters).tagGroup = s.tagGroup := rfl
@[simp] theorem State.resetRegisters_wbufDraws : (s.resetRegisters).wbufDraws = s.wbufDraws := rfl
@[simp] theorem State.resetRegisters_draws : (s.resetRegisters).draws = s.draws := rfl
@[simp] theorem State.resetRegisters_mem (sp : Space) : (s.resetRegisters).mem sp = s.mem sp := by cases sp <;> rfl
@[simp] theorem State.resetRegisters_byte (sp : Space) (a : Nat) : (s.resetRegisters).byte sp a = s.byte sp a := by cases sp <;> rfl

@[simp] theorem State.setMem_params (sp : Space) (m : Memory) : (s.setMem sp m).params = s.params := by cases sp <;> rfl
@[simp] theorem State.setMem_status (sp : Space) (m : Memory) : (s.setMem sp m).status = s.status := by cases sp <;> rfl
@[simp] theorem State.setMem_result (sp : Space) (m : Memory) : (s.setMem sp m).result = s.result := by cases sp <;> rfl
@[simp] theorem State.setMem_width (sp : Space) (m : Memory) : (s.setMem sp m).width = s.width := by cases sp <;> rfl
@[simp] theorem State.setMem_height (sp : Space) (m : Memory) : (s.setMem sp m).height = s.height := by cases sp <;> rfl
@[simp] theorem State.setMem_riCount (sp : Space) (m : Memory) : (s.setMem sp m).riCount = s.riCount := by cases sp <;> rfl
@[simp] theorem State.setMem_bsCount (sp : Space) (m : Memory) : (s.setMem sp m).bsCount = s.bsCount := by cases sp <;> rfl
@[simp] theorem State.setMem_bwLen (sp : Space) (m : Memory) : (s.setMem sp m).bwLen = s.bwLen := by cases sp <;> rfl
@[simp] theorem State.setMem_cur (sp : Space) (m : Memory) : (s.setMem sp m).cur = s.cur := by cases sp <;> rfl
@[simp] theorem State.setMem_bwCursor (sp : Space) (m : Memory) : (s.setMem sp m).bwCursor = s.bwCursor := by cases sp <;> rfl
@[simp] theorem State.setMem_fin (sp : Space) (m : Memory) : (s.setMem sp m).fin = s.fin := by cases sp <;> rfl
@[simp] theorem State.setMem_brBase (sp : Space) (m : Memory) : (s.setMem sp m).brBase = s.brBase := by cases sp <;> rfl
@[simp] theorem State.setMem_brLen (sp : Space) (m : Memory) : (s.setMem sp m).brLen = s.brLen := by cases sp <;> rfl
@[simp] theorem State.setMem_brIdx (sp : Space) (m : Memory) : (s.setMem sp m).brIdx = s.brIdx := by cases sp <;> rfl
@[simp] theorem State.setMem_brCursor (sp : Space) (m : Memory) : (s.setMem sp m).brCursor = s.brCursor := by cases sp <;> rfl
@[simp] theorem State.setMem_imgValid (sp : Space) (m : Memory) : (s.setMem sp m).imgValid = s.imgValid := by cases sp <;> rfl
@[simp] theorem State.setMem_riValid (sp : Space) (m : Memory) : (s.setMem sp m).riValid = s.riValid := by cases sp <;> rfl
@[simp] theorem State.setMem_soutLen (sp : Space) (m : Memory) : (s.setMem sp m).soutLen = s.soutLen := by cases sp <;> rfl
@[simp] theorem State.setMem_port (sp : Space) (m : Memory) : (s.setMem sp m).port = s.port := by cases sp <;> rfl
@[simp] theorem State.setMem_responses (sp : Space) (m : Memory) : (s.setMem sp m).responses = s.responses := by cases sp <;> rfl
@[simp] theorem State.setMem_tagRow (sp : Space) (m : Memory) : (s.setMem sp m).tagRow = s.tagRow := by cases sp <;> rfl
@[simp] theorem State.setMem_tagGroup (sp : Space) (m : Memory) : (s.setMem sp m).tagGroup = s.tagGroup := by cases sp <;> rfl
@[simp] theorem State.setMem_wbufDraws (sp : Space) (m : Memory) : (s.setMem sp m).wbufDraws = s.wbufDraws := by cases sp <;> rfl
@[simp] theorem State.setMem_draws (sp : Space) (m : Memory) : (s.setMem sp m).draws = s.draws := by cases sp <;> rfl
@[simp] theorem State.mem_img : s.mem .img = s.img := rfl
@[simp] theorem State.mem_sin : s.mem .sin = s.sin := rfl
@[simp] theorem State.mem_sout : s.mem .sout = s.sout := rfl
@[simp] theorem State.mem_wbuf : s.mem .wbuf = s.wbuf := rfl
@[simp] theorem State.mem_ribuf : s.mem .ribuf = s.ribuf := rfl

/-- Writing a space changes no free value. -/
@[simp] theorem State.setMem_unlisted (sp sp' : Space) (m : Memory) (a : Nat) :
    (s.setMem sp m).unlisted sp' a = s.unlisted sp' a := by cases sp <;> rfl

/-- The space written holds what was written. -/
@[simp] theorem State.setMem_mem_same (sp : Space) (m : Memory) : (s.setMem sp m).mem sp = m := by cases sp <;> rfl

/-- The spaces are disjoint (R73): the others keep their contents. -/
theorem State.setMem_mem_other {sp sp' : Space} (m : Memory) (h : sp' ≠ sp) : (s.setMem sp m).mem sp' = s.mem sp' := by
  cases sp <;> cases sp' <;> first | rfl | exact absurd rfl h

/-- Writing back what a space holds changes nothing. -/
@[simp] theorem State.setMem_self (sp : Space) : s.setMem sp (s.mem sp) = s := by cases sp <;> rfl

/-- Of two writes of a whole space the later one stands. -/
@[simp] theorem State.setMem_setMem (sp : Space) (m m' : Memory) : (s.setMem sp m).setMem sp m' = s.setMem sp m' := by
  cases sp <;> rfl

end Updates

end Machine
end Sys2Proof
end

