-- ==== Sys2Proof/Laws/Memory.lean ====
section
/-! SUPPORT. The laws of a memory and of the one-byte and many-byte accesses: what is read back, what stays, and that the
canonical form is kept. -/

namespace Sys2Proof
namespace Machine

/-! ### One memory -/

/-- A byte just written reads back. -/
@[simp] theorem memGet_memSet_same (m : Memory) (a : Nat) (v : Byte) : memGet (memSet m a v) a = some v := by
  induction m with
  | nil => simp [memSet, memGet]
  | cons c m ih =>
    obtain ⟨x, w⟩ := c
    simp only [memSet]
    split
    · simp [memGet]
    · split
      · simp [memGet]
      · rename_i _ h
        simp [memGet, Ne.symm h, ih]

/-- Every other address reads as before. -/
theorem memGet_memSet_other (m : Memory) {a b : Nat} (v : Byte) (h : b ≠ a) : memGet (memSet m a v) b = memGet m b := by
  induction m with
  | nil => simp [memSet, memGet, Ne.symm h]
  | cons c m ih =>
    obtain ⟨x, w⟩ := c
    simp only [memSet]
    split
    · simp [memGet, Ne.symm h]
    · split
      · rename_i _ hx
        subst hx
        simp [memGet, Ne.symm h]
      · simp [memGet, ih]

/-- A memory that rises from an address rises from any lower one. -/
theorem Memory.risesFrom_mono {a b : Nat} {m : Memory} (hab : a ≤ b) (h : Memory.risesFrom b m = true) :
    Memory.risesFrom a m = true := by
  cases m with
  | nil => rfl
  | cons c m =>
    simp only [Memory.risesFrom, Bool.and_eq_true, decide_eq_true_eq] at h ⊢
    exact ⟨by omega, h.2⟩

/-- A write above a bound keeps a memory rising from it. -/
theorem Memory.risesFrom_memSet {b a : Nat} {m : Memory} (v : Byte) (hb : b < a) (h : Memory.risesFrom b m = true) :
    Memory.risesFrom b (memSet m a v) = true := by
  induction m generalizing b with
  | nil => simpa [memSet, Memory.risesFrom] using hb
  | cons c m ih =>
    obtain ⟨x, w⟩ := c
    simp only [Memory.risesFrom, Bool.and_eq_true, decide_eq_true_eq] at h
    simp only [memSet]
    split
    · simpa [Memory.risesFrom, hb, h.2]
    · split
      · rename_i _ hx
        subst hx
        simpa [Memory.risesFrom, hb] using h.2
      · simpa [Memory.risesFrom, h.1] using ih (by omega) h.2

/-- A write keeps the canonical form. -/
theorem memSet_wf {m : Memory} (a : Nat) (v : Byte) (h : m.wf = true) : Memory.wf (memSet m a v) = true := by
  cases m with
  | nil => rfl
  | cons c m =>
    obtain ⟨x, w⟩ := c
    simp only [Memory.wf] at h
    simp only [memSet]
    split
    · simpa [Memory.wf, Memory.risesFrom, h]
    · split
      · rename_i _ hx
        subst hx
        exact h
      · exact Memory.risesFrom_memSet v (by omega) h

/-- A write inside a space keeps every listed address inside it. -/
theorem memSet_within {cap : Nat} {m : Memory} {a : Nat} (v : Byte) (ha : a < cap) (h : m.within cap = true) :
    Memory.within cap (memSet m a v) = true := by
  induction m with
  | nil => simpa [memSet, Memory.within] using ha
  | cons c m ih =>
    obtain ⟨x, w⟩ := c
    simp only [Memory.within, List.all_cons, Bool.and_eq_true, decide_eq_true_eq] at h ih ⊢
    simp only [memSet]
    split
    · simpa [ha] using h
    · split
      · simpa [ha] using h.2
      · simpa [h.1] using ih h.2

/-- The first entry stays when it is below the bound. -/
theorem memBelow_cons (n : Nat) (c : Host.Cell) (m : Memory) :
    memBelow n (c :: m) = if c.1 < n then c :: memBelow n m else memBelow n m := by
  simp [memBelow, List.filter_cons]

/-- What is below the bound reads as before, and nothing else is listed. -/
@[simp] theorem memGet_memBelow (n : Nat) (m : Memory) (a : Nat) :
    memGet (memBelow n m) a = if a < n then memGet m a else none := by
  induction m with
  | nil => simp [memBelow, memGet]
  | cons c m ih =>
    obtain ⟨x, w⟩ := c
    rw [memBelow_cons]
    by_cases ha : x = a
    · subst ha; by_cases hx : x < n <;> simp [hx, memGet, ih]
    · by_cases hx : x < n <;> simp [hx, memGet, ha, ih]

/-- A memory that rises from an address is in its canonical form. -/
theorem Memory.wf_of_risesFrom {a : Nat} {m : Memory} (h : Memory.risesFrom a m = true) : m.wf = true := by
  cases m with
  | nil => rfl
  | cons c m => simp only [Memory.risesFrom, Bool.and_eq_true] at h; exact h.2

/-- Dropping entries keeps a memory rising. -/
theorem Memory.risesFrom_memBelow {a n : Nat} {m : Memory} (h : Memory.risesFrom a m = true) :
    Memory.risesFrom a (memBelow n m) = true := by
  induction m generalizing a with
  | nil => rfl
  | cons c m ih =>
    obtain ⟨x, w⟩ := c
    simp only [Memory.risesFrom, Bool.and_eq_true, decide_eq_true_eq] at h
    rw [memBelow_cons]
    split
    · simpa [Memory.risesFrom, h.1] using ih h.2
    · exact ih (Memory.risesFrom_mono (by omega) h.2)

/-- Dropping entries keeps the canonical form. -/
theorem memBelow_wf {n : Nat} {m : Memory} (h : m.wf = true) : Memory.wf (memBelow n m) = true := by
  cases m with
  | nil => rfl
  | cons c m =>
    obtain ⟨x, w⟩ := c
    simp only [Memory.wf] at h
    rw [memBelow_cons]
    split
    · exact Memory.risesFrom_memBelow h
    · exact Memory.wf_of_risesFrom (Memory.risesFrom_memBelow h)

/-- Dropping entries keeps every listed address inside a space. -/
theorem memBelow_within {cap n : Nat} {m : Memory} (h : m.within cap = true) : Memory.within cap (memBelow n m) = true := by
  simp only [Memory.within, List.all_eq_true, memBelow, List.mem_filter] at h ⊢
  exact fun c hc => h c hc.1

/-- The bytes the model itself places keep the canonical form. -/
theorem sinWith_wf (a : Nat) (bs : List Byte) {m : Memory} (h : m.wf = true) : Memory.wf (sinWith a bs m) = true := by
  induction bs generalizing a with
  | nil => exact h
  | cons b bs ih => exact memSet_wf a b (ih (a + 1))

/-! ### The spaces of a state -/

/-- Every memory of the state is in its canonical form. -/
def State.memWf (s : State) : Prop := ∀ sp, (s.mem sp).wf = true

/-- A change of the writer keeps every byte of WBUF that is listed below the new BW_LEN. -/
theorem State.withWriter_byte_wbuf (s : State) (n : Word32) (c : Byte) (k : BitVec 3) {a : Nat} (ha : a < n.toNat)
    (h : (memGet s.wbuf a).isSome = true) : (s.withWriter n c k).byte .wbuf a = s.byte .wbuf a := by
  obtain ⟨v, hv⟩ := Option.isSome_iff_exists.mp h
  simp [State.byte, ha, hv]

/-- A change of the writer keeps every memory in its canonical form. -/
theorem State.memWf_withWriter {s : State} (n : Word32) (c : Byte) (k : BitVec 3) (h : s.memWf) :
    (s.withWriter n c k).memWf := by
  intro sp
  by_cases e : sp = .wbuf
  · subst e; exact memBelow_wf (h .wbuf)
  · rw [State.withWriter_mem_other s n c k e]; exact h sp

/-- Reset memory is in its canonical form. -/
theorem reset_memWf (p : Params) : (State.resetWith p).memWf := by intro sp; cases sp <;> rfl

/-- Replacing one space by a memory in canonical form keeps the form. -/
theorem State.memWf_setMem {s : State} {sp : Space} {m : Memory} (h : s.memWf) (hm : m.wf = true) :
    (s.setMem sp m).memWf := by
  intro sp'
  by_cases e : sp' = sp
  · subst e; simpa using hm
  · rw [State.setMem_mem_other s m e]; exact h sp'

/-- A byte just written reads back. -/
@[simp] theorem State.byte_setMem_memSet_same (s : State) (sp : Space) (a : Nat) (v : Byte) :
    (s.setMem sp (memSet (s.mem sp) a v)).byte sp a = v := by simp [State.byte]

/-- Every other location reads as before. -/
theorem State.byte_setMem_memSet_other (s : State) {sp sp' : Space} {a b : Nat} (v : Byte) (h : sp' ≠ sp ∨ b ≠ a) :
    (s.setMem sp (memSet (s.mem sp) a v)).byte sp' b = s.byte sp' b := by
  by_cases e : sp' = sp
  · subst e
    have hb : b ≠ a := by simpa using h
    simp [State.byte, memGet_memSet_other _ v hb]
  · simp [State.byte, State.setMem_mem_other s _ e]

/-- What one read can do: inside the space it gives the byte and changes nothing, outside it faults. -/
theorem memRead_cases (sp : Space) (a : Nat) (s : State) :
    (a < s.params.cap sp ∧ memRead sp a s = .ok (s.byte sp a) s) ∨
    (s.params.cap sp ≤ a ∧ memRead sp a s = .fault (.outsideSpace sp a)) := by
  unfold memRead
  split
  · exact .inl ⟨‹_›, rfl⟩
  · exact .inr ⟨by omega, rfl⟩

/-- A read inside the space. -/
theorem memRead_inside {sp : Space} {a : Nat} {s : State} (h : a < s.params.cap sp) :
    memRead sp a s = .ok (s.byte sp a) s := if_pos h

/-- What one write can do: inside the space it replaces the byte, outside it faults. -/
theorem memWrite_cases (sp : Space) (a : Nat) (v : Byte) (s : State) :
    (a < s.params.cap sp ∧ memWrite sp a v s = .ok () (s.setMem sp (memSet (s.mem sp) a v))) ∨
    (s.params.cap sp ≤ a ∧ memWrite sp a v s = .fault (.outsideSpace sp a)) := by
  unfold memWrite
  split
  · exact .inl ⟨‹_›, rfl⟩
  · exact .inr ⟨by omega, rfl⟩

/-- A write inside the space. -/
theorem memWrite_inside {sp : Space} {a : Nat} {s : State} (v : Byte) (h : a < s.params.cap sp) :
    memWrite sp a v s = .ok () (s.setMem sp (memSet (s.mem sp) a v)) := if_pos h

/-- The bytes from an address up, first byte apart. -/
theorem State.bytes_succ (s : State) (sp : Space) (a n : Nat) :
    s.bytes sp a (n + 1) = s.byte sp a :: s.bytes sp (a + 1) n := by
  simp [State.bytes, List.range_succ_eq_map, Function.comp_def, Nat.add_comm, Nat.add_left_comm]

/-- As many bytes as asked for. -/
@[simp] theorem State.bytes_length (s : State) (sp : Space) (a n : Nat) : (s.bytes sp a n).length = n := by
  simp [State.bytes]

/-- Reading inside the space gives the bytes and changes nothing. -/
theorem memReadBytes_inside {sp : Space} {n a : Nat} {s : State} (h : a + n ≤ s.params.cap sp) :
    memReadBytes sp n a s = .ok (s.bytes sp a n) s := by
  induction n generalizing a with
  | zero => rfl
  | succ n ih =>
    rw [memReadBytes, memRead_inside (by omega)]
    simp only [Res.bind]
    rw [ih (by omega), State.bytes_succ]

/-- A successful read changes nothing. -/
theorem memReadBytes_ok {sp : Space} {n a : Nat} {s t : State} {bs : List Byte}
    (h : memReadBytes sp n a s = .ok bs t) : t = s ∧ bs = s.bytes sp a n := by
  induction n generalizing a bs s t with
  | zero => simp [memReadBytes] at h; exact ⟨h.2.symm, h.1.trans rfl⟩
  | succ n ih =>
    rw [memReadBytes] at h
    rcases memRead_cases sp a s with ⟨_, e⟩ | ⟨_, e⟩
    · rw [e] at h
      simp only [Res.bind] at h
      cases e1 : memReadBytes sp n (a + 1) s with
      | ok bs' t' =>
        rw [e1] at h
        obtain ⟨rfl, rfl⟩ := ih e1
        simp only [Res.ok.injEq] at h
        exact ⟨h.2.symm, by rw [← h.1, State.bytes_succ]⟩
      | raise c t' => rw [e1] at h; simp at h
      | fault f => rw [e1] at h; simp at h
    · rw [e] at h; simp [Res.bind] at h

/-- The memory after writing bytes from `a` up. -/
def memSetBytes : Nat → List Byte → Memory → Memory
  | _, [], m => m
  | a, b :: bs, m => memSetBytes (a + 1) bs (memSet m a b)

/-- Writing inside the space replaces the memory and nothing else. -/
theorem memWriteBytes_inside {sp : Space} {a : Nat} {bs : List Byte} {s : State} (h : a + bs.length ≤ s.params.cap sp) :
    memWriteBytes sp a bs s = .ok () (s.setMem sp (memSetBytes a bs (s.mem sp))) := by
  induction bs generalizing a s with
  | nil => simp [memWriteBytes, memSetBytes]
  | cons b bs ih =>
    simp only [List.length_cons] at h
    rw [memWriteBytes, memWrite_inside b (by omega)]
    simp only [Res.bind]
    rw [ih (by simpa using (by omega : a + 1 + bs.length ≤ s.params.cap sp))]
    simp [memSetBytes]

/-- What a run of writes can do: it replaces the memory, each byte inside the space, or it faults; it never raises. -/
theorem memWriteBytes_cases (sp : Space) (a : Nat) (bs : List Byte) (s : State) :
    (memWriteBytes sp a bs s = .ok () (s.setMem sp (memSetBytes a bs (s.mem sp))) ∧
      (bs = [] ∨ a + bs.length ≤ s.params.cap sp)) ∨
    ∃ f, memWriteBytes sp a bs s = .fault f := by
  induction bs generalizing a s with
  | nil => exact .inl ⟨by simp [memWriteBytes, memSetBytes], .inl rfl⟩
  | cons b bs ih =>
    rw [memWriteBytes]
    rcases memWrite_cases sp a b s with ⟨ha, e⟩ | ⟨_, e⟩
    · rw [e]
      simp only [Res.bind]
      rcases ih (a + 1) (s.setMem sp (memSet (s.mem sp) a b)) with ⟨e1, h1⟩ | ⟨f, e1⟩
      · refine .inl ⟨by rw [e1]; simp [memSetBytes], .inr ?_⟩
        rcases h1 with rfl | h1
        · simpa using ha
        · simp only [State.setMem_params, List.length_cons] at h1 ⊢; omega
      · exact .inr ⟨f, e1⟩
    · rw [e]; exact .inr ⟨_, rfl⟩

/-- The bytes written read back, and every other location reads as before. -/
theorem memGet_memSetBytes (a : Nat) (bs : List Byte) (m : Memory) (x : Nat) :
    memGet (memSetBytes a bs m) x = if a ≤ x ∧ x < a + bs.length then bs[x - a]? else memGet m x := by
  induction bs generalizing a m with
  | nil => rw [memSetBytes, if_neg (by simp)]
  | cons b bs ih =>
    rw [memSetBytes, ih]
    by_cases hx : x = a
    · subst hx
      simp
    · rw [memGet_memSet_other m b hx]
      by_cases h : a + 1 ≤ x ∧ x < a + 1 + bs.length
      · rw [if_pos h, if_pos (by simp only [List.length_cons]; omega)]
        rw [show x - a = (x - (a + 1)) + 1 by omega, List.getElem?_cons_succ]
      · rw [if_neg h, if_neg (by simp only [List.length_cons]; omega)]

/-- Writing bytes keeps the canonical form. -/
theorem memSetBytes_wf (a : Nat) (bs : List Byte) {m : Memory} (h : m.wf = true) :
    Memory.wf (memSetBytes a bs m) = true := by
  induction bs generalizing a m with
  | nil => exact h
  | cons b bs ih => exact ih (a + 1) (memSet_wf a b h)

/-- Writing bytes inside a space keeps every listed address inside it. -/
theorem memSetBytes_within {cap a : Nat} (bs : List Byte) {m : Memory} (hb : bs = [] ∨ a + bs.length ≤ cap)
    (h : m.within cap = true) : Memory.within cap (memSetBytes a bs m) = true := by
  induction bs generalizing a m with
  | nil => exact h
  | cons b bs ih =>
    simp only [reduceCtorEq, false_or, List.length_cons] at hb
    exact ih (.inr (by omega)) (memSet_within b (by omega) h)

/-- One write keeps every memory in its canonical form. -/
theorem memWrite_memWf {sp : Space} {a : Nat} {v : Byte} {s t : State} (h : s.memWf) (e : memWrite sp a v s = .ok () t) :
    t.memWf := by
  rcases memWrite_cases sp a v s with ⟨_, e1⟩ | ⟨_, e1⟩
  · rw [e1] at e
    simp only [Res.ok.injEq, true_and] at e
    exact e ▸ State.memWf_setMem h (memSet_wf a v (h sp))
  · rw [e1] at e; simp at e

/-- A run of writes keeps every memory in its canonical form. -/
theorem memWriteBytes_memWf {sp : Space} {a : Nat} {bs : List Byte} {s t : State} (h : s.memWf)
    (e : memWriteBytes sp a bs s = .ok () t) : t.memWf := by
  rcases memWriteBytes_cases sp a bs s with ⟨e1, _⟩ | ⟨f, e1⟩
  · rw [e1] at e
    simp only [Res.ok.injEq, true_and] at e
    exact e ▸ State.memWf_setMem h (memSetBytes_wf a bs (h sp))
  · rw [e1] at e; simp at e

/-- Leaving bytes of IMG unspecified keeps every memory in its canonical form. -/
theorem unspecifyImg_memWf {a n : Nat} {s t : State} (h : s.memWf) (e : unspecifyImg a n s = .ok () t) : t.memWf :=
  memWriteBytes_memWf (s := { s with draws := s.draws + 1 }) (fun sp => by have := h sp; cases sp <;> exact this) e

/-- The host's copy keeps every memory in its canonical form. -/
theorem hostCopySout_memWf {src dst len : Nat} {s t : State} (h : s.memWf) (e : hostCopySout src dst len s = .ok () t) :
    t.memWf := by
  unfold hostCopySout at e
  cases e1 : memReadBytes .sout len src s with
  | ok bs s' =>
    rw [e1] at e
    obtain ⟨rfl, -⟩ := memReadBytes_ok e1
    exact memWriteBytes_memWf h e
  | raise c s' => rw [e1] at e; simp [Res.bind] at e
  | fault f => rw [e1] at e; simp [Res.bind] at e

end Machine
end Sys2Proof
end

