-- ==== Sys2Proof/Laws/Ops.lean ====
section
/-! SUPPORT. For each shared operation, once, everything it can do; later proofs cite these and do not unfold it. -/

namespace Sys2Proof
namespace Machine

/-! ### Sequencing -/

@[simp] theorem Res.bind_ok {α β : Type} (a : α) (s : State) (k : α → State → Res β) : (Res.ok a s).bind k = k a s := rfl

@[simp] theorem Res.bind_raise {α β : Type} (c : Cause) (s : State) (k : α → State → Res β) :
    (Res.raise c s : Res α).bind k = .raise c s := rfl

@[simp] theorem Res.bind_fault {α β : Type} (f : Fault) (k : α → State → Res β) :
    (Res.fault f : Res α).bind k = .fault f := rfl

/-- A sequence ends normally exactly when both parts do. -/
theorem Res.bind_eq_ok {α β : Type} {r : Res α} {k : α → State → Res β} {b : β} {t : State} :
    r.bind k = .ok b t ↔ ∃ a s, r = .ok a s ∧ k a s = .ok b t := by
  cases r <;> simp

/-- A sequence raises exactly when its first part does, or its first part ends and the second raises. -/
theorem Res.bind_eq_raise {α β : Type} {r : Res α} {k : α → State → Res β} {c : Cause} {t : State} :
    r.bind k = .raise c t ↔ r = .raise c t ∨ ∃ a s, r = .ok a s ∧ k a s = .raise c t := by
  cases r <;> simp

/-- A sequence faults exactly when its first part does, or its first part ends and the second faults. -/
theorem Res.bind_eq_fault {α β : Type} {r : Res α} {k : α → State → Res β} {f : Fault} :
    r.bind k = .fault f ↔ r = .fault f ∨ ∃ a s, r = .ok a s ∧ k a s = .fault f := by
  cases r <;> simp

@[simp] theorem Res.onRaise_ok {α : Type} (a : α) (s : State) (h : State → Res Unit) :
    (Res.ok a s).onRaise h = .ok a s := rfl

@[simp] theorem Res.onRaise_raise {α : Type} (c : Cause) (s : State) (h : State → Res Unit) :
    (Res.raise c s : Res α).onRaise h = (h s).bind fun _ s' => .raise c s' := rfl

@[simp] theorem Res.onRaise_fault {α : Type} (f : Fault) (h : State → Res Unit) :
    (Res.fault f : Res α).onRaise h = .fault f := rfl

/-- Handling a raise does not change a normal end. -/
theorem Res.onRaise_eq_ok {α : Type} {r : Res α} {h : State → Res Unit} {a : α} {t : State} :
    r.onRaise h = .ok a t ↔ r = .ok a t := by
  cases r with
  | ok b s => simp
  | raise c s => cases e : h s <;> simp [e]
  | fault f => simp

/-- A check raises its cause when it holds and does nothing when it does not. -/
theorem raiseIf_true (c : Cause) (s : State) : raiseIf true c s = .raise c s := rfl

/-- A check that does not hold does nothing. -/
theorem raiseIf_false (c : Cause) (s : State) : raiseIf false c s = .ok () s := rfl

/-- After a check the rest runs on the same state, and only if the check does not hold. -/
@[simp] theorem raiseIf_bind {β : Type} (b : Bool) (c : Cause) (s : State) (k : Unit → State → Res β) :
    (raiseIf b c s).bind k = if b = true then .raise c s else k () s := by cases b <;> rfl

/-! ### The end of a command -/

@[simp] theorem complete_ok (v : Word32) (s : State) : complete (.ok v s) = .next (s.endCommand statusOk v) := rfl

@[simp] theorem complete_raise (c : Cause) (s : State) :
    complete (.raise c s) = .next (s.endCommand (causeStatus c) 0#32) := rfl

@[simp] theorem complete_fault (f : Fault) : complete (.fault f) = .fault f := rfl

/-- A command that ends has either returned a value or raised a cause (R285, R286). -/
theorem complete_next {r : Res Word32} {t : State} (h : complete r = .next t) :
    (∃ v s, r = .ok v s ∧ t = s.endCommand statusOk v) ∨
    ∃ c s, r = .raise c s ∧ t = s.endCommand (causeStatus c) 0#32 := by
  cases r with
  | ok v s => exact .inl ⟨v, s, rfl, by simpa using h.symm⟩
  | raise c s => exact .inr ⟨c, s, rfl, by simpa using h.symm⟩
  | fault f => simp at h

/-! ### Loops -/

@[simp] theorem forLoop_zero (body : Nat → State → Res Unit) (i : Nat) (s : State) : forLoop body 0 i s = .ok () s := rfl

theorem forLoop_succ (body : Nat → State → Res Unit) (k i : Nat) (s : State) :
    forLoop body (k + 1) i s = (body i s).bind fun _ s' => forLoop body k (i + 1) s' := rfl

/-- A loop whose every turn ends and carries `P` from its index to the next ends, and carries `P` from its first index to
the one after its last. -/
theorem forLoop_ok {body : Nat → State → Res Unit} {P : Nat → State → Prop} {k i : Nat} {s : State} (h0 : P i s)
    (h : ∀ j s, i ≤ j → j < i + k → P j s → ∃ t, body j s = .ok () t ∧ P (j + 1) t) :
    ∃ t, forLoop body k i s = .ok () t ∧ P (i + k) t := by
  induction k generalizing i s with
  | zero => exact ⟨s, rfl, h0⟩
  | succ k ih =>
    obtain ⟨t, e, ht⟩ := h i s (le_refl i) (by omega) h0
    obtain ⟨u, e', hu⟩ := ih ht fun j s hj hjk => h j s (by omega) (by omega)
    exact ⟨u, by rw [forLoop_succ, e]; exact e', by rwa [show i + (k + 1) = i + 1 + k by omega]⟩

/-- A loop each of whose turns keeps `P`, however it ends, keeps `P` however it ends, and every cause it raises is one a
turn raises. -/
theorem forLoop_keeps {body : Nat → State → Res Unit} {P : State → Prop} {Q : Cause → State → Prop}
    (hok : ∀ j s t, P s → body j s = .ok () t → P t) (hraise : ∀ j s c t, P s → body j s = .raise c t → Q c t)
    {k i : Nat} {s : State} (h : P s) :
    (∀ t, forLoop body k i s = .ok () t → P t) ∧ ∀ c t, forLoop body k i s = .raise c t → Q c t := by
  induction k generalizing i s with
  | zero => exact ⟨fun t e => by simp at e; exact e ▸ h, fun c t e => by simp at e⟩
  | succ k ih =>
    constructor
    · intro t e
      rw [forLoop_succ, Res.bind_eq_ok] at e
      obtain ⟨_, s', e1, e2⟩ := e
      exact (ih (hok i s s' h e1)).1 t e2
    · intro c t e
      rw [forLoop_succ, Res.bind_eq_raise] at e
      rcases e with e | ⟨_, s', e1, e2⟩
      · exact hraise i s c t h e
      · exact (ih (hok i s s' h e1)).2 c t e2

/-! ### The Bit Writer -/

/-- `bw_room(k)` raises WriterCapacity when the bits do not fit, and otherwise does nothing (R120). -/
theorem bwRoom_cases (k : Nat) (s : State) :
    (s.params.wbufCap < ceilDiv (s.nbits + k) 8 ∧ bwRoom k s = .raise .writerCapacity s) ∨
    (ceilDiv (s.nbits + k) 8 ≤ s.params.wbufCap ∧ bwRoom k s = .ok () s) := by
  unfold bwRoom raiseIf
  by_cases h : s.params.wbufCap < ceilDiv (s.nbits + k) 8
  · exact .inl ⟨h, by simp [h]⟩
  · exact .inr ⟨by omega, by simp [h]⟩

/-- `bw_emit(b)` either moves the cursor on, or completes a byte of WBUF, or faults outside WBUF (R121). -/
theorem bwEmit_cases (b : Bool) (s : State) :
    (s.bwCursor ≠ 7#3 ∧ bwEmit b s = .ok () (s.withWriter s.bwLen (s.curWith b) (s.bwCursor + 1#3))) ∨
    (s.bwCursor = 7#3 ∧ s.bwLen.toNat < s.params.wbufCap ∧
      bwEmit b s = .ok () ((s.setMem .wbuf (memSet s.wbuf s.bwLen.toNat (s.curWith b))).withWriter (s.bwLen + 1#32) 0#8 0#3)) ∨
    (s.bwCursor = 7#3 ∧ s.params.wbufCap ≤ s.bwLen.toNat ∧ bwEmit b s = .fault (.outsideSpace .wbuf s.bwLen.toNat)) := by
  by_cases h : s.bwCursor = 7#3
  · rcases memWrite_cases .wbuf s.bwLen.toNat (s.curWith b) s with ⟨hc, e⟩ | ⟨hc, e⟩
    · exact .inr (.inl ⟨h, hc, by simp [bwEmit, h, e]⟩)
    · exact .inr (.inr ⟨h, hc, by simp [bwEmit, h, e]⟩)
  · exact .inl ⟨h, by simp [bwEmit, h]⟩

/-- Emitting bits writes the writer's state and WBUF and nothing else (R121). -/
theorem bwEmitAll_frame {bs : List Bool} {s t : State} (h : bwEmitAll bs s = .ok () t) :
    t = { s with wbuf := t.wbuf, wbufDraws := t.wbufDraws, bwLen := t.bwLen, cur := t.cur, bwCursor := t.bwCursor } := by
  induction bs generalizing s with
  | nil => simp [bwEmitAll] at h; subst h; rfl
  | cons b bs ih =>
    rw [bwEmitAll, Res.bind_eq_ok] at h
    obtain ⟨_, s', e, h⟩ := h
    have h' := ih h
    rcases bwEmit_cases b s with ⟨_, e1⟩ | ⟨_, _, e1⟩ | ⟨_, _, e1⟩ <;> rw [e1] at e <;>
      simp only [Res.ok.injEq, true_and, reduceCtorEq] at e
    · subst e; exact h'
    · subst e; exact h'

/-- Emitting never raises: the only checks of a put stand before it (R128). -/
theorem bwEmitAll_noRaise (bs : List Bool) (s : State) (c : Cause) (t : State) : bwEmitAll bs s ≠ .raise c t := by
  induction bs generalizing s with
  | nil => simp [bwEmitAll]
  | cons b bs ih =>
    rw [bwEmitAll]
    rcases bwEmit_cases b s with ⟨_, e⟩ | ⟨_, _, e⟩ | ⟨_, _, e⟩ <;> simp [e, ih]

/-- A put that raises changes nothing (R128). -/
theorem bwPut_raise {bs : List Bool} {s t : State} {c : Cause} (h : bwPut bs s = .raise c t) :
    c = .writerCapacity ∧ t = s ∧ s.params.wbufCap < ceilDiv (s.nbits + bs.length) 8 := by
  unfold bwPut at h
  rcases bwRoom_cases bs.length s with ⟨hr, e⟩ | ⟨_, e⟩ <;> rw [e] at h
  · simp only [Res.bind_raise, Res.raise.injEq] at h; exact ⟨h.1.symm, h.2.symm, hr⟩
  · exact absurd h (bwEmitAll_noRaise bs s c t)

/-! ### The Bit Reader -/

/-- `br_take()` raises OutOfData at the end of the slice and then changes nothing; else it gives a bit of SIN and moves
the reader one bit on; or it faults outside SIN (R140). -/
theorem brTake_cases (s : State) :
    (s.brLen.toNat ≤ s.brIdx.toNat ∧ brTake s = .raise .outOfData s) ∨
    (s.brIdx.toNat < s.brLen.toNat ∧ s.brBase.toNat + s.brIdx.toNat < s.params.sinCap ∧
      brTake s =
        .ok ((s.byte .sin (s.brBase.toNat + s.brIdx.toNat)).getLsbD (7 - s.brCursor.toNat)) s.advanceReader) ∨
    (s.brIdx.toNat < s.brLen.toNat ∧ s.params.sinCap ≤ s.brBase.toNat + s.brIdx.toNat ∧
      brTake s = .fault (.outsideSpace .sin (s.brBase.toNat + s.brIdx.toNat))) := by
  by_cases h : s.brLen.toNat ≤ s.brIdx.toNat
  · exact .inl ⟨h, by simp [brTake, h]⟩
  · rcases memRead_cases .sin (s.brBase.toNat + s.brIdx.toNat) s with ⟨hc, e⟩ | ⟨hc, e⟩
    · exact .inr (.inl ⟨by omega, hc, by simp [brTake, h, e]⟩)
    · exact .inr (.inr ⟨by omega, hc, by simp [brTake, h, e]⟩)

/-- The reader moves and nothing else changes. -/
theorem advanceReader_frame (s : State) :
    s.advanceReader = { s with brIdx := s.advanceReader.brIdx, brCursor := s.advanceReader.brCursor } := by
  unfold State.advanceReader; split <;> rfl

/-- Reading bits moves the reader and changes nothing else, also when it raises (R143). -/
theorem brTakeBits_frame {w k : Nat} {v : BitVec w} {s : State} :
    (∀ r t, brTakeBits k v s = .ok r t → t = { s with brIdx := t.brIdx, brCursor := t.brCursor }) ∧
    ∀ c t, brTakeBits k v s = .raise c t →
      c = .outOfData ∧ t.brLen.toNat ≤ t.brIdx.toNat ∧ t = { s with brIdx := t.brIdx, brCursor := t.brCursor } := by
  induction k generalizing v s with
  | zero =>
    refine ⟨fun r t e => ?_, fun c t e => by simp [brTakeBits] at e⟩
    simp only [brTakeBits, Res.ok.injEq] at e
    rw [← e.2]
  | succ k ih =>
    rcases brTake_cases s with ⟨h, e⟩ | ⟨_, _, e⟩ | ⟨_, _, e⟩
    · refine ⟨fun r t e1 => by simp [brTakeBits, e] at e1, fun c t e1 => ?_⟩
      simp only [brTakeBits, e, Res.bind_raise, Res.raise.injEq] at e1
      obtain ⟨rfl, rfl⟩ := e1
      exact ⟨rfl, h, rfl⟩
    · have hf := advanceReader_frame s
      refine ⟨fun r t e1 => ?_, fun c t e1 => ?_⟩
      · simp only [brTakeBits, e, Res.bind_ok] at e1
        have := ih.1 r t e1
        rw [this, hf]
      · simp only [brTakeBits, e, Res.bind_ok] at e1
        obtain ⟨h1, h2, h3⟩ := ih.2 c t e1
        exact ⟨h1, h2, by rw [h3, hf]⟩
    · exact ⟨fun r t e1 => by simp [brTakeBits, e] at e1, fun c t e1 => by simp [brTakeBits, e] at e1⟩

/-! ### The step -/

/-- What a step can do: idle, one command, or one thing the host does to a space. -/
theorem step_cases (s : State) :
    (s.port = [] ∧ step s = .next s) ∨
    (∃ w rest, s.port = .command w :: rest ∧ step s = runCommand w { s with port := rest }) ∨
    (∃ a bs rest, s.port = .writeImg a bs :: rest ∧
      step s = hostOutcome (memWriteBytes .img a bs { s with port := rest })) ∨
    (∃ a bs rest, s.port = .writeSin a bs :: rest ∧
      step s = hostOutcome (memWriteBytes .sin a bs { s with port := rest })) ∨
    ∃ src dst len rest, s.port = .copySout src dst len :: rest ∧
      step s = hostOutcome (hostCopySout src dst len { s with port := rest }) := by
  rcases h : s.port with _ | ⟨_ | _ | _ | _, rest⟩ <;> simp [step, h]

end Machine
end Sys2Proof
end

