-- ==== Sys2Proof/WellFormed.lean ====
section
/-! DEFINITION. The operand values the spec calls legal (spec/30_encoding.md R93). -/

namespace Sys2Proof

/-- A bit count is legal up to `NMAX = 32` (R93, D7). -/
def legalCount (n : BitVec 8) : Bool := n.toNat ≤ Config.nMax

/-- Every operand has a legal value. The one illegal operand value of the command set is a count above 32 in
BW_PUTBITS or BR_GETBITS (R93); such a command is still decoded, and running it raises
IllegalCommand(CountOutOfRange) (R124, R143). Every other operand has exactly the width of its field. -/
def Instr.wellFormed : Instr → Bool
  | .nop => true
  | .srst => true
  | .rdreg _ => true
  | .imgdesc _ _ => true
  | .imgrel => true
  | .bwInit => true
  | .bwPutbit _ => true
  | .bwPutbits n _ => legalCount n
  | .bwPutbyte _ => true
  | .bwFinish => true
  | .brInit _ _ => true
  | .brGetbit => true
  | .brGetbits k => legalCount k
  | .brGetbyte => true
  | .reiBuild => true
  | .reiTest _ => true
  | .beEncodeGroup _ _ => true
  | .beEncodeRow _ => true
  | .bdDecodeGroup _ _ => true
  | .bdDecodeRow _ => true
  | .cfAssemble => true
  | .cfParse _ => true
  | .cfEncode => true
  | .cfDecode _ => true
  | .tagWhite => true
  | .tagBlack => true
  | .tagLiteral _ _ _ _ => true

end Sys2Proof
end

