-- ==== Sys2Proof/Laws/PerInstr.lean ====
section
/-! SUPPORT. The family EncodingMatchesTable: every instruction's encoding has the fixed bits spec/opcode_table.json gives
its row. -/

namespace Sys2Proof
namespace Laws
namespace EncodingMatchesTable

/-- A row's fixed bits: OPC of a command word (the table's match under its mask), or the leading bits of a tag. -/
inductive Row where
  | command (opc : Byte)
  | tag (code : List Bool) (length : Nat)

/-- The row of spec/opcode_table.json an instruction belongs to. -/
def row : Instr → Row
  | .nop => .command 0x00
  | .srst => .command 0x01
  | .rdreg _ => .command 0x02
  | .imgdesc _ _ => .command 0x03
  | .imgrel => .command 0x04
  | .bwInit => .command 0x10
  | .bwPutbit _ => .command 0x11
  | .bwPutbits _ _ => .command 0x12
  | .bwPutbyte _ => .command 0x13
  | .bwFinish => .command 0x14
  | .brInit _ _ => .command 0x20
  | .brGetbit => .command 0x21
  | .brGetbits _ => .command 0x22
  | .brGetbyte => .command 0x23
  | .reiBuild => .command 0x30
  | .reiTest _ => .command 0x31
  | .beEncodeGroup _ _ => .command 0x40
  | .beEncodeRow _ => .command 0x41
  | .bdDecodeGroup _ _ => .command 0x50
  | .bdDecodeRow _ => .command 0x51
  | .cfAssemble => .command 0x60
  | .cfParse _ => .command 0x61
  | .cfEncode => .command 0x62
  | .cfDecode _ => .command 0x63
  | .tagWhite => .tag [false] 1
  | .tagBlack => .tag [true, false] 2
  | .tagLiteral _ _ _ _ => .tag [true, true] 34

/-- An encoding has a row's fixed bits and length. -/
def Fits : Row → Encoding → Prop
  | .command opc, .command w => CommandWord.opc w = opc
  | .tag code n, .tag bits => bits.take code.length = code ∧ bits.length = n
  | _, _ => False

/-- The encoding of an instruction has its row's fixed bits. -/
def Statement (i : Instr) : Prop := Fits (row i) (encode i)

/-- OPC stands in bits [79:72] (R90). -/
theorem opc_commandWord (opc n : Byte) (a b : Word32) : CommandWord.opc (commandWord opc n a b) = opc := by
  ext k hk
  rw [CommandWord.opc, BitVec.getElem_extractLsb', commandWord]
  simp only [BitVec.getLsbD_append]
  grind

theorem nop : Statement .nop := opc_commandWord _ _ _ _
theorem srst : Statement .srst := opc_commandWord _ _ _ _
theorem rdreg (r : Word32) : Statement (.rdreg r) := opc_commandWord _ _ _ _
theorem imgdesc (w h : Word32) : Statement (.imgdesc w h) := opc_commandWord _ _ _ _
theorem imgrel : Statement .imgrel := opc_commandWord _ _ _ _
theorem bwInit : Statement .bwInit := opc_commandWord _ _ _ _
theorem bwPutbit (b : Bool) : Statement (.bwPutbit b) := opc_commandWord _ _ _ _
theorem bwPutbits (n : BitVec 8) (v : Word32) : Statement (.bwPutbits n v) := opc_commandWord _ _ _ _
theorem bwPutbyte (v : Byte) : Statement (.bwPutbyte v) := opc_commandWord _ _ _ _
theorem bwFinish : Statement .bwFinish := opc_commandWord _ _ _ _
theorem brInit (base len : Word32) : Statement (.brInit base len) := opc_commandWord _ _ _ _
theorem brGetbit : Statement .brGetbit := opc_commandWord _ _ _ _
theorem brGetbits (k : BitVec 8) : Statement (.brGetbits k) := opc_commandWord _ _ _ _
theorem brGetbyte : Statement .brGetbyte := opc_commandWord _ _ _ _
theorem reiBuild : Statement .reiBuild := opc_commandWord _ _ _ _
theorem reiTest (y : Word32) : Statement (.reiTest y) := opc_commandWord _ _ _ _
theorem beEncodeGroup (y g : Word32) : Statement (.beEncodeGroup y g) := opc_commandWord _ _ _ _
theorem beEncodeRow (y : Word32) : Statement (.beEncodeRow y) := opc_commandWord _ _ _ _
theorem bdDecodeGroup (y g : Word32) : Statement (.bdDecodeGroup y g) := opc_commandWord _ _ _ _
theorem bdDecodeRow (y : Word32) : Statement (.bdDecodeRow y) := opc_commandWord _ _ _ _
theorem cfAssemble : Statement .cfAssemble := opc_commandWord _ _ _ _
theorem cfParse (l : Word32) : Statement (.cfParse l) := opc_commandWord _ _ _ _
theorem cfEncode : Statement .cfEncode := opc_commandWord _ _ _ _
theorem cfDecode (l : Word32) : Statement (.cfDecode l) := opc_commandWord _ _ _ _
theorem tagWhite : Statement .tagWhite := ⟨rfl, rfl⟩
theorem tagBlack : Statement .tagBlack := ⟨rfl, rfl⟩
theorem tagLiteral (p q r s : Byte) : Statement (.tagLiteral p q r s) := ⟨rfl, by simp [Tag.bits, msbBits]⟩

end EncodingMatchesTable
end Laws
end Sys2Proof
end

