-- ==== Sys2Proof/Machine/Assembler.lean ====
section
/-! DEFINITION. The assembler text of spec/30_encoding.md R96 and the pseudo-commands of R97, as lists of characters. -/

namespace Sys2Proof
namespace Machine

/-- A field of the command word that an operand fills (R90). -/
inductive AsmField where
  | n
  | a
  | b
deriving DecidableEq, Repr

/-- One command's text form: its mnemonic, its OPC and the fields its operands fill, in the order N, A, B (R92, R96). -/
structure AsmForm where
  mnemonic : List Char
  opc : Byte
  fields : List AsmField
deriving DecidableEq, Repr

/-- The text forms of the 24 commands (R92, R96). -/
def asmForms : List AsmForm :=
  [⟨"NOP".toList, 0x00, []⟩, ⟨"SRST".toList, 0x01, []⟩, ⟨"RDREG".toList, 0x02, [.a]⟩,
   ⟨"IMGDESC".toList, 0x03, [.a, .b]⟩, ⟨"IMGREL".toList, 0x04, []⟩] ++
  [⟨"BW_INIT".toList, 0x10, []⟩, ⟨"BW_PUTBIT".toList, 0x11, [.b]⟩, ⟨"BW_PUTBITS".toList, 0x12, [.n, .b]⟩,
   ⟨"BW_PUTBYTE".toList, 0x13, [.b]⟩, ⟨"BW_FINISH".toList, 0x14, []⟩] ++
  [⟨"BR_INIT".toList, 0x20, [.a, .b]⟩, ⟨"BR_GETBIT".toList, 0x21, []⟩, ⟨"BR_GETBITS".toList, 0x22, [.n]⟩,
   ⟨"BR_GETBYTE".toList, 0x23, []⟩] ++
  [⟨"REI_BUILD".toList, 0x30, []⟩, ⟨"REI_TEST".toList, 0x31, [.a]⟩,
   ⟨"BE_ENCODE_GROUP".toList, 0x40, [.a, .b]⟩, ⟨"BE_ENCODE_ROW".toList, 0x41, [.a]⟩,
   ⟨"BD_DECODE_GROUP".toList, 0x50, [.a, .b]⟩, ⟨"BD_DECODE_ROW".toList, 0x51, [.a]⟩] ++
  [⟨"CF_ASSEMBLE".toList, 0x60, []⟩, ⟨"CF_PARSE".toList, 0x61, [.a]⟩, ⟨"CF_ENCODE".toList, 0x62, []⟩,
   ⟨"CF_DECODE".toList, 0x63, [.a]⟩]

/-- The register names RDREG takes, number 0x00 first (R22, R96). -/
def registerNames : List (List Char) :=
  ["STATUS".toList, "RESULT".toList, "WIDTH".toList, "HEIGHT".toList, "RI_COUNT".toList, "BS_COUNT".toList,
   "BW_LEN".toList] ++
  ["BW_STATE".toList, "BR_BASE".toList, "BR_LEN".toList, "BR_IDX".toList, "BR_STATE".toList, "FLAGS".toList,
   "SOUT_LEN".toList]

/-- The value of a digit below 16. DESIGN CHOICE (safe; log 18): R96 does not say in which case hexadecimal digits are
written; both are taken. -/
def digitValue (c : Char) : Option Nat :=
  if '0' ≤ c ∧ c ≤ '9' then some (c.toNat - '0'.toNat)
  else if 'a' ≤ c ∧ c ≤ 'f' then some (c.toNat - 'a'.toNat + 10)
  else if 'A' ≤ c ∧ c ≤ 'F' then some (c.toNat - 'A'.toNat + 10)
  else none

/-- A digit string in a base, added to the digits before it. -/
def digitsValue (base : Nat) : (acc : Nat) → List Char → Option Nat
  | acc, [] => some acc
  | acc, c :: cs =>
    match digitValue c with
    | some d => if d < base then digitsValue base (acc * base + d) cs else none
    | none => none

/-- A non-empty digit string in a base. -/
def numberIn (base : Nat) : List Char → Option Nat
  | [] => none
  | c :: cs => digitsValue base 0 (c :: cs)

/-- A decimal, `0x` hexadecimal or `0b` binary number (R96). -/
def asmNumber : List Char → Option Nat
  | '0' :: 'x' :: cs => numberIn 16 cs
  | '0' :: 'b' :: cs => numberIn 2 cs
  | cs => numberIn 10 cs

/-- An operand: a number, or for RDREG a register name (R96). -/
def asmOperand (opc : Byte) (cs : List Char) : Option Nat :=
  if opc = 0x02 ∧ cs ∈ registerNames then some (registerNames.idxOf cs) else asmNumber cs

/-- The characters before a comment (R96). -/
def withoutComment (cs : List Char) : List Char := cs.takeWhile fun c => c ≠ ';'

/-- The characters without spaces at either end. DESIGN CHOICE (safe; log 18): R96 does not say what white space may stand
around a line or an operand; the space character may, and no other. -/
def trimSpaces (cs : List Char) : List Char :=
  ((cs.dropWhile fun c => c = ' ').reverse.dropWhile fun c => c = ' ').reverse

/-- The pieces between commas. -/
def splitCommas : List Char → List (List Char)
  | [] => [[]]
  | c :: cs =>
    match splitCommas cs with
    | [] => [[c]]
    | p :: ps => if c = ',' then [] :: p :: ps else (c :: p) :: ps

/-- The operands of a line: none, or pieces separated by commas (R96), with spaces around each or none (log 18). -/
def operandTexts (cs : List Char) : List (List Char) :=
  if trimSpaces cs = [] then [] else (splitCommas cs).map trimSpaces

/-- The command word being filled: N, A and B (R90). -/
structure AsmFill where
  n : Byte := 0
  a : Word32 := 0
  b : Word32 := 0
deriving DecidableEq, Repr

/-- Put a number in a field it fits; a field no operand fills stays 0 (R96). DESIGN CHOICE (safe; log 17): R96 does not say
what becomes of a number that does not fit its field; such a line has no word. -/
def fillField (f : AsmFill) (v : Nat) : AsmField → Option AsmFill
  | .n => if v < 2 ^ 8 then some { f with n := BitVec.ofNat 8 v } else none
  | .a => if v < 2 ^ 32 then some { f with a := BitVec.ofNat 32 v } else none
  | .b => if v < 2 ^ 32 then some { f with b := BitVec.ofNat 32 v } else none

/-- Fill the fields of a form with its operands, exactly as many as it uses (R96). -/
def fillFields (opc : Byte) : AsmFill → List AsmField → List (List Char) → Option AsmFill
  | f, [], [] => some f
  | f, fd :: fds, t :: ts =>
    match asmOperand opc t with
    | none => none
    | some v =>
      match fillField f v fd with
      | none => none
      | some f' => fillFields opc f' fds ts
  | _, [], _ :: _ => none
  | _, _ :: _, [] => none

/-- A command line as its word (R96). -/
def asmCommand (mnemonic : List Char) (operands : List (List Char)) : Option CommandWord :=
  match asmForms.find? fun f => f.mnemonic = mnemonic with
  | none => none
  | some f => (fillFields f.opc {} f.fields operands).map fun x => commandWord f.opc x.n x.a x.b

/-- A byte operand of PUT_LITERAL (R97). DESIGN CHOICE (safe; log 17): R97 gives no range, and BW_PUTBYTE itself takes any
32-bit number; an operand of PUT_LITERAL above 255 makes its line have no word. -/
def asmByte (cs : List Char) : Option Byte :=
  match asmNumber cs with
  | some v => if v < 2 ^ 8 then some (BitVec.ofNat 8 v) else none
  | none => none

/-- A pseudo-command line (R97). -/
def asmPseudo (mnemonic : List Char) (operands : List (List Char)) : Option Pseudo :=
  match operands with
  | [] =>
    if mnemonic = "PUT_WHITE".toList then some .putWhite
    else if mnemonic = "PUT_BLACK".toList then some .putBlack
    else if mnemonic = "PUT_LITTAG".toList then some .putLittag
    else if mnemonic = "RDSTATUS".toList then some .rdstatus
    else if mnemonic = "RDRESULT".toList then some .rdresult
    else none
  | [t0, t1, t2, t3] =>
    if mnemonic = "PUT_LITERAL".toList then
      match asmByte t0, asmByte t1, asmByte t2, asmByte t3 with
      | some b0, some b1, some b2, some b3 => some (.putLiteral b0 b1 b2 b3)
      | _, _, _, _ => none
    else none
  | _ => none

/-- The command word of a command instruction; a tag code has none. -/
def commandOf (i : Instr) : List CommandWord :=
  match encode i with
  | .command w => [w]
  | .tag _ => []

/-- One line of assembler text as the command words it stands for: none for a blank or comment line, one for a command,
and a pseudo-command's whole expansion (R96, R97). DESIGN CHOICE (safe; log 18): a mnemonic ends at the first space, and
mnemonics, register names and the `0x` and `0b` of a number are taken only in the letter case R22, R92, R96 and R97 write. -/
def assembleLine (line : List Char) : Option (List CommandWord) :=
  let text := trimSpaces (withoutComment line)
  let mnemonic := text.takeWhile fun c => c ≠ ' '
  let operands := operandTexts (text.dropWhile fun c => c ≠ ' ')
  if text = [] then some []
  else
    match asmCommand mnemonic operands with
    | some w => some [w]
    | none => (asmPseudo mnemonic operands).map fun p => p.expand.flatMap commandOf

end Machine
end Sys2Proof
end

