-- ==== Sys2Proof/Tests/Slice0.lean ====
section
/-! SUPPORT. Checks on fixed values: the well-formedness checks, one word for each row of the opcode map written out from
spec/30_encoding.md R90, R92 and R98, one-step tests whose expected values are those of spec/95_test_vectors.md (named in
each comment) or worked out by hand from the rule named, and for every obligation that has hypotheses a state that meets
them. -/

namespace Sys2Proof
namespace Tests

open Sys2Proof.Machine

/-! ### Well-formedness: the ill-formed terms are refused (R93) -/

theorem test_wellFormed_putbits_33 : (Instr.bwPutbits 33 1).wellFormed = false := by decide
theorem test_wellFormed_putbits_32 : (Instr.bwPutbits 32 0xFFFFFFFF).wellFormed = true := by decide
theorem test_wellFormed_getbits_255 : (Instr.brGetbits 255).wellFormed = false := by decide
theorem test_wellFormed_getbits_33 : (Instr.brGetbits 33).wellFormed = false := by decide
theorem test_wellFormed_getbits_0 : (Instr.brGetbits 0).wellFormed = true := by decide

/-! ### Decoding: `OO NN AAAAAAAA BBBBBBBB` (R90, R92) and the tag codes (R98) -/

theorem test_decode_control :
    decodeCommand 0x00_00_00000000_00000000#80 = .ok .nop ∧
    decodeCommand 0x01_00_00000000_00000000#80 = .ok .srst ∧
    decodeCommand 0x02_00_0000000D_00000000#80 = .ok (.rdreg 13) ∧
    decodeCommand 0x03_00_00000006_00000003#80 = .ok (.imgdesc 6 3) ∧
    decodeCommand 0x04_00_00000000_00000000#80 = .ok .imgrel := by decide

theorem test_decode_writer :
    decodeCommand 0x10_00_00000000_00000000#80 = .ok .bwInit ∧
    decodeCommand 0x11_00_00000000_00000001#80 = .ok (.bwPutbit true) ∧
    decodeCommand 0x12_03_00000000_00000005#80 = .ok (.bwPutbits 3 5) ∧
    decodeCommand 0x13_00_00000000_FFFFFF5A#80 = .ok (.bwPutbyte 0x5A) ∧
    decodeCommand 0x14_00_00000000_00000000#80 = .ok .bwFinish := by decide

theorem test_decode_reader :
    decodeCommand 0x20_00_0000000B_00000002#80 = .ok (.brInit 11 2) ∧
    decodeCommand 0x21_00_00000000_00000000#80 = .ok .brGetbit ∧
    decodeCommand 0x22_0C_00000000_00000000#80 = .ok (.brGetbits 12) ∧
    decodeCommand 0x23_00_00000000_00000000#80 = .ok .brGetbyte := by decide

theorem test_decode_row_index :
    decodeCommand 0x30_00_00000000_00000000#80 = .ok .reiBuild ∧
    decodeCommand 0x31_00_00000009_00000000#80 = .ok (.reiTest 9) := by decide

theorem test_decode_blocks :
    decodeCommand 0x40_00_00000001_00000002#80 = .ok (.beEncodeGroup 1 2) ∧
    decodeCommand 0x41_00_00000007_00000000#80 = .ok (.beEncodeRow 7) ∧
    decodeCommand 0x50_00_80000001_7FFFFFFE#80 = .ok (.bdDecodeGroup 0x80000001 0x7FFFFFFE) ∧
    decodeCommand 0x51_00_FFFFFFFF_00000000#80 = .ok (.bdDecodeRow 0xFFFFFFFF) := by decide

theorem test_decode_container :
    decodeCommand 0x60_00_00000000_00000000#80 = .ok .cfAssemble ∧
    decodeCommand 0x61_00_00001001_00000000#80 = .ok (.cfParse 4097) ∧
    decodeCommand 0x62_00_00000000_00000000#80 = .ok .cfEncode ∧
    decodeCommand 0x63_00_00000019_00000000#80 = .ok (.cfDecode 25) := by decide

/-- A Literal's bits are `11` and then each payload byte, most significant bit first (R98, V-EX-3). -/
theorem test_decode_tags :
    decode (.tag [false]) = .ok .tagWhite ∧ decode (.tag [true, false]) = .ok .tagBlack ∧
    decode (.tag ([true, true] ++ [false, false, false, false, false, false, false, false] ++
      [true, true, true, true, true, true, true, true] ++ [false, false, false, false, true, false, true, false] ++
      [true, true, false, false, true, false, false, false])) = .ok (.tagLiteral 0 255 10 200) := by decide

theorem test_decode_refusals :
    decodeCommand 0x05_00_00000000_00000000#80 = .error (.reservedOpcode 0x05) ∧
    decodeCommand 0x64_00_00000000_00000000#80 = .error (.reservedOpcode 0x64) ∧
    decode (.tag [true]) = .error .truncatedTag ∧ decode (.tag []) = .error .truncatedTag ∧
    decode (.tag [false, false]) = .error .trailingBits := by decide

theorem test_table_word :
    decodeTableWord 80 0x12_03_00000000_00000005 = some (.bwPutbits 3 5) ∧ decodeTableWord 8 0 = some .tagWhite ∧
    decodeTableWord 8 2 = some .tagBlack ∧ decodeTableWord 40 0x300FF0AC8 = some (.tagLiteral 0 255 10 200) := by decide

/-- The lines of R96 and R97 and their words. -/
theorem test_assembler :
    assembleLine "BW_PUTBITS 3, 0b101 ; three bits".toList = some [0x12_03_00000000_00000005#80] ∧
    assembleLine "PUT_BLACK".toList = some [0x12_02_00000000_00000002#80] ∧
    assembleLine "RDREG SOUT_LEN".toList = some [0x02_00_0000000D_00000000#80] ∧
    assembleLine "BW_PUTBITS 3".toList = none := by decide

/-- Log 17: a line whose number does not fit has no word. -/
theorem test_assembler_range :
    assembleLine "BW_PUTBITS 256, 0".toList = none ∧ assembleLine "PUT_LITERAL 256, 0, 0, 0".toList = none := by decide

/-- Log 18: spaces may be many or none, hexadecimal digits in either case; a tab or a lower-case mnemonic has no word. -/
theorem test_assembler_text :
    assembleLine "  IMGDESC   0xa,0xB ".toList = some [0x03_00_0000000A_0000000B#80] ∧
    assembleLine "; nothing".toList = some [] ∧ assembleLine "REI_TEST\t1".toList = none ∧
    assembleLine "nop".toList = none := by decide

/-! ### Small states -/

/-- The state an instruction leaves; the state itself where it stops. -/
def after (i : Instr) (s : State) : State :=
  match exec i s with
  | .next t => t
  | .fault _ => s
  | .refused _ => s

/-- Several instructions. -/
def afterAll (is : List Instr) (s : State) : State := is.foldl (fun s i => after i s) s

/-- The step does not stop. -/
def goes (o : Host.Outcome State Fault Refusal) : Bool :=
  match o with
  | .next _ => true
  | .fault _ => false
  | .refused _ => false

theorem exec_eq_next_after (i : Instr) (s : State) (h : goes (exec i s) = true) : exec i s = .next (after i s) := by
  unfold after
  cases hx : exec i s with
  | next t => rfl
  | fault f => rw [hx] at h; cases h
  | refused r => rw [hx] at h; cases h

/-- Bytes as a memory, from an address up. -/
def cells : Nat → List Byte → Memory
  | _, [] => []
  | a, b :: bs => (a, b) :: cells (a + 1) bs

def small : Params := { imgCap := 20, sinCap := 40, soutCap := 40, wbufCap := 8 }

/-- After reset. -/
def start : State := State.resetWith small

/-- A writer with room for one more bit, and a full one (V-BW-8). -/
def tight : State := after (.bwPutbits 7 0x7F) (State.resetWith { small with wbufCap := 1 })
def full : State := after (.bwPutbit false) tight

/-- Three bits in the writer, and the same writer finished. -/
def three : State := after (.bwPutbits 3 5) start
def finished : State := after .bwFinish three

/-- A 5 by 2 image: a white row, and a row of a Black group and a Literal of one pixel and three padding pixels. -/
def pixels : List Byte := [255, 255, 255, 255, 255, 0, 0, 0, 0, 7]

/-- The image in an instance with given capacities. -/
def picWith (p : Params) : State := after (.imgdesc 5 2) { State.resetWith p with img := cells 0 pixels }
def pic : State := picWith small
def indexed : State := after .reiBuild pic
def encoded : State := after .cfEncode pic

/-- The container of the image by the rules: header, row index 01, and the bits 10 11 00000111 and 24 ones (R102). -/
def stream : List Byte :=
  [0x42, 0x41, 1, 5, 0, 0, 0, 2, 0, 0, 0, 1, 0, 0, 0, 5, 0, 0, 0, 0x01, 0xB0, 0x7F, 0xFF, 0xFF, 0xF0]

/-- The container received into SIN of a fresh instance, and the same parsed. -/
def received : State := { start with sin := cells 0 stream }
def parsed : State := after (.cfParse 25) received

/-- A container of one non-empty row of two groups and no bitstream (V-CF-9), and the same parsed. -/
def starved : State :=
  { start with sin := cells 0 [0x42, 0x41, 1, 8, 0, 0, 0, 1, 0, 0, 0, 1, 0, 0, 0, 0, 0, 0, 0, 0] }
def starvedParsed : State := after (.cfParse 20) starved

/-- Two bytes to read (V-BR-1), and the reader at their end. -/
def reading : State := after (.brInit 0 2) { start with sin := cells 0 [0xB5, 0x60] }
def readOut : State := after (.brGetbits 16) reading

/-! ### One-step tests -/

/-- V-CTL-2: NOP answers 0 and keeps STATUS. -/
theorem test_nop : (after .nop (after .brGetbit start)).status = 0x0072#16 ∧
    (after .nop (after .brGetbit start)).responses.head? = some ⟨0, 0⟩ := by decide
/-- R261: SRST clears a register and keeps a memory byte. -/
theorem test_srst : (after .srst encoded).soutLen = 0 ∧ memGet (after .srst encoded).sout 1 = some 0x41 := by decide
/-- V-BW-2: BW_STATE reads 0x360 with CUR 0x60, CURSOR 3. -/
theorem test_rdreg : (after (.rdreg 7) (afterAll [.bwPutbyte 0xAB] three)).responses.head? = some ⟨0, 0x360⟩ := by decide
/-- V-CTL-1: an unassigned number reads 0. -/
theorem test_rdreg_unassigned : (after (.rdreg 0x0E) encoded).responses.head? = some ⟨0, 0⟩ := by decide
/-- V-EX-8. -/
theorem test_imgdesc : (after (.imgdesc 6 3) start).result = 18 ∧ (after (.imgdesc 6 3) start).height = 3 := by decide
/-- R263: the width is checked first. -/
theorem test_imgdesc_zero : (after (.imgdesc 0 0) start).status = 0x0021#16 := by decide
/-- V-CTL-4. -/
theorem test_imgrel : (after .imgrel indexed).imgValid = false ∧ (after .imgrel indexed).riValid = false := by decide
/-- V-BW-6: BW_INIT reopens a finished writer. -/
theorem test_bwInit : (after .bwInit finished).fin = false ∧ (after .bwInit finished).bwLen = 0 := by decide
/-- R64, I-2: a byte output before BW_INIT holds no known value after it. -/
theorem test_bwInit_wbuf : finished.wbuf = cells 0 [0xA0] ∧ memGet (after .bwInit finished).wbuf 0 = none := by decide
/-- V-BW-1. -/
theorem test_bwPutbit : (after (.bwPutbit true) start).cur = 0x80 ∧ (after (.bwPutbit true) start).bwCursor = 1 := by
  decide
/-- V-BW-8: the last bit that fits completes the byte; the next is refused. -/
theorem test_bwPutbit_full : memGet full.wbuf 0 = some 0xFE ∧ (after (.bwPutbit true) full).status = 0x0024#16 := by decide
/-- V-BW-3: 32 bits. -/
theorem test_bwPutbits : (after (.bwPutbits 32 0xDEADBEEF) start).wbuf = cells 0 [0xDE, 0xAD, 0xBE, 0xEF] := by decide
/-- V-BW-6: the count is checked before FIN. -/
theorem test_bwPutbits_order : (after (.bwPutbits 33 0) finished).status = 0x0025#16 ∧
    (after (.bwPutbits 0 0) finished).status = 0x0035#16 := by decide
/-- V-BW-2. -/
theorem test_bwPutbyte : (after (.bwPutbyte 0xAB) three).wbuf = cells 0 [0xB5] ∧
    (after (.bwPutbyte 0xAB) three).cur = 0x60 := by decide
/-- V-BW-2. -/
theorem test_bwFinish : (after .bwFinish (after (.bwPutbyte 0xAB) three)).result = 2 ∧
    (after .bwFinish (after (.bwPutbyte 0xAB) three)).wbuf = cells 0 [0xB5, 0x60] := by decide
/-- V-BW-6. -/
theorem test_bwFinish_again : (after .bwFinish finished).result = 1 ∧ (after .bwFinish finished).wbuf = finished.wbuf := by
  decide
/-- V-BR-5: the sum is exact. -/
theorem test_brInit : (after (.brInit 0xFFFFFFFF 1) start).status = 0x0055#16 ∧
    (after (.brInit 40 0) start).brBase = 40 := by decide
/-- V-BR-2. -/
theorem test_brGetbit : (after .brGetbit reading).result = 1 ∧ (after .brGetbit (after .brGetbit reading)).result = 0 := by
  decide
/-- V-BR-1. -/
theorem test_brGetbits : (after (.brGetbits 3) reading).result = 5 ∧ (after (.brGetbits 3) reading).brCursor = 3 := by
  decide
/-- V-BR-3: bits read before the end stay consumed. -/
theorem test_brGetbits_short : (after (.brGetbits 17) reading).status = 0x0072#16 ∧
    (after (.brGetbits 17) reading).brIdx = 2 := by decide
/-- V-BR-1: across two bytes. -/
theorem test_brGetbyte : (after .brGetbyte (after (.brGetbits 3) reading)).result = 0xAB := by decide
/-- R161 by hand: row 0 is white. -/
theorem test_reiBuild : indexed.ribuf = cells 0 [0x01] ∧ indexed.result = 1 := by decide
/-- R163 by hand, and the row after the last. -/
theorem test_reiTest : (after (.reiTest 0) indexed).result = 1 ∧ (after (.reiTest 1) indexed).result = 0 ∧
    (after (.reiTest 2) indexed).status = 0x0065#16 := by decide
/-- V-BE-3: a padded group with a black pixel is a Literal. -/
theorem test_beEncodeGroup : (after (.beEncodeGroup 1 0) pic).cur = 0x80 ∧
    (after (.beEncodeGroup 1 1) pic).wbuf = cells 0 [0xC1, 0xFF, 0xFF, 0xFF] := by decide
/-- V-BE-6 and V-BE-2: an empty row gives nothing. -/
theorem test_beEncodeRow : (after (.beEncodeRow 0) indexed).result = 1 ∧
    (after (.beEncodeRow 1) indexed).wbuf = cells 0 [0xB0, 0x7F, 0xFF, 0xFF] := by decide
/-- V-BD-1 and V-BD-4: a Black tag, and a Literal of one valid pixel that still takes 34 bits. -/
theorem test_bdDecodeGroup : (after (.bdDecodeGroup 1 0) parsed).img = cells 5 [0, 0, 0, 0] ∧
    (afterAll [.bdDecodeGroup 1 0, .bdDecodeGroup 1 1] parsed).img = cells 5 [0, 0, 0, 0, 7] ∧
    (afterAll [.bdDecodeGroup 1 0, .bdDecodeGroup 1 1] parsed).brCursor = 4 := by decide
/-- V-BD-7 and V-BD-5. -/
theorem test_bdDecodeRow : (after (.bdDecodeRow 0) parsed).img = cells 0 [255, 255, 255, 255, 255] ∧
    (after (.bdDecodeRow 0) starvedParsed).status = 0x0072#16 := by decide
/-- V-CF-1: the row index is asked for first. -/
theorem test_cfAssemble : (after .cfAssemble start).status = 0x0085#16 ∧
    (after .cfAssemble indexed).status = 0x0045#16 := by decide
/-- V-CF-2: an empty bitstream. -/
theorem test_cfAssemble_empty : (after .cfAssemble (after .bwFinish indexed)).sout =
    cells 0 [0x42, 0x41, 1, 5, 0, 0, 0, 2, 0, 0, 0, 1, 0, 0, 0, 0, 0, 0, 0, 0x01] := by decide
/-- R221 by hand. -/
theorem test_cfParse : parsed.brBase = 20 ∧ parsed.brLen = 5 ∧ parsed.ribuf = cells 0 [0x01] ∧
    (after (.cfParse 24) received).status = 0x0042#16 := by decide
/-- R223 by hand. -/
theorem test_cfEncode : encoded.sout = cells 0 stream ∧ encoded.result = 25 := by decide
/-- V-CF-6: a container that does not fit SOUT. -/
theorem test_cfEncode_full : (after .cfEncode (picWith { small with soutCap := 24 })).status = 0x0034#16 ∧
    (after .cfEncode (picWith { small with soutCap := 24 })).fin = true := by decide
/-- R33, R287, D19: a CF_ENCODE without an image, after a container was written, leaves SOUT_LEN 0. -/
theorem test_cfEncode_none : encoded.soutLen = 25 ∧ (after .cfEncode (after .imgrel encoded)).status = 0x0011#16 ∧
    (after .cfEncode (after .imgrel encoded)).soutLen = 0 := by decide
/-- R224 by hand. -/
theorem test_cfDecode : (after (.cfDecode 25) received).img = cells 0 pixels ∧
    (after (.cfDecode 25) received).imgValid = true := by decide
/-- V-CF-9: a bitstream that runs out. -/
theorem test_cfDecode_short : (after (.cfDecode 20) starved).status = 0x0072#16 ∧
    (after (.cfDecode 20) starved).width = 8 ∧ (after (.cfDecode 20) starved).imgValid = false := by decide
/-- R98, R201: the tag codes on a group of one valid pixel. -/
theorem test_tags :
    (after .tagWhite { parsed with tagRow := 1, tagGroup := 1 }).img = cells 9 [255] ∧
    (after .tagBlack { parsed with tagRow := 1, tagGroup := 1 }).img = cells 9 [0] ∧
    (after (.tagLiteral 7 1 2 3) { parsed with tagRow := 1, tagGroup := 1 }).img = cells 9 [7] := by decide
/-- R93: a reserved OPC on the port. -/
theorem test_step_reserved : goes (step { start with port := [.command 0x05_00_00000000_00000000#80] }) = true := by decide

/-! ### States that meet the invariants -/

/-- The invariants as one check. -/
def invB (s : State) : Bool :=
  decide s.params.Legal &&
  decide (s.width.toNat ≤ Config.dimMax ∧ s.height.toNat ≤ Config.dimMax) &&
  decide (s.width.toNat * s.height.toNat ≤ s.params.imgCap) &&
  decide (s.imgValid = true ∨ s.riValid = true → 1 ≤ s.width.toNat ∧ 1 ≤ s.height.toNat) &&
  decide (s.riValid = true → s.riCount.toNat = ceilDiv s.height.toNat 8) &&
  decide (∀ k < 8 - s.bwCursor.toNat, s.cur.getLsbD k = false) &&
  decide (s.fin = true → s.bwCursor = 0#3 ∧ s.cur = 0#8) &&
  decide (ceilDiv s.nbits 8 ≤ s.params.wbufCap) &&
  decide (s.brBase.toNat + s.brLen.toNat ≤ s.params.sinCap) &&
  decide (s.brIdx.toNat ≤ s.brLen.toNat) &&
  decide (s.brIdx = s.brLen → s.brCursor = 0#3) &&
  decide (s.soutLen.toNat ≤ s.params.soutCap) &&
  decide (s.status ∈ legalStatuses) &&
  decide (s.status ≠ statusOk → s.result = 0#32) &&
  decide (s.img.wf = true ∧ s.sin.wf = true ∧ s.sout.wf = true ∧ s.wbuf.wf = true ∧ s.ribuf.wf = true) &&
  decide (s.img.within (s.params.cap .img) = true ∧ s.sin.within (s.params.cap .sin) = true ∧
    s.sout.within (s.params.cap .sout) = true ∧ s.wbuf.within (s.params.cap .wbuf) = true ∧
    s.ribuf.within (s.params.cap .ribuf) = true) &&
  decide (∀ a < s.bwLen.toNat, (memGet s.wbuf a).isSome = true) &&
  decide (s.riValid = true → ∀ a < s.riCount.toNat, (memGet s.ribuf a).isSome = true)

theorem inv_of_invB (s : State) (h : invB s = true) : s.Inv := by
  simp only [invB, Bool.and_eq_true, decide_eq_true_eq] at h
  obtain ⟨⟨⟨⟨⟨⟨⟨⟨⟨⟨⟨⟨⟨⟨⟨⟨⟨h1, h2⟩, h3⟩, h4⟩, h5⟩, h6⟩, h7⟩, h8⟩, h9⟩, h10⟩, h11⟩, h12⟩, h13⟩, h14⟩, h15⟩, h16⟩, h17⟩,
    h18⟩ := h
  exact ⟨h1, h2, h3, h4, h5, h6, h7, h8, h9, h10, h11, h12, h13, h14, h15, h16, h17, h18⟩

theorem inv_start : start.Inv := inv_of_invB _ (by decide)
theorem inv_tight : tight.Inv := inv_of_invB _ (by decide)
theorem inv_three : three.Inv := inv_of_invB _ (by decide)
theorem inv_finished : finished.Inv := inv_of_invB _ (by decide)
theorem inv_pic : pic.Inv := inv_of_invB _ (by decide)
theorem inv_indexed : indexed.Inv := inv_of_invB _ (by decide)
theorem inv_received : received.Inv := inv_of_invB _ (by decide)
theorem inv_parsed : parsed.Inv := inv_of_invB _ (by decide)
theorem inv_starved : starved.Inv := inv_of_invB _ (by decide)
theorem inv_starvedParsed : starvedParsed.Inv := inv_of_invB _ (by decide)
theorem inv_reading : reading.Inv := inv_of_invB _ (by decide)
theorem inv_readOut : readOut.Inv := inv_of_invB _ (by decide)
theorem inv_encoded : encoded.Inv := inv_of_invB _ (by decide)

/-! ### Witnesses: for every obligation with hypotheses, states and operands that meet them, clause by clause -/

theorem witness_ReservedAndIllegalEncodings :
    decodeCommand 0x05_00_00000000_00000000#80 = .error (.reservedOpcode 0x05) ∧
    decodeCommand 0xFF_00_00000000_00000000#80 = .error (.reservedOpcode 0xFF) ∧
    { start with port := [.command 0x05_00_00000000_00000000#80] }.port =
      .command 0x05_00_00000000_00000000#80 :: [] ∧
    32 < (33#8).toNat := by decide
theorem witness_TagsFormPrefixCode : Tag.bits .white <+: Tag.bits .white := by decide
theorem witness_NoTagCodeIsIllegal : 34 ≤ (List.replicate 34 true).length := by decide
theorem witness_PseudoCommandsPutTags :
    start.Inv ∧ start.fin = false ∧ ceilDiv (start.nbits + 34) 8 ≤ start.params.wbufCap := ⟨inv_start, by decide⟩
theorem witness_StepRunsDecodedInstruction :
    { start with port := [.command 0x21_00_00000000_00000000#80] }.port = .command 0x21_00_00000000_00000000#80 :: [] ∧
    decodeCommand 0x21_00_00000000_00000000#80 = .ok .brGetbit := by decide
theorem witness_HostActionsWriteOnlyTheirSpace :
    start.port = [] ∧
    { start with port := [.writeImg 18 [1, 2]] }.port = .writeImg 18 [1, 2] :: [] ∧ 18 + 2 ≤ start.params.imgCap ∧
    { start with port := [.writeSin 39 [1]] }.port = .writeSin 39 [1] :: [] ∧ 39 + 1 ≤ start.params.sinCap ∧
    { start with port := [.copySout 15 15 25] }.port = .copySout 15 15 25 :: [] ∧ 15 + 25 ≤ start.params.soutCap ∧
    15 + 25 ≤ start.params.sinCap := by decide
theorem witness_EveryCommandReportsItsOutcome :
    exec .brGetbit start = .next (after .brGetbit start) ∧ writesStatus .brGetbit = true ∧
    (after .brGetbit start).status ≠ 0x0000#16 ∧ exec .nop start = .next (after .nop start) :=
  ⟨exec_eq_next_after _ _ (by decide), by decide, by decide, exec_eq_next_after _ _ (by decide)⟩
theorem witness_FirstCommandsAfterReset : small.Legal ∧ 1 ≤ (1#8).toNat ∧ (32#8).toNat ≤ 32 := by decide
theorem witness_RdregReturnsTheRegister : (0x0D#32).toNat = 0x0D ∧ 0x0E ≤ (0x0E#32).toNat ∧ (0#32).toNat = 0x00 := by
  decide
theorem witness_ImgdescDescribesTheImage :
    ((0#32).toNat = 0 ∧ (0x80000000#32).toNat > Config.dimMax) ∧
    (1 ≤ (0x7FFFFFFF#32).toNat ∧ (0x7FFFFFFF#32).toNat ≤ Config.dimMax ∧ (0x80000000#32).toNat > Config.dimMax) ∧
    (3#32).toNat * (7#32).toNat > start.params.imgCap ∧
    (start.params.Legal ∧ 1 ≤ (4#32).toNat ∧ (4#32).toNat * (5#32).toNat ≤ start.params.imgCap) := by decide
theorem witness_BwPutbitPutsOneBit :
    finished.fin = true ∧ (full.fin = false ∧ ceilDiv (full.nbits + 1) 8 > full.params.wbufCap) ∧
    tight.Inv ∧ tight.fin = false ∧ ceilDiv (tight.nbits + 1) 8 ≤ tight.params.wbufCap :=
  ⟨by decide, by decide, inv_tight, by decide⟩
theorem witness_BwPutbitsPutsTheLowestBits :
    (33#8).toNat > 32 ∧ ((32#8).toNat ≤ 32 ∧ finished.fin = true) ∧
    (tight.fin = false ∧ ceilDiv (tight.nbits + (2#8).toNat) 8 > tight.params.wbufCap) ∧
    start.Inv ∧ (32#8).toNat ≤ 32 ∧ start.fin = false ∧ ceilDiv (start.nbits + (32#8).toNat) 8 ≤ start.params.wbufCap :=
  ⟨by decide, by decide, by decide, inv_start, by decide⟩
theorem witness_BwPutbytePutsOneByte :
    finished.fin = true ∧ (tight.fin = false ∧ ceilDiv (tight.nbits + 8) 8 > tight.params.wbufCap) ∧
    three.Inv ∧ three.fin = false ∧ ceilDiv (three.nbits + 8) 8 ≤ three.params.wbufCap :=
  ⟨by decide, by decide, inv_three, by decide⟩
theorem witness_BwFinishFlushesAndReturnsLength :
    finished.Inv ∧ finished.fin = true ∧ three.Inv ∧ three.fin = false := ⟨inv_finished, by decide, inv_three, by decide⟩
theorem witness_WriterLengthContract :
    start.Inv ∧ (∀ i ∈ [Instr.bwPutbits 32 1, Instr.bwPutbit true], isPut i = true) ∧
    ceilDiv ([Instr.bwPutbits 32 1, Instr.bwPutbit true].flatMap putBitsOf).length 8 ≤ start.params.wbufCap ∧
    finished.fin = true ∧ isPut (.bwPutbit true) = true ∧
    exec (.bwPutbit true) finished = .next (after (.bwPutbit true) finished) :=
  ⟨inv_start, by decide, by decide, by decide, by decide, exec_eq_next_after _ _ (by decide)⟩
theorem witness_RaisingPutChangesNoWriterState :
    exec (.bwPutbit true) full = .next (after (.bwPutbit true) full) ∧
    (after (.bwPutbit true) full).status ≠ 0x0000#16 := ⟨exec_eq_next_after _ _ (by decide), by decide⟩
theorem witness_BrInitWrapsASlice :
    (40#32).toNat + (1#32).toNat > start.params.sinCap ∧ (40#32).toNat + (0#32).toNat ≤ start.params.sinCap := by decide
theorem witness_BrGetbitReturnsTheNextBit :
    readOut.Inv ∧ readOut.brIdx = readOut.brLen ∧ reading.Inv ∧ reading.brIdx ≠ reading.brLen :=
  ⟨inv_readOut, by decide, inv_reading, by decide⟩
theorem witness_BrGetbitsReturnsTheNextBits :
    (33#8).toNat > 32 ∧ reading.Inv ∧ ((16#8).toNat ≤ 32 ∧ (16#8).toNat ≤ reading.unread.length) ∧
    (17#8).toNat ≤ 32 ∧ reading.unread.length < (17#8).toNat := ⟨by decide, inv_reading, by decide⟩
theorem witness_BrGetbyteReturnsTheNextByte :
    reading.Inv ∧ 8 ≤ reading.unread.length ∧ readOut.Inv ∧ readOut.unread.length < 8 :=
  ⟨inv_reading, by decide, inv_readOut, by decide⟩
theorem witness_ReadsStayInsideTheSlice :
    (∀ a, reading.brBase.toNat ≤ a → a < reading.brBase.toNat + reading.brLen.toNat →
      { reading with sin := cells 0 [0xB5, 0x60, 0x77] }.byte .sin a = reading.byte .sin a) ∧
    exec .brGetbyte reading = .next (after .brGetbyte reading) := by
  refine ⟨fun a _ h => ?_, exec_eq_next_after _ _ (by decide)⟩
  have h2 : a < 2 := h
  match a, h2 with
  | 0, _ => rfl
  | 1, _ => rfl
theorem witness_ReaderMirrorsWriter :
    three.Inv ∧ three.fin = false ∧ exec .bwFinish three = .next finished ∧
    { start with sin := cells 39 [0xA0] }.Inv ∧ (39#32).toNat + finished.bwLen.toNat ≤ start.params.sinCap ∧
    { start with sin := cells 39 [0xA0] }.bytes .sin (39#32).toNat finished.bwLen.toNat =
      finished.bytes .wbuf 0 finished.bwLen.toNat :=
  ⟨inv_three, by decide, exec_eq_next_after _ _ (by decide), inv_of_invB _ (by decide), by decide, by rfl⟩
theorem witness_ReiBuildWritesTheBitmap : start.imgValid = false ∧ pic.Inv ∧ pic.imgValid = true :=
  ⟨by decide, inv_pic, by decide⟩
theorem witness_BitmapBitsMarkEmptyRows :
    pic.Inv ∧ exec .reiBuild pic = .next indexed ∧ indexed.status = 0x0000#16 ∧ 0 < pic.height.toNat ∧
    pic.height.toNat ≤ 2 ∧ 7 < 8 * indexed.riCount.toNat :=
  ⟨inv_pic, exec_eq_next_after _ _ (by decide), by decide⟩
theorem witness_ReiTestReturnsTheRowBit :
    start.riValid = false ∧ (indexed.riValid = true ∧ indexed.height.toNat ≤ (2#32).toNat) ∧
    indexed.Inv ∧ (1#32).toNat < indexed.height.toNat := ⟨by decide, by decide, inv_indexed, by decide⟩
theorem witness_BeEncodeGroupPutsTheTag :
    start.imgValid = false ∧ (pic.imgValid = true ∧ pic.height.toNat ≤ (2#32).toNat) ∧
    ((1#32).toNat < pic.height.toNat ∧ ceilDiv pic.width.toNat 4 ≤ (2#32).toNat) ∧
    (encoded.imgValid = true ∧ (1#32).toNat < encoded.height.toNat ∧ encoded.fin = true) ∧
    (pic.Inv ∧ (1#32).toNat < ceilDiv pic.width.toNat 4 ∧ pic.fin = false ∧
      ceilDiv (pic.nbits + (pic.tagOf 1 1).bits.length) 8 ≤ pic.params.wbufCap) ∧
    ((picWith { small with wbufCap := 4 }).Inv ∧ (picWith { small with wbufCap := 4 }).imgValid = true ∧
      ceilDiv ((picWith { small with wbufCap := 4 }).nbits + ((picWith { small with wbufCap := 4 }).tagOf 1 1).bits.length) 8 >
        4) :=
  ⟨by decide, by decide, by decide, by decide, ⟨inv_pic, by decide⟩, inv_of_invB _ (by decide), by decide⟩
theorem witness_BeEncodeRowPutsTheGroups :
    (start.imgValid = false ∧ pic.imgValid = true ∧ pic.height.toNat ≤ (2#32).toNat ∧ pic.riValid = false) ∧
    (encoded.imgValid = true ∧ encoded.riValid = true ∧ encoded.fin = true) ∧
    (indexed.Inv ∧ indexed.imgValid = true ∧ (1#32).toNat < indexed.height.toNat ∧ indexed.riValid = true ∧
      indexed.fin = false ∧ indexed.rowBit 0 = true ∧ indexed.rowBit 1 = false ∧
      ceilDiv (indexed.nbits + (indexed.rowBits 1).length) 8 ≤ indexed.params.wbufCap) :=
  ⟨by decide, by decide, inv_indexed, by decide⟩
/-- A writer of four bytes takes the row's Black group and not its Literal. -/
theorem witness_BeEncodeRowPutsTheGroups_full :
    let s := after .reiBuild (picWith { small with wbufCap := 4 })
    s.Inv ∧ s.rowBit 1 = false ∧ 1 < ceilDiv s.width.toNat 4 ∧
    ceilDiv (s.nbits + ((List.range 1).flatMap fun g => (s.tagOf 1 g).bits).length) 8 ≤ s.params.wbufCap ∧
    ceilDiv (s.nbits + ((List.range (1 + 1)).flatMap fun g => (s.tagOf 1 g).bits).length) 8 > s.params.wbufCap :=
  ⟨inv_of_invB _ (by decide), by decide⟩
theorem witness_ClassificationOfAGroup :
    classify 1 2 3 4 ≠ .white ∧ classify 1 2 3 4 ≠ .black ∧ 1 < pic.height.toNat ∧ 1 < ceilDiv pic.width.toNat 4 ∧
    pic.width.toNat * pic.height.toNat ≤ pic.params.imgCap ∧ pic.width.toNat < 4 * 1 + 4 := by decide
theorem witness_RowBitCountBounds : pic.rowWhite 1 = false := by decide
theorem witness_TagInstructionsFillTheGroup :
    ({ parsed with tagRow := 1, tagGroup := 1 } : State).tagRow.toNat < parsed.height.toNat ∧
    ({ parsed with tagRow := 1, tagGroup := 1 } : State).tagGroup.toNat < ceilDiv parsed.width.toNat 4 ∧
    parsed.width.toNat * parsed.height.toNat ≤ parsed.params.imgCap := by decide
theorem witness_BdDecodeGroupWritesTheGroup :
    (parsed.height.toNat ≤ (2#32).toNat ∧ ceilDiv parsed.width.toNat 4 ≤ (2#32).toNat) ∧
    (parsed.Inv ∧ (1#32).toNat < parsed.height.toNat ∧ (1#32).toNat < ceilDiv parsed.width.toNat 4 ∧
      ∃ rest, parsed.unread = Tag.bits .black ++ rest) ∧
    (starvedParsed.Inv ∧ (0#32).toNat < starvedParsed.height.toNat ∧ (1#32).toNat < ceilDiv starvedParsed.width.toNat 4 ∧
      ∀ tag : Tag, ¬ tag.bits <+: starvedParsed.unread) := by
  refine ⟨by decide, ⟨inv_parsed, by decide, by decide, parsed.unread.drop 2, by decide⟩, inv_starvedParsed, by decide,
    by decide, ?_⟩
  have h : starvedParsed.unread = [] := by decide
  intro tag
  rw [h]
  cases tag <;> simp [Tag.bits]
theorem witness_BdDecodeRowWritesTheRow :
    (start.riValid = false ∧ parsed.riValid = true ∧ parsed.height.toNat ≤ (2#32).toNat) ∧
    (parsed.Inv ∧ (1#32).toNat < parsed.height.toNat ∧ parsed.rowBit 0 = true ∧ parsed.rowBit 1 = false ∧
      [Tag.black, Tag.literal 7 255 255 255].length = groupCount parsed.width.toNat ∧
      ∃ rest, parsed.unread = tagBits [Tag.black, Tag.literal 7 255 255 255] ++ rest) ∧
    (starvedParsed.Inv ∧ starvedParsed.riValid = true ∧ (0#32).toNat < starvedParsed.height.toNat ∧
      starvedParsed.rowBit 0 = false ∧
      ∀ tags : List Tag, tags.length = groupCount starvedParsed.width.toNat → ¬ tagBits tags <+: starvedParsed.unread) := by
  refine ⟨by decide, ⟨inv_parsed, by decide, by decide, by decide, by decide, parsed.unread.drop 36, by decide⟩,
    inv_starvedParsed, by decide, by decide, by decide, ?_⟩
  have h : starvedParsed.unread = [] := by decide
  have h2 : groupCount starvedParsed.width.toNat = 2 := by decide
  intro tags hl
  rw [h]
  rw [h2] at hl
  match tags, hl with
  | t :: _, _ => cases t <;> simp [tagBits, Tag.bits]
theorem witness_CfAssembleWritesTheContainer :
    (start.riValid = false ∧ indexed.riValid = true ∧ indexed.fin = false) ∧
    (let s := after .bwFinish (after .reiBuild (picWith { small with soutCap := 19 }))
     s.riValid = true ∧ s.fin = true ∧ 19 + s.riCount.toNat + s.bwLen.toNat > s.params.soutCap) ∧
    (encoded.Inv ∧ encoded.riValid = true ∧ encoded.fin = true ∧
      19 + encoded.riCount.toNat + encoded.bwLen.toNat ≤ encoded.params.soutCap) :=
  ⟨by decide, by decide, inv_encoded, by decide⟩
/-- The checks of CF_PARSE, each failing first on some bytes, and a container that passes all (V-CF-4). -/
theorem witness_CfParseChecksThenCommits :
    start.Inv ∧ start.parseError 41 = some .sliceOutOfRange ∧ start.parseError 18 = some .tooShort ∧
    ({ start with sin := cells 0 [0x41, 0x42] } : State).parseError 19 = some .badMagic ∧
    ({ start with sin := cells 0 [0x42, 0x41, 2] } : State).parseError 19 = some .badVersion ∧
    received.parseError 24 = some .truncated ∧
    ({ received with sin := cells 0 (stream.set 6 0x80) } : State).parseError 25 = some .badDimensions ∧
    ({ received with sin := cells 0 (stream.set 7 9) } : State).parseError 25 = some .badRowIndexCount ∧
    ({ received with sin := cells 0 (stream.set 3 11) } : State).parseError 25 = some .imageCapacity ∧
    received.Inv ∧ received.parseError 25 = none :=
  ⟨inv_start, by decide, by decide, by decide, by decide, by decide, by decide, by decide, by decide, inv_received,
    by decide⟩
theorem witness_FailingParseReadsOnlyTheHeader :
    received.parseError (24#32).toNat = some .truncated ∧
    (∀ a < 19, { received with sin := cells 0 (stream.take 19) }.byte .sin a = received.byte .sin a) ∧
    exec (.cfParse 24) received = .next (after (.cfParse 24) received) := by
  refine ⟨by decide, fun a h => ?_, exec_eq_next_after _ _ (by decide)⟩
  have : memGet (cells 0 (stream.take 19)) a = memGet received.sin a := by revert a; decide
  simp only [State.byte, State.mem, State.unlisted, this]
theorem witness_CfEncodeWritesTheContainer :
    pic.Inv ∧ pic.imgValid = true ∧ ceilDiv pic.imageBits.length 8 ≤ pic.params.wbufCap ∧
    pic.container.length ≤ pic.params.soutCap := ⟨inv_pic, by decide⟩
theorem witness_FailingCfEncodeHandsOverNothing :
    start.imgValid = false ∧
    (let s := picWith { small with wbufCap := 4 }
     s.Inv ∧ s.imgValid = true ∧ ceilDiv s.imageBits.length 8 > s.params.wbufCap) ∧
    (let s := picWith { small with soutCap := 24 }
     s.Inv ∧ s.imgValid = true ∧ ceilDiv s.imageBits.length 8 ≤ s.params.wbufCap ∧
       s.container.length > s.params.soutCap) :=
  ⟨by decide, ⟨inv_of_invB _ (by decide), by decide⟩, inv_of_invB _ (by decide), by decide⟩
theorem witness_CfDecodeWritesTheImage :
    received.Inv ∧ received.parseError (25#32).toNat = none ∧
    received.HoldsTags [[], [.black, .literal 7 255 255 255]] :=
  ⟨inv_received, by decide, by decide, by decide, by decide⟩
theorem witness_FailingCfDecodeHandsOverNothing :
    (received.Inv ∧ received.parseError (24#32).toNat = some .truncated) ∧
    (starved.Inv ∧ starved.parseError (20#32).toNat = none ∧ ∀ rows, ¬ starved.HoldsTags rows) := by
  refine ⟨⟨inv_received, by decide⟩, inv_starved, by decide, fun rows h => ?_⟩
  obtain ⟨hc, hg, hb⟩ := h
  have h1 : starved.sinLe32 7 = 1 := by decide
  have h2 : starved.sinRowBit 0 = false := by decide
  have h3 : groupCount (starved.sinLe32 3) = 2 := by decide
  have h4 : bitsOf (starved.bytes .sin (19 + starved.sinLe32 11) (starved.sinLe32 15)) = [] := by decide
  rw [h1] at hc
  rw [h4] at hb
  match rows, hc with
  | [r], _ =>
    have hr := hg 0 (by simp)
    rw [h2, h3] at hr
    match r, hr with
    | t :: _, _ => cases t <;> simp [tagBits, Tag.bits] at hb
theorem witness_DecodeOfEncodedImageIsTheImage :
    pic.Inv ∧ pic.imgValid = true ∧ exec .cfEncode pic = .next encoded ∧ encoded.status = 0x0000#16 ∧
    encoded.result.toNat ≤ pic.params.sinCap ∧ { encoded with img := [], sin := cells 0 stream }.Inv ∧
    ∀ a < encoded.result.toNat, { encoded with img := [], sin := cells 0 stream }.byte .sin a = encoded.byte .sout a := by
  refine ⟨inv_pic, by decide, exec_eq_next_after _ _ (by decide), by decide, by decide, inv_of_invB _ (by decide),
    fun a h => ?_⟩
  have h2 : ∀ a < encoded.result.toNat, memGet (cells 0 stream) a = memGet encoded.sout a ∧ (memGet encoded.sout a).isSome := by
    decide
  obtain ⟨h3, h4⟩ := h2 a h
  obtain ⟨v, hv⟩ := Option.isSome_iff_exists.mp h4
  simp only [State.byte, State.mem, h3, hv, Option.getD_some]
theorem witness_StepwiseEncodeAgrees :
    let s : State := { start with img := cells 0 pixels }
    s.Inv ∧ exec (.imgdesc 5 2) s = .next pic ∧ pic.status = 0x0000#16 ∧ exec .cfEncode pic = .next encoded ∧
    encoded.status = 0x0000#16 :=
  ⟨inv_of_invB _ (by decide), exec_eq_next_after _ _ (by decide), by decide, exec_eq_next_after _ _ (by decide), by decide⟩
theorem witness_StepwiseDecodeAgrees :
    received.Inv ∧ exec (.cfDecode 25) received = .next (after (.cfDecode 25) received) ∧
    (after (.cfDecode 25) received).status = 0x0000#16 :=
  ⟨inv_received, exec_eq_next_after _ _ (by decide), by decide⟩
theorem witness_EveryStepKeepsTheInvariants :
    start.Inv ∧ step start = .next start := ⟨inv_start, rfl⟩
theorem witness_NoCommandLeavesItsSpace :
    { pic with port := [.command 0x62_00_00000000_00000000#80] }.Inv ∧
    { pic with port := [.command 0x62_00_00000000_00000000#80] }.commandNext :=
  ⟨inv_of_invB _ (by decide), _, _, rfl⟩
/-- One exec that answers a next state meets the hypotheses of the statements about every instruction. -/
theorem witness_SpacesAndRegisters : exec .cfEncode pic = .next encoded ∧ Instr.cfEncode ≠ .srst ∧ pic.Inv :=
  ⟨exec_eq_next_after _ _ (by decide), by decide, inv_pic⟩
theorem witness_NothingBeyondTheImageIsWritten :
    received.Inv ∧ exec (.cfDecode 25) received = .next (after (.cfDecode 25) received) ∧
    (after (.cfDecode 25) received).width.toNat * (after (.cfDecode 25) received).height.toNat ≤ 10 :=
  ⟨inv_received, exec_eq_next_after _ _ (by decide), by decide⟩

end Tests
end Sys2Proof
end

section
/-! PROOFS. The container header's layout and the reset state: le32 inverts le32Bytes, every header field is found at its
offset, and the invariants hold at reset. -/

namespace Sys2Proof
namespace Machine

/-! ### Little-endian words -/

/-- A little-endian word is four bytes. -/
@[simp] theorem le32Bytes_length (v : Word32) : (le32Bytes v).length = 4 := rfl

/-- LE32 inverts LE32bytes, whatever follows the four bytes (R10). -/
@[simp] theorem le32_le32Bytes_append (v : Word32) (rest : List Byte) : le32 (le32Bytes v ++ rest) = v.toNat := by
  have digits : le32 (le32Bytes v ++ rest) =
      v.toNat % 256 + 256 * (v.toNat / 256 % 256) + 65536 * (v.toNat / 65536 % 256) +
        16777216 * (v.toNat / 16777216 % 256) := by
    simp [le32, le32Bytes, BitVec.extractLsb'_toNat, Nat.shiftRight_eq_div_pow]
  have bound : v.toNat < 4294967296 := v.isLt
  omega

/-- LE32 inverts LE32bytes (R10). -/
@[simp] theorem le32_le32Bytes (v : Word32) : le32 (le32Bytes v) = v.toNat := by
  simpa using le32_le32Bytes_append v []

/-! ### The header (R102) -/

section Header
variable (w h r b : Word32)

/-- A header has `HEADER_LEN` bytes (R5). -/
@[simp] theorem headerBytes_length : (headerBytes w h r b).length = 19 := rfl

/-- A header begins with the magic and the version. -/
theorem headerBytes_take_three :
    (headerBytes w h r b).take 3 = [Config.magic0, Config.magic1, Config.formatVersion] := rfl

theorem headerBytes_drop_width :
    (headerBytes w h r b).drop 3 = le32Bytes w ++ (le32Bytes h ++ (le32Bytes r ++ le32Bytes b)) := rfl

theorem headerBytes_drop_height :
    (headerBytes w h r b).drop 7 = le32Bytes h ++ (le32Bytes r ++ le32Bytes b) := rfl

theorem headerBytes_drop_riCount : (headerBytes w h r b).drop 11 = le32Bytes r ++ le32Bytes b := rfl

theorem headerBytes_drop_bsCount : (headerBytes w h r b).drop 15 = le32Bytes b := rfl

end Header

/-! ### The reset state (R37) -/

/-- Reset leaves no bit in the writer. -/
@[simp] theorem resetWith_nbits (p : Params) : (State.resetWith p).nbits = 0 := rfl

/-- The capacities of `State.reset` are legal (R6, log 2). -/
theorem default_legal : Params.default.Legal := by decide

/-- Reset establishes the invariants: every register is 0, so each bound is one on 0 and each clause about a held bitmap,
a finished writer or an error has a false premise; no memory lists a byte. -/
theorem resetWith_inv {p : Params} (legal : p.Legal) : (State.resetWith p).Inv where
  params := legal
  dims := ⟨Nat.zero_le _, Nat.zero_le _⟩
  fits := Nat.zero_le _
  positive held := by simp [State.resetWith] at held
  rows held := Bool.noConfusion held
  clean k _ := BitVec.getLsbD_zero
  flushed finished := Bool.noConfusion finished
  room := by simp [ceilDiv]
  slice := Nat.zero_le _
  position := Nat.zero_le _
  atEnd _ := rfl
  stream := Nat.zero_le _
  status := List.mem_cons_self
  failed error := absurd rfl error
  forms := ⟨reset_memWf p .img, reset_memWf p .sin, reset_memWf p .sout, reset_memWf p .wbuf, reset_memWf p .ribuf⟩
  inside := ⟨rfl, rfl, rfl, rfl, rfl⟩
  output a below := absurd below (Nat.not_lt_zero a)
  bitmap held := Bool.noConfusion held

end Machine

namespace Proofs
open Sys2Proof.Machine

/-- Settles O43: a field's four bytes stand first from its offset on, and LE32 reads the first four bytes back. -/
theorem headerLayout : Obligations.HeaderLayout := by
  intro w h r b
  refine ⟨headerBytes_length w h r b, headerBytes_take_three w h r b, ?width, ?height, ?riCount, ?bsCount⟩
  case width => rw [headerBytes_drop_width, le32_le32Bytes_append]
  case height => rw [headerBytes_drop_height, le32_le32Bytes_append]
  case riCount => rw [headerBytes_drop_riCount, le32_le32Bytes_append]
  case bsCount => rw [headerBytes_drop_bsCount, le32_le32Bytes]

/-- Settles O54: reset establishes the invariants for legal parameters, and the default parameters are legal. -/
theorem resetMeetsTheInvariants : Obligations.ResetMeetsTheInvariants :=
  ⟨fun _ legal => resetWith_inv legal, resetWith_inv default_legal⟩

end Proofs
end Sys2Proof
end

section
/-! PROOFS. What each instruction leaves unchanged, over every state: one judgement for "ends short of a fault with `f`
unchanged", its rules for the shared operations, and one frame for each instruction. -/

namespace Sys2Proof
namespace Machine

/-! ### The frame judgement and its rules -/

/-- However `r` ends short of a fault, the state it leaves agrees with `s` in what `f` sees. -/
def Res.Keeps {α β : Type} (f : State → β) (s : State) : Res α → Prop
  | .ok _ t => f t = f s
  | .raise _ t => f t = f s
  | .fault _ => True

section Rules
variable {α β γ : Type} {f : State → γ} {s : State}

/-- What is kept from a state is kept from any other that agrees with it. -/
theorem Res.Keeps.rebase {r : Res α} {t : State} (kept : r.Keeps f t) (same : f t = f s) : r.Keeps f s := by
  cases r with
  | ok a u => exact Eq.trans kept same
  | raise c u => exact Eq.trans kept same
  | fault d => trivial

/-- A sequence keeps what both its parts keep. -/
theorem Res.Keeps.bind {r : Res α} {k : α → State → Res β} (first : r.Keeps f s)
    (second : ∀ a t, (k a t).Keeps f t) : (r.bind k).Keeps f s := by
  cases r with
  | ok a t => exact (second a t).rebase first
  | raise c t => exact first
  | fault d => trivial

/-- A normal end keeps `f` when its state does. -/
theorem Res.Keeps.ok {a : α} {t : State} (same : f t = f s) : (Res.ok a t).Keeps f s := same

/-- Computing a value from the one returned keeps what was kept. -/
theorem Res.Keeps.returning {r : Res α} {g : α → State → β} (body : r.Keeps f s) :
    (r.bind fun a t => .ok (g a t) t).Keeps f s :=
  body.bind fun _ _ => rfl

/-- A check keeps everything, so a checked operation keeps what the operation keeps. -/
theorem Res.Keeps.check {b : Bool} {c : Cause} {k : Unit → State → Res β} (rest : (k () s).Keeps f s) :
    ((raiseIf b c s).bind k).Keeps f s := by
  cases b with
  | true => exact rfl
  | false => exact rest

/-- Handling a raise keeps what the operation and the handler keep. -/
theorem Res.Keeps.onRaise {r : Res α} {h : State → Res Unit} (body : r.Keeps f s)
    (handler : ∀ t, (h t).Keeps f t) : (r.onRaise h).Keeps f s := by
  cases r with
  | ok a t => exact body
  | raise c t =>
    have after : ((h t).bind fun _ u => (.raise c u : Res α)).Keeps f t := (handler t).bind fun _ _ => rfl
    exact after.rebase body
  | fault d => trivial

/-- A loop keeps what every turn keeps. -/
theorem forLoop_keeps_frame {body : Nat → State → Res Unit} (turn : ∀ j t, (body j t).Keeps f t) (k i : Nat)
    (s : State) : (forLoop body k i s).Keeps f s := by
  induction k generalizing i s with
  | zero => exact rfl
  | succ k ih => exact (turn i s).bind fun _ t => ih (i + 1) t

/-- A command keeps what its body keeps, if that is neither STATUS nor RESULT nor the response. -/
theorem complete_keeps {r : Res Word32} {t : State} (e : complete r = .next t)
    (ends : ∀ u w v, f (State.endCommand w v u) = f u) (body : r.Keeps f s) : f t = f s := by
  rcases complete_next e with ⟨v, u, rfl, rfl⟩ | ⟨c, u, rfl, rfl⟩
  · exact (ends u _ _).trans body
  · exact (ends u _ _).trans body

end Rules

/-! ### The shared operations -/

section Shared
variable {γ : Type} {f : State → γ}

/-- A read keeps everything. -/
theorem memRead_keeps (sp : Space) (a : Nat) (s : State) : (memRead sp a s).Keeps f s := by
  rcases memRead_cases sp a s with ⟨-, e⟩ | ⟨-, e⟩ <;> rw [e]
  · exact rfl
  · trivial

/-- Reading bytes keeps everything. -/
theorem memReadBytes_keeps (sp : Space) (n a : Nat) (s : State) : (memReadBytes sp n a s).Keeps f s := by
  induction n generalizing a s with
  | zero => exact rfl
  | succ n ih => exact (memRead_keeps sp a s).bind fun _ t => (ih (a + 1) t).returning

/-- Reading a row's bit keeps everything. -/
theorem rixBit_keeps (y : Nat) (s : State) : (rixBit y s).Keeps f s := (memRead_keeps _ _ s).returning

/-- A write keeps all that the contents of its space are no part of. -/
theorem memWrite_keeps {sp : Space} (free : ∀ t m, f (State.setMem t sp m) = f t) (a : Nat) (v : Byte) (s : State) :
    (memWrite sp a v s).Keeps f s := by
  rcases memWrite_cases sp a v s with ⟨-, e⟩ | ⟨-, e⟩ <;> rw [e]
  · exact free s _
  · trivial

/-- Writing bytes keeps all that the contents of their space are no part of. -/
theorem memWriteBytes_keeps {sp : Space} (free : ∀ t m, f (State.setMem t sp m) = f t) (a : Nat) (bs : List Byte)
    (s : State) : (memWriteBytes sp a bs s).Keeps f s := by
  rcases memWriteBytes_cases sp a bs s with ⟨e, -⟩ | ⟨_, e⟩ <;> rw [e]
  · exact free s _
  · trivial

/-- What is no part of the Bit Writer's state, WBUF included. -/
structure SparesWriter (f : State → γ) : Prop where
  registers : ∀ s n c k, f (State.withWriter n c k s) = f s
  buffer : ∀ s m, f (State.setMem s .wbuf m) = f s

/-- Emitting bits keeps what is no part of the writer. -/
theorem bwEmitAll_keeps (spares : SparesWriter f) (bs : List Bool) (s : State) : (bwEmitAll bs s).Keeps f s := by
  induction bs generalizing s with
  | nil => exact rfl
  | cons b bs ih =>
    refine Res.Keeps.bind ?_ fun _ t => ih t
    rcases bwEmit_cases b s with ⟨-, e⟩ | ⟨-, -, e⟩ | ⟨-, -, e⟩ <;> rw [e]
    · exact spares.registers s _ _ _
    · exact (spares.registers _ _ _ _).trans (spares.buffer s _)
    · trivial

/-- A put keeps what is no part of the writer. -/
theorem bwPut_keeps (spares : SparesWriter f) (bs : List Bool) (s : State) : (bwPut bs s).Keeps f s :=
  .check (bwEmitAll_keeps spares bs s)

/-- A put command's body keeps what is no part of the writer. -/
theorem bwPutOp_keeps (spares : SparesWriter f) (bs : List Bool) (s : State) : (bwPutOp bs s).Keeps f s :=
  .check ((bwPut_keeps spares bs s).returning)

/-- Finishing keeps what is no part of the writer and not FIN. -/
theorem bwFinishOp_keeps (spares : SparesWriter f) (fin : ∀ s : State, f { s with fin := true } = f s) (s : State) :
    (bwFinishOp s).Keeps f s := by
  unfold bwFinishOp
  split
  · exact rfl
  · refine Res.Keeps.bind ?_ fun _ t => fin t
    unfold bwFlush
    split
    · exact rfl
    · exact (memWrite_keeps spares.buffer _ _ s).bind fun _ t => spares.registers t _ _ _

/-- Taking bits keeps all but the reader's position. -/
theorem brTakeBits_keeps (reader : ∀ s i k, f (State.withReader i k s) = f s) {w : Nat} (k : Nat) (v : BitVec w)
    (s : State) : (brTakeBits k v s).Keeps f s := by
  obtain ⟨normal, raised⟩ := brTakeBits_frame (k := k) (v := v) (s := s)
  cases e : brTakeBits k v s with
  | ok r t => exact (congrArg f (normal r t e)).trans (reader s t.brIdx t.brCursor)
  | raise c t => exact (congrArg f (raised c t e).2.2).trans (reader s t.brIdx t.brCursor)
  | fault d => trivial

/-- Taking one bit keeps all but the reader's position. -/
theorem brTake_keeps (reader : ∀ s i k, f (State.withReader i k s) = f s) (s : State) : (brTake s).Keeps f s := by
  rcases brTake_cases s with ⟨-, e⟩ | ⟨-, -, e⟩ | ⟨-, -, e⟩ <;> rw [e]
  · exact rfl
  · exact (congrArg f (advanceReader_frame s)).trans (reader s s.advanceReader.brIdx s.advanceReader.brCursor)
  · trivial

/-- Fetching a tag keeps all but the reader's position. -/
theorem fetchTag_keeps (reader : ∀ s i k, f (State.withReader i k s) = f s) (s : State) : (fetchTag s).Keeps f s := by
  have byte (t : State) : (brTakeByte t).Keeps f t := brTakeBits_keeps reader 8 _ t
  have payload (t : State) : (fetchPayload t).Keeps f t :=
    (byte t).bind fun _ t => (byte t).bind fun _ t => (byte t).bind fun _ t => (byte t).returning
  refine (brTake_keeps reader s).bind fun b0 t => ?_
  split
  · refine (brTake_keeps reader t).bind fun b1 u => ?_
    split
    · exact payload u
    · exact rfl
  · exact rfl

/-- Leaving bytes of IMG unspecified keeps what is neither IMG nor the count of such draws. -/
theorem unspecifyImg_keeps (img : ∀ s m, f (State.setMem s .img m) = f s)
    (draws : ∀ (s : State) n, f { s with draws := n } = f s) (a n : Nat) (s : State) :
    (unspecifyImg a n s).Keeps f s :=
  (memWriteBytes_keeps img a _ { s with draws := s.draws + 1 }).rebase (draws s _)

/-- Filling a group keeps what IMG is no part of. -/
theorem runTag_keeps (img : ∀ s m, f (State.setMem s .img m) = f s) (t : Tag) (s : State) : (runTag t s).Keeps f s :=
  memWriteBytes_keeps img _ _ s

/-- What is no part of the state a decode changes: the reader's position, IMG, the model's own fields of a decode. -/
structure SparesDecode (f : State → γ) : Prop where
  reader : ∀ s i k, f (State.withReader i k s) = f s
  img : ∀ s m, f (State.setMem s .img m) = f s
  group : ∀ s y g, f (State.atGroup y g s) = f s
  draws : ∀ (s : State) n, f { s with draws := n } = f s

/-- Decoding a group keeps what is no part of a decode's state. -/
theorem bdGroupBody_keeps (spares : SparesDecode f) (y g : Nat) (s : State) : (bdGroupBody y g s).Keeps f s :=
  ((fetchTag_keeps spares.reader _).bind fun t u => (runTag_keeps spares.img t u).returning).rebase (spares.group s _ _)

/-- Decoding a row keeps what is no part of a decode's state. -/
theorem bdDecodeRowOp_keeps (spares : SparesDecode f) (y : Nat) (s : State) : (bdDecodeRowOp y s).Keeps f s := by
  refine .check (.check ((rixBit_keeps y s).bind fun e t => ?_))
  split
  · exact (memWriteBytes_keeps spares.img _ _ t).returning
  · refine Res.Keeps.bind (.onRaise ?_ fun u => unspecifyImg_keeps spares.img spares.draws _ _ u) fun _ _ => rfl
    exact forLoop_keeps_frame (fun g u => (bdGroupBody_keeps spares y g u).returning) _ _ t

/-- Coding a group keeps what is no part of the writer. -/
theorem beGroupBody_keeps (spares : SparesWriter f) (y g : Nat) (s : State) : (beGroupBody y g s).Keeps f s :=
  ((memReadBytes_keeps _ _ _ s).returning).bind fun t u => (bwPut_keeps spares t.bits u).returning

/-- Coding a row keeps what is no part of the writer. -/
theorem beEncodeRowOp_keeps (spares : SparesWriter f) (y : Nat) (s : State) : (beEncodeRowOp y s).Keeps f s := by
  refine .check (.check (.check (.check ((rixBit_keeps y s).bind fun e t => ?_))))
  split
  · exact rfl
  · exact (forLoop_keeps_frame (fun g u => (beGroupBody_keeps spares y g u).returning) _ _ t).bind fun _ _ => rfl

/-- Building the row index keeps what is neither RIBUF nor RI_COUNT nor RI_VALID. -/
theorem reiBuildOp_keeps (ribuf : ∀ s m, f (State.setMem s .ribuf m) = f s)
    (held : ∀ (s : State) n, f { s with riCount := n, riValid := true } = f s) (s : State) :
    (reiBuildOp s).Keeps f s := by
  have row (y : Nat) (t : State) : (reiBuildRow y t).Keeps f t := by
    refine ((memReadBytes_keeps _ _ _ t).returning).bind fun e u => ?_
    split
    · exact (memRead_keeps _ _ u).bind fun _ v => memWrite_keeps ribuf _ _ v
    · exact rfl
  exact .check ((memWriteBytes_keeps ribuf _ _ s).bind fun _ t =>
    (forLoop_keeps_frame row _ _ t).bind fun _ u => held u _)

/-- Assembling keeps what is neither SOUT nor BS_COUNT nor SOUT_LEN. -/
theorem cfAssembleOp_keeps (sout : ∀ s m, f (State.setMem s .sout m) = f s)
    (counts : ∀ (s : State) b n, f { s with bsCount := b, soutLen := n } = f s) (s : State) :
    (cfAssembleOp s).Keeps f s :=
  .check (.check (.check ((memReadBytes_keeps _ _ _ s).bind fun _ t => (memReadBytes_keeps _ _ _ t).bind fun _ u =>
    (memWriteBytes_keeps sout _ _ u).bind fun _ v => counts v _ _)))

end Shared

/-! ### The instructions -/

/-- The state with STATUS, RESULT and the responses cleared. -/
def State.sansOutcome (s : State) : State := { s with status := 0#16, result := 0#32, responses := [] }

/-- The state with the Bit Writer's registers but FIN, and WBUF, cleared. -/
def State.sansWriter (s : State) : State :=
  { s with wbuf := [], wbufDraws := 0, bwLen := 0#32, cur := 0#8, bwCursor := 0#3 }

/-- The state with the Bit Reader's position cleared. -/
def State.sansPosition (s : State) : State := { s with brIdx := 0#32, brCursor := 0#3 }

/-- The state with IMG and the model's own fields of a decode cleared. -/
def State.sansDecode (s : State) : State := { s with img := [], tagRow := 0#32, tagGroup := 0#32, draws := 0 }

/-- The state with the row index cleared. -/
def State.sansIndex (s : State) : State := { s with ribuf := [], riCount := 0#32, riValid := false }

/-- The state with SOUT and the counts of a container cleared. -/
def State.sansContainer (s : State) : State := { s with sout := [], bsCount := 0#32, soutLen := 0#32 }

/-- The state with all that CF_PARSE commits cleared. -/
def State.sansParse (s : State) : State :=
  { s.sansIndex.sansPosition with
    width := 0#32, height := 0#32, bsCount := 0#32, imgValid := false, brBase := 0#32, brLen := 0#32 }

/-- The state with all that an instruction may write cleared, its outcome included (the write sets of R22 and R61 to
R65). -/
def unwritten (i : Instr) (s : State) : State :=
  match i with
  | .nop => { s with responses := [] }
  | .rdreg _ => { s with responses := [] }
  | .srst => s.resetRegisters.sansOutcome
  | .imgdesc _ _ => { s.sansOutcome with width := 0#32, height := 0#32, imgValid := false, riValid := false }
  | .imgrel => { s.sansOutcome with imgValid := false, riValid := false }
  | .bwInit => { s.sansOutcome.sansWriter with fin := false }
  | .bwPutbit _ => s.sansOutcome.sansWriter
  | .bwPutbits _ _ => s.sansOutcome.sansWriter
  | .bwPutbyte _ => s.sansOutcome.sansWriter
  | .bwFinish => { s.sansOutcome.sansWriter with fin := false }
  | .brInit _ _ => { s.sansOutcome.sansPosition with brBase := 0#32, brLen := 0#32 }
  | .brGetbit => s.sansOutcome.sansPosition
  | .brGetbits _ => s.sansOutcome.sansPosition
  | .brGetbyte => s.sansOutcome.sansPosition
  | .reiBuild => s.sansOutcome.sansIndex
  | .reiTest _ => s.sansOutcome
  | .beEncodeGroup _ _ => s.sansOutcome.sansWriter
  | .beEncodeRow _ => s.sansOutcome.sansWriter
  | .bdDecodeGroup _ _ => s.sansOutcome.sansPosition.sansDecode
  | .bdDecodeRow _ => s.sansOutcome.sansPosition.sansDecode
  | .cfAssemble => s.sansOutcome.sansContainer
  | .cfParse _ => s.sansOutcome.sansParse
  | .cfEncode => { s.sansOutcome.sansWriter.sansIndex.sansContainer with fin := false }
  | .cfDecode _ => s.sansOutcome.sansParse.sansDecode
  | .tagWhite => { s with img := [] }
  | .tagBlack => { s with img := [] }
  | .tagLiteral _ _ _ _ => { s with img := [] }

/-- CF_PARSE keeps what none of its commits is a part of (R221). -/
theorem cfParseOp_keeps {γ : Type} {f : State → γ} (ribuf : ∀ s m, f (State.setMem s .ribuf m) = f s)
    (header : ∀ (s : State) w h r b, f { s with width := w, height := h, riCount := r, bsCount := b } = f s)
    (slice : ∀ (s : State) base len, f ({ s with riValid := true, imgValid := false }.wrapSlice base len) = f s)
    (l : Nat) (s : State) : (cfParseOp l s).Keeps f s := by
  have commit (w h r b : Nat) (t : State) : (cfParseCommit w h r b t).Keeps f t :=
    ((memReadBytes_keeps _ _ _ _).bind fun _ u =>
      (memWriteBytes_keeps ribuf _ _ u).bind fun _ v => .ok (slice v _ _)).rebase (header t _ _ _ _)
  have word (a : Nat) (t : State) : (readLe32 a t).Keeps f t := (memReadBytes_keeps _ _ _ t).returning
  exact .check (.check ((memRead_keeps _ _ _).bind fun _ _ => (memRead_keeps _ _ _).bind fun _ _ =>
    .check ((memRead_keeps _ _ _).bind fun _ _ => .check ((word _ _).bind fun _ _ => (word _ _).bind fun _ _ =>
      (word _ _).bind fun _ _ => (word _ _).bind fun _ _ => .check (.check (.check (.check (commit _ _ _ _ _)))))))) 

/-- CF_ENCODE keeps what is no part of the writer, the row index or the container (R223, R225). -/
theorem cfEncodeOp_keeps {γ : Type} {f : State → γ} (writer : SparesWriter f)
    (fin : ∀ (s : State) b, f { s with fin := b } = f s)
    (ribuf : ∀ s m, f (State.setMem s .ribuf m) = f s)
    (held : ∀ (s : State) n, f { s with riCount := n, riValid := true } = f s)
    (sout : ∀ s m, f (State.setMem s .sout m) = f s)
    (counts : ∀ (s : State) b n, f { s with bsCount := b, soutLen := n } = f s) (s : State) :
    (cfEncodeOp s).Keeps f s := by
  have init (t : State) : (bwInitOp t).Keeps f t :=
    (fin (t.withWriter 0#32 0#8 0#3) false).trans (writer.registers t _ _ _)
  exact .check ((init s).bind fun _ t => (reiBuildOp_keeps ribuf held t).bind fun _ u =>
    (forLoop_keeps_frame (fun y v => (beEncodeRowOp_keeps writer y v).returning) _ _ u).bind fun _ v =>
    (bwFinishOp_keeps writer (fin · true) v).bind fun _ x => cfAssembleOp_keeps sout counts x)

/-- A tag changes IMG alone (R201). -/
theorem tagOutcome_keeps {t : Tag} {s u : State} (e : tagOutcome (runTag t s) = .next u) :
    { u with img := [] } = { s with img := [] } := by
  have kept : (runTag t s).Keeps (fun v => { v with img := [] }) s := runTag_keeps (fun _ _ => rfl) t s
  unfold runTag at e kept
  rcases memWriteBytes_cases .img (pixelAddr s.width.toNat (4 * s.tagGroup.toNat) s.tagRow.toNat)
    (tagPixels (validCount s.width.toNat s.tagGroup.toNat) t) s with ⟨e1, -⟩ | ⟨_, e1⟩ <;> rw [e1] at e kept
  · cases e; exact kept
  · cases e

/-- An instruction that ends by `complete` changes only what it may write, if its body does. -/
theorem unwritten_of_complete {i : Instr} {r : Res Word32} {s t : State} (e : complete r = .next t)
    (ends : ∀ u w v, unwritten i (State.endCommand w v u) = unwritten i u) (body : r.Keeps (unwritten i) s) :
    unwritten i t = unwritten i s := complete_keeps e ends body

/-- An instruction that ends changes only what it may write (R22, R60 to R65). -/
theorem exec_keeps_unwritten {i : Instr} {s t : State} (e : exec i s = .next t) : unwritten i t = unwritten i s := by
  cases i with
  | nop => cases e; rfl
  | rdreg r => cases e; rfl
  | srst => cases e; rfl
  | imgdesc w h => exact unwritten_of_complete e (fun _ _ _ => rfl) (.check (.check (.check (.ok rfl))))
  | imgrel => cases e; rfl
  | bwInit => cases e; rfl
  | bwPutbit b =>
    exact unwritten_of_complete e (fun _ _ _ => rfl) (bwPutOp_keeps ⟨fun _ _ _ _ => rfl, fun _ _ => rfl⟩ _ s)
  | bwPutbits n v =>
    exact unwritten_of_complete e (fun _ _ _ => rfl)
      (.check (bwPutOp_keeps ⟨fun _ _ _ _ => rfl, fun _ _ => rfl⟩ _ s))
  | bwPutbyte v =>
    exact unwritten_of_complete e (fun _ _ _ => rfl) (bwPutOp_keeps ⟨fun _ _ _ _ => rfl, fun _ _ => rfl⟩ _ s)
  | bwFinish =>
    exact unwritten_of_complete e (fun _ _ _ => rfl)
      (bwFinishOp_keeps ⟨fun _ _ _ _ => rfl, fun _ _ => rfl⟩ (fun _ => rfl) s)
  | brInit base len => exact unwritten_of_complete e (fun _ _ _ => rfl) (.check (.ok rfl))
  | brGetbit =>
    exact unwritten_of_complete e (fun _ _ _ => rfl) ((brTake_keeps (fun _ _ _ => rfl) s).returning)
  | brGetbits k =>
    exact unwritten_of_complete e (fun _ _ _ => rfl) (.check (brTakeBits_keeps (fun _ _ _ => rfl) _ _ s))
  | brGetbyte => exact unwritten_of_complete e (fun _ _ _ => rfl) (brTakeBits_keeps (fun _ _ _ => rfl) _ _ s)
  | reiBuild => exact unwritten_of_complete e (fun _ _ _ => rfl) (reiBuildOp_keeps (fun _ _ => rfl) (fun _ _ => rfl) s)
  | reiTest y =>
    exact unwritten_of_complete e (fun _ _ _ => rfl)
      (.check (.check (rixBit_keeps y.toNat s).returning))
  | beEncodeGroup y g =>
    exact unwritten_of_complete e (fun _ _ _ => rfl)
      (.check (.check (.check (.check (beGroupBody_keeps ⟨fun _ _ _ _ => rfl, fun _ _ => rfl⟩ _ _ s)))))
  | beEncodeRow y =>
    exact unwritten_of_complete e (fun _ _ _ => rfl) (beEncodeRowOp_keeps ⟨fun _ _ _ _ => rfl, fun _ _ => rfl⟩ _ s)
  | bdDecodeGroup y g =>
    exact unwritten_of_complete e (fun _ _ _ => rfl)
      (.check (.check (.onRaise
        (bdGroupBody_keeps ⟨fun _ _ _ => rfl, fun _ _ => rfl, fun _ _ _ => rfl, fun _ _ => rfl⟩ _ _ s)
        (unspecifyImg_keeps (fun _ _ => rfl) (fun _ _ => rfl) _ _))))
  | bdDecodeRow y =>
    exact unwritten_of_complete e (fun _ _ _ => rfl)
      (bdDecodeRowOp_keeps ⟨fun _ _ _ => rfl, fun _ _ => rfl, fun _ _ _ => rfl, fun _ _ => rfl⟩ _ s)
  | cfAssemble =>
    exact unwritten_of_complete e (fun _ _ _ => rfl) (cfAssembleOp_keeps (fun _ _ => rfl) (fun _ _ _ => rfl) s)
  | cfParse l =>
    exact unwritten_of_complete e (fun _ _ _ => rfl)
      (cfParseOp_keeps (fun _ _ => rfl) (fun _ _ _ _ _ => rfl) (fun _ _ _ => rfl) _ s)
  | cfEncode =>
    exact unwritten_of_complete e (fun _ _ _ => rfl)
      (.onRaise (cfEncodeOp_keeps ⟨fun _ _ _ _ => rfl, fun _ _ => rfl⟩ (fun _ _ => rfl) (fun _ _ => rfl)
        (fun _ _ => rfl) (fun _ _ => rfl) (fun _ _ _ => rfl) s) fun _ => .ok rfl)
  | cfDecode l =>
    refine unwritten_of_complete e (fun _ _ _ => rfl)
      ((cfParseOp_keeps (fun _ _ => rfl) (fun _ _ _ _ _ => rfl) (fun _ _ _ => rfl) _ s).bind fun _ t =>
        Res.Keeps.bind (.onRaise ?_ (unspecifyImg_keeps (fun _ _ => rfl) (fun _ _ => rfl) _ _)) fun _ _ => .ok rfl)
    exact forLoop_keeps_frame (fun y u => (bdDecodeRowOp_keeps
      ⟨fun _ _ _ => rfl, fun _ _ => rfl, fun _ _ _ => rfl, fun _ _ => rfl⟩ y u).returning) _ _ t
  | tagWhite => exact tagOutcome_keeps e
  | tagBlack => exact tagOutcome_keeps e
  | tagLiteral p q r v => exact tagOutcome_keeps e

end Machine

namespace Proofs
open Sys2Proof.Machine

/-- Settles O59: no instruction's write set holds the parameters or the port. -/
theorem noInstructionChangesParametersOrPort : Obligations.NoInstructionChangesParametersOrPort := by
  intro i s t e
  have kept := exec_keeps_unwritten e
  have params (u : State) : (unwritten i u).params = u.params := by cases i <;> rfl
  have port (u : State) : (unwritten i u).port = u.port := by cases i <;> rfl
  exact ⟨(params t).symm.trans ((congrArg State.params kept).trans (params s)),
    (port t).symm.trans ((congrArg State.port kept).trans (port s))⟩

/-- Settles O58: a register outside an instruction's write set keeps its value. -/
theorem registersWrittenOnlyByTheirCommands : Obligations.RegistersWrittenOnlyByTheirCommands := by
  intro i s t e notReset
  have kept := exec_keeps_unwritten e
  cases i
  case srst => exact absurd rfl notReset
  -- The frame, read field by field, names the registers that kept their values; the others are those of the row.
  all_goals
    simp only [unwritten, State.sansOutcome, State.sansWriter, State.sansPosition, State.sansDecode, State.sansIndex,
      State.sansContainer, State.sansParse, State.mk.injEq] at kept
    simp [kept, writesStatus]

end Proofs
end Sys2Proof
end

section
/-! PROOFS. What keeps the invariants, one lemma for each update of the state, and the Bit Writer: a put of bits that fit
appends exactly them, and a flush leaves the bytes they pack into. -/

namespace Sys2Proof
namespace Machine

/-! ### Bits and numbers -/

/-- `ceil(n / 8)` bytes hold at most `c` bytes exactly when the bits fit `c` bytes. -/
theorem ceilDiv_eight_le (n c : Nat) : ceilDiv n 8 ≤ c ↔ n ≤ 8 * c := by
  unfold ceilDiv
  omega

/-- The bits of a value by their index. -/
theorem msbBits_eq_map {w : Nat} (n : Nat) (v : BitVec w) :
    msbBits n v = (List.range n).map fun i => v.getLsbD (n - 1 - i) := by
  induction n with
  | zero => rfl
  | succ n ih =>
    rw [msbBits, ih, List.range_succ_eq_map, List.map_cons, List.map_map]
    refine congrArg₂ List.cons (by simp) (List.map_congr_left fun i _ => ?_)
    simp only [Function.comp_apply]
    congr 1
    omega

@[simp] theorem msbBits_length {w : Nat} (n : Nat) (v : BitVec w) : (msbBits n v).length = n := by
  simp [msbBits_eq_map]

/-- The first bits of a byte. -/
theorem msbBits_take {k : Nat} (hk : k ≤ 8) (v : Byte) :
    (msbBits 8 v).take k = (List.range k).map fun i => v.getLsbD (7 - i) := by
  rw [msbBits_eq_map, ← List.map_take, List.take_range, Nat.min_eq_left hk]

/-- A bit of the number whose bits are `bs`, counted from the last of them. -/
theorem getLsbD_msbValue {w : Nat} (bs : List Bool) (j : Nat) :
    (msbValue bs : BitVec w).getLsbD j = (decide (j < w) && bs.reverse.getD j false) := by
  suffices reversed : ∀ (cs : List Bool) (j : Nat),
      (msbValue cs.reverse : BitVec w).getLsbD j = (decide (j < w) && cs.getD j false) by
    simpa using reversed bs.reverse j
  intro cs
  induction cs with
  | nil => simp [msbValue]
  | cons c cs ih =>
    intro j
    have last : (msbValue (c :: cs).reverse : BitVec w) = shiftIn (msbValue cs.reverse) c := by simp [msbValue]
    rw [last, shiftIn]
    cases j with
    | zero => cases c <;> simp
    | succ j => simp [ih]; grind

/-- The value of a byte's bits is the byte. -/
@[simp] theorem msbValue_msbBits (v : Byte) : (msbValue (msbBits 8 v) : Byte) = v := by
  refine BitVec.eq_of_getLsbD_eq fun j hj => ?_
  rw [getLsbD_msbValue, List.getD_eq_getElem?_getD, List.getElem?_reverse (by simpa using hj)]
  simp [msbBits_eq_map, hj]
  grind

@[simp] theorem bitsOf_nil : bitsOf [] = [] := rfl

@[simp] theorem bitsOf_cons (b : Byte) (bs : List Byte) : bitsOf (b :: bs) = msbBits 8 b ++ bitsOf bs := rfl

@[simp] theorem bitsOf_append (as bs : List Byte) : bitsOf (as ++ bs) = bitsOf as ++ bitsOf bs := by simp [bitsOf]

@[simp] theorem bitsOf_length (bs : List Byte) : (bitsOf bs).length = 8 * bs.length := by
  induction bs with
  | nil => rfl
  | cons b bs ih => simp [ih]; omega

/-! ### Updates that keep the invariants -/

section Invariant
variable {s : State}

/-- Every cause but InvalidTag gives a status word that a command can leave (R100, R280 to R284). -/
theorem causeStatus_legal {c : Cause} (raised : c ≠ .invalidTag) : causeStatus c ∈ legalStatuses := by
  cases c
  case invalidTag => exact absurd rfl raised
  all_goals decide

/-- The end of a command keeps the invariants (R285, R286). -/
theorem State.Inv.endCommand (h : s.Inv) {w : BitVec 16} {v : Word32} (legal : w ∈ legalStatuses)
    (failed : w ≠ statusOk → v = 0#32) : (s.endCommand w v).Inv :=
  { h with status := legal, failed := failed }

/-- A response alone keeps the invariants. -/
theorem State.Inv.respond (h : s.Inv) (w : BitVec 16) (v : Word32) : (s.respond w v).Inv := { h with }

/-- What the host does next is no part of the invariants. -/
theorem State.Inv.withPort (h : s.Inv) (p : List HostAction) : { s with port := p }.Inv := { h with }

/-- The count of draws from IMG's free bytes is no part of the invariants. -/
theorem State.Inv.withDraws (h : s.Inv) (n : Nat) : { s with draws := n }.Inv := { h with }

/-- The group the Block Decoder is at is no part of the invariants. -/
theorem State.Inv.atGroup (h : s.Inv) (y g : Word32) : (s.atGroup y g).Inv := { h with }

/-- A memory in canonical form, inside its space, that still lists every address listed before, may replace the contents
of any space. -/
theorem State.Inv.setMem (h : s.Inv) {sp : Space} {m : Memory} (form : m.wf = true)
    (inside : m.within (s.params.cap sp) = true)
    (listed : ∀ a, (memGet (s.mem sp) a).isSome = true → (memGet m a).isSome = true) : (s.setMem sp m).Inv := by
  obtain ⟨fi, fs, fo, fw, fr⟩ := h.forms
  obtain ⟨ii, is, io, iw, ir⟩ := h.inside
  cases sp with
  | img => exact { h with forms := ⟨form, fs, fo, fw, fr⟩, inside := ⟨inside, is, io, iw, ir⟩ }
  | sin => exact { h with forms := ⟨fi, form, fo, fw, fr⟩, inside := ⟨ii, inside, io, iw, ir⟩ }
  | sout => exact { h with forms := ⟨fi, fs, form, fw, fr⟩, inside := ⟨ii, is, inside, iw, ir⟩ }
  | wbuf =>
    exact { h with
      forms := ⟨fi, fs, fo, form, fr⟩, inside := ⟨ii, is, io, inside, ir⟩
      output := fun a below => listed a (h.output a below) }
  | ribuf =>
    exact { h with
      forms := ⟨fi, fs, fo, fw, form⟩, inside := ⟨ii, is, io, iw, inside⟩
      bitmap := fun held a below => listed a (h.bitmap held a below) }

/-- Every memory is in its canonical form. -/
theorem State.Inv.wf (h : s.Inv) (sp : Space) : (s.mem sp).wf = true := by
  obtain ⟨fi, fs, fo, fw, fr⟩ := h.forms
  cases sp <;> assumption

/-- No memory lists an address outside its space. -/
theorem State.Inv.within (h : s.Inv) (sp : Space) : (s.mem sp).within (s.params.cap sp) = true := by
  obtain ⟨ii, is, io, iw, ir⟩ := h.inside
  cases sp <;> assumption

/-- Writing bytes inside a space keeps the invariants. -/
theorem State.Inv.writeBytes (h : s.Inv) {sp : Space} {a : Nat} {bs : List Byte}
    (inside : bs = [] ∨ a + bs.length ≤ s.params.cap sp) : (s.setMem sp (memSetBytes a bs (s.mem sp))).Inv := by
  refine h.setMem (memSetBytes_wf a bs (h.wf sp)) (memSetBytes_within bs inside (h.within sp)) fun x listed => ?_
  rw [memGet_memSetBytes]
  split
  · simpa using (by omega : x - a < bs.length)
  · exact listed

/-- Writing one byte inside a space keeps the invariants. -/
theorem State.Inv.writeByte (h : s.Inv) {sp : Space} {a : Nat} (inside : a < s.params.cap sp) (v : Byte) :
    (s.setMem sp (memSet (s.mem sp) a v)).Inv :=
  h.writeBytes (bs := [v]) (.inr (by simpa using inside))

/-- A writer that is clean, fits WBUF and whose output has been written keeps the invariants (R27, R28, R64). -/
theorem State.Inv.withWriter (h : s.Inv) {n : Word32} {c : Byte} {k : BitVec 3}
    (clean : ∀ j < 8 - k.toNat, c.getLsbD j = false) (flushed : s.fin = true → k = 0#3 ∧ c = 0#8)
    (room : 8 * n.toNat + k.toNat ≤ 8 * s.params.wbufCap)
    (output : ∀ a < n.toNat, (memGet s.wbuf a).isSome = true) : (s.withWriter n c k).Inv := by
  obtain ⟨fi, fs, fo, fw, fr⟩ := h.forms
  obtain ⟨ii, is, io, iw, ir⟩ := h.inside
  exact { h with
    clean := clean, flushed := flushed, room := (ceilDiv_eight_le _ _).mpr room
    forms := ⟨fi, fs, fo, memBelow_wf fw, fr⟩, inside := ⟨ii, is, io, memBelow_within iw, ir⟩
    output := fun a below => by
      have below : a < n.toNat := below
      simpa [below] using output a below }

/-- A writer without a partial byte may be finished, and any writer opened (R28). -/
theorem State.Inv.withFin (h : s.Inv) {b : Bool} (flushed : b = true → s.bwCursor = 0#3 ∧ s.cur = 0#8) :
    { s with fin := b }.Inv :=
  { h with flushed := flushed }

/-- A position inside the slice keeps the invariants (R29). -/
theorem State.Inv.withReader (h : s.Inv) {i : Word32} {k : BitVec 3} (position : i.toNat ≤ s.brLen.toNat)
    (atEnd : i = s.brLen → k = 0#3) : (s.withReader i k).Inv :=
  { h with position := position, atEnd := atEnd }

/-- A slice inside SIN keeps the invariants (R29, R141). -/
theorem State.Inv.wrapSlice (h : s.Inv) {base len : Word32} (slice : base.toNat + len.toNat ≤ s.params.sinCap) :
    (s.wrapSlice base len).Inv :=
  { h with slice := slice, position := Nat.zero_le _, atEnd := fun _ => rfl }

/-- A length that fits SOUT keeps the invariants (R33). -/
theorem State.Inv.withSoutLen (h : s.Inv) {n : Word32} (stream : n.toNat ≤ s.params.soutCap) :
    { s with soutLen := n }.Inv :=
  { h with stream := stream }

/-- A capacity, and so a length of bytes in a space, fits a register of 32 bits (R6). -/
theorem State.Inv.cap_lt (h : s.Inv) (sp : Space) : s.params.cap sp < 2 ^ 32 := by
  obtain ⟨⟨_, hi⟩, ⟨_, hs⟩, ⟨_, ho⟩, ⟨_, hw⟩⟩ := h.params
  cases sp <;> simp only [Params.cap, Params.ribufCap] <;> omega

end Invariant

/-! ### The Bit Writer -/

section Writer
variable {s t u : State}

/-- One byte more at the end. -/
theorem State.bytes_succ_last (s : State) (sp : Space) (a n : Nat) :
    s.bytes sp a (n + 1) = s.bytes sp a n ++ [s.byte sp (a + n)] := by
  simp [State.bytes, List.range_succ]

/-- Bytes that read the same make the same string. -/
theorem State.bytes_congr {sp : Space} {a n : Nat} (same : ∀ x, a ≤ x → x < a + n → t.byte sp x = s.byte sp x) :
    t.bytes sp a n = s.bytes sp a n :=
  List.map_congr_left fun i hi => same (a + i) (by omega) (by have := List.mem_range.mp hi; omega)

/-- Putting no bits. -/
theorem Appends.refl (h : s.Inv) : Appends s s [] := ⟨by simp, by simp, h.clean, fun _ _ => rfl, rfl⟩

/-- Putting bits and then more bits puts the bits of both. -/
theorem Appends.trans {as bs : List Bool} (first : Appends s t as) (second : Appends t u bs) :
    Appends s u (as ++ bs) where
  stream := by rw [second.stream, first.stream, List.append_assoc]
  count := by rw [second.count, first.count, List.length_append, Nat.add_assoc]
  clean := second.clean
  below a ha := by
    have longer : s.bwLen.toNat ≤ t.bwLen.toNat := by
      have := first.count
      simp only [State.nbits] at this
      omega
    rw [second.below a (by omega), first.below a ha]
  frame := by rw [second.frame, first.frame]

/-- A bit of CUR with one more bit. -/
theorem curWith_getLsbD (s : State) (b : Bool) {j : Nat} (hj : j < 8) :
    (s.curWith b).getLsbD j = (s.cur.getLsbD j || (decide (j = 7 - s.bwCursor.toNat) && b)) := by
  cases b with
  | false => simp [State.curWith]
  | true => simp [State.curWith]; grind

/-- CUR's stream bits with one more bit (R121). -/
theorem curWith_take (clean : ∀ k < 8 - s.bwCursor.toNat, s.cur.getLsbD k = false) (b : Bool) :
    (msbBits 8 (s.curWith b)).take (s.bwCursor.toNat + 1) = (msbBits 8 s.cur).take s.bwCursor.toNat ++ [b] := by
  have cursor : s.bwCursor.toNat < 8 := s.bwCursor.isLt
  rw [msbBits_take (by omega), msbBits_take (by omega), List.range_succ, List.map_append]
  congr 1
  · refine List.map_congr_left fun i hi => ?_
    have hi := List.mem_range.mp hi
    rw [curWith_getLsbD s b (by omega), decide_eq_false (by omega)]
    simp
  · simp [curWith_getLsbD s b (by omega : 7 - s.bwCursor.toNat < 8), clean (7 - s.bwCursor.toNat) (by omega)]

/-- The state after a byte of WBUF is completed: stored at BW_LEN, which moves on (R121, R126). -/
def State.completeByte (v : Byte) (s : State) : State :=
  (s.setMem .wbuf (memSet s.wbuf s.bwLen.toNat v)).withWriter (s.bwLen + 1#32) 0#8 0#3

/-- A byte completed inside WBUF follows the bytes output before it, which stay; the invariants are kept. -/
theorem State.Inv.completeByte (h : s.Inv) (inside : s.bwLen.toNat < s.params.wbufCap) (v : Byte) :
    (s.bwLen + 1#32).toNat = s.bwLen.toNat + 1 ∧
    (∀ a < s.bwLen.toNat, (s.completeByte v).byte .wbuf a = s.byte .wbuf a) ∧
    (s.completeByte v).bytes .wbuf 0 (s.bwLen.toNat + 1) = s.bytes .wbuf 0 s.bwLen.toNat ++ [v] ∧
    (s.completeByte v).Inv := by
  have capacity := h.cap_lt .wbuf
  simp only [Params.cap] at capacity
  have next : (s.bwLen + 1#32).toNat = s.bwLen.toNat + 1 := by bv_omega
  have output (a : Nat) (ha : a < (s.bwLen + 1#32).toNat) :
      (memGet (memSet s.wbuf s.bwLen.toNat v) a).isSome = true := by
    by_cases new : a = s.bwLen.toNat
    · rw [new, memGet_memSet_same]; rfl
    · rw [memGet_memSet_other _ _ new]; exact h.output a (by omega)
  have reads (a : Nat) (ha : a < (s.bwLen + 1#32).toNat) :
      (s.completeByte v).byte .wbuf a = (s.setMem .wbuf (memSet (s.mem .wbuf) s.bwLen.toNat v)).byte .wbuf a :=
    State.withWriter_byte_wbuf _ _ _ _ ha (output a ha)
  have below (a : Nat) (ha : a < s.bwLen.toNat) : (s.completeByte v).byte .wbuf a = s.byte .wbuf a :=
    (reads a (by omega)).trans (State.byte_setMem_memSet_other s v (.inr (by omega)))
  have newest : (s.completeByte v).byte .wbuf s.bwLen.toNat = v :=
    (reads _ (by omega)).trans (State.byte_setMem_memSet_same s .wbuf _ v)
  refine ⟨next, below, ?_,
    (h.writeByte inside v).withWriter (by simp) (fun _ => ⟨rfl, rfl⟩) (by simp [next]; omega) output⟩
  rw [State.bytes_succ_last, State.bytes_congr fun x _ hx => below x (by omega), Nat.zero_add, newest]

/-- Emitting one bit that fits appends it and keeps the invariants (R121). -/
theorem bwEmit_appends (h : s.Inv) (isOpen : s.fin = false) (room : s.nbits + 1 ≤ 8 * s.params.wbufCap) (b : Bool) :
    ∃ t, bwEmit b s = .ok () t ∧ Appends s t [b] ∧ t.Inv := by
  have cursor : s.bwCursor.toNat < 8 := s.bwCursor.isLt
  simp only [State.nbits] at room
  rcases bwEmit_cases b s with ⟨unfilled, e⟩ | ⟨last, inside, e⟩ | ⟨last, outside, -⟩
  · have next : (s.bwCursor + 1#3).toNat = s.bwCursor.toNat + 1 := by bv_omega
    have stays (a : Nat) (ha : a < s.bwLen.toNat) :
        (s.withWriter s.bwLen (s.curWith b) (s.bwCursor + 1#3)).byte .wbuf a = s.byte .wbuf a :=
      s.withWriter_byte_wbuf _ _ _ ha (h.output a ha)
    have clean (k : Nat) (hk : k < 8 - (s.bwCursor + 1#3).toNat) : (s.curWith b).getLsbD k = false := by
      rw [curWith_getLsbD s b (by omega), h.clean k (by omega), decide_eq_false (by omega)]
      rfl
    refine ⟨_, e, ⟨?_, ?_, clean, stays, rfl⟩, h.withWriter clean (by simp [isOpen]) (by omega) h.output⟩
    · simp only [State.written, State.withWriter_bwLen, State.withWriter_cur, State.withWriter_bwCursor, next]
      rw [State.bytes_congr fun x _ hx => stays x (by omega), curWith_take h.clean, List.append_assoc]
    · simp only [State.nbits, State.withWriter_bwLen, State.withWriter_bwCursor, next, List.length_singleton]
      omega
  · have full : s.bwCursor.toNat = 7 := by rw [last]; rfl
    have cur := curWith_take h.clean b
    rw [full, List.take_of_length_le (by simp)] at cur
    obtain ⟨next, below, bytes, kept⟩ := h.completeByte inside (s.curWith b)
    refine ⟨s.completeByte (s.curWith b), e, ⟨?_, ?_, by simp [State.completeByte], below, rfl⟩, kept⟩
    · have len : (s.completeByte (s.curWith b)).bwLen.toNat = s.bwLen.toNat + 1 := next
      rw [State.written, len, bytes, bitsOf_append, State.written, full, List.append_assoc, List.append_assoc, ← cur]
      simp [State.completeByte]
    · simp only [State.nbits, State.completeByte, State.withWriter_bwLen, State.withWriter_bwCursor, next, full,
        List.length_singleton, BitVec.toNat_zero]
      omega
  · have full : s.bwCursor.toNat = 7 := by rw [last]; rfl
    omega

/-- A put neither finishes nor opens the writer. -/
theorem Appends.fin_eq {bs : List Bool} (put : Appends s t bs) : t.fin = s.fin := by rw [put.frame]

theorem Appends.params_eq {bs : List Bool} (put : Appends s t bs) : t.params = s.params := by rw [put.frame]

/-- Emitting bits that fit appends them and keeps the invariants. -/
theorem bwEmitAll_appends {bs : List Bool} (h : s.Inv) (isOpen : s.fin = false)
    (room : s.nbits + bs.length ≤ 8 * s.params.wbufCap) :
    ∃ t, bwEmitAll bs s = .ok () t ∧ Appends s t bs ∧ t.Inv := by
  induction bs generalizing s with
  | nil => exact ⟨s, rfl, Appends.refl h, h⟩
  | cons b bs ih =>
    rw [List.length_cons] at room
    obtain ⟨t, e, put, ht⟩ := bwEmit_appends h isOpen (by omega) b
    have counted := put.count
    obtain ⟨u, e', put', hu⟩ := ih ht (put.fin_eq.trans isOpen) (by
      rw [put.params_eq, counted, List.length_singleton]; omega)
    exact ⟨u, by rw [bwEmitAll, e, Res.bind_ok, e'], put.trans put', hu⟩

/-- A put of bits that fit appends them and keeps the invariants (R120, R121). -/
theorem bwPut_appends {bs : List Bool} (h : s.Inv) (isOpen : s.fin = false)
    (room : ceilDiv (s.nbits + bs.length) 8 ≤ s.params.wbufCap) :
    ∃ t, bwPut bs s = .ok () t ∧ Appends s t bs ∧ t.Inv := by
  rcases bwRoom_cases bs.length s with ⟨short, -⟩ | ⟨fits, e⟩
  · omega
  · rw [bwPut, e, Res.bind_ok]
    exact bwEmitAll_appends h isOpen ((ceilDiv_eight_le _ _).mp fits)

/-- A put of bits that do not fit raises WriterCapacity and changes nothing (R120, R128). -/
theorem bwPut_full {bs : List Bool} (short : s.params.wbufCap < ceilDiv (s.nbits + bs.length) 8) :
    bwPut bs s = .raise .writerCapacity s := by
  rcases bwRoom_cases bs.length s with ⟨-, e⟩ | ⟨fits, -⟩
  · rw [bwPut, e, Res.bind_raise]
  · omega

/-! ### Packing bits into bytes (R101, R126) -/

/-- A whole byte packs into itself. -/
theorem packed_msbBits_append (b : Byte) (bs : List Bool) : packed (msbBits 8 b ++ bs) = b :: packed bs := by
  have bytes : ceilDiv (msbBits 8 b ++ bs).length 8 = ceilDiv bs.length 8 + 1 := by
    simp only [List.length_append, msbBits_length, ceilDiv]
    omega
  have front : (msbBits 8 b ++ bs ++ List.replicate 8 false).take 8 = msbBits 8 b := by
    rw [List.append_assoc, List.take_left' (msbBits_length 8 b)]
  have back : (msbBits 8 b ++ bs).drop 8 = bs := List.drop_left' (msbBits_length 8 b)
  rw [packed, bytes, packBits, front, back, msbValue_msbBits]
  rfl

/-- Bytes pack into themselves. -/
theorem packed_bitsOf_append (bytes : List Byte) (bs : List Bool) : packed (bitsOf bytes ++ bs) = bytes ++ packed bs := by
  induction bytes with
  | nil => rfl
  | cons b bytes ih => rw [bitsOf_cons, List.append_assoc, packed_msbBits_append, ih, List.cons_append]

/-- The bits of a partial byte, clean below its cursor, pack into that byte. -/
theorem packed_take {v : Byte} {k : Nat} (nonempty : 0 < k) (most : k ≤ 8) (clean : ∀ j < 8 - k, v.getLsbD j = false) :
    packed ((msbBits 8 v).take k) = [v] := by
  have short : ((msbBits 8 v).take k).length = k := by simpa using most
  have one : ceilDiv k 8 = 1 := by unfold ceilDiv; omega
  have filled : (((msbBits 8 v).take k) ++ List.replicate 8 false).take 8 = msbBits 8 v := by
    refine List.ext_getElem (by simp) fun i hi _ => ?_
    have hi : i < 8 := by simpa using hi
    rw [List.getElem_take]
    by_cases inside : i < k
    · rw [List.getElem_append_left (by omega), List.getElem_take]
    · rw [List.getElem_append_right (by omega), List.getElem_replicate]
      simp [msbBits_eq_map, clean (7 - i) (by omega)]
  rw [packed, short, one, packBits, filled, msbValue_msbBits]
  rfl

/-- The bits written so far pack into the bytes output and the partial byte, if there is one. -/
theorem packed_written (h : s.Inv) :
    packed s.written = s.bytes .wbuf 0 s.bwLen.toNat ++ if s.bwCursor = 0#3 then [] else [s.cur] := by
  have cursor : s.bwCursor.toNat < 8 := s.bwCursor.isLt
  rw [State.written, packed_bitsOf_append]
  split
  · next empty => rw [empty]; simp [packed, ceilDiv, packBits]
  · next filled => rw [packed_take (by bv_omega) (by omega) h.clean]

/-- What finishing an open writer leaves: the bytes its bits pack into, and no partial byte (R126). -/
structure Finishes (s t : State) : Prop where
  bytes : t.bytes .wbuf 0 t.bwLen.toNat = packed s.written
  count : t.bwLen.toNat = ceilDiv s.nbits 8
  frame : t = { s with
    wbuf := t.wbuf, wbufDraws := t.wbufDraws, bwLen := t.bwLen, cur := 0#8, bwCursor := 0#3, fin := true }

/-- Finishing an open writer flushes its partial byte and keeps the invariants. -/
theorem bwFinishOp_finishes (h : s.Inv) (isOpen : s.fin = false) :
    ∃ t, bwFinishOp s = .ok t.bwLen t ∧ Finishes s t ∧ t.Inv := by
  have packs := packed_written h
  have room := (ceilDiv_eight_le _ _).mp h.room
  have capacity := h.cap_lt .wbuf
  simp only [Params.cap] at capacity
  simp only [State.nbits] at room
  by_cases empty : s.bwCursor = 0#3
  · have clear : s.cur = 0#8 := BitVec.eq_of_getLsbD_eq fun j hj => by
      simpa using h.clean j (by rw [empty]; exact hj)
    refine ⟨{ s with fin := true }, by simp [bwFinishOp, bwFlush, isOpen, empty], ⟨?_, ?_, ?_⟩,
      h.withFin fun _ => ⟨empty, clear⟩⟩
    · rw [packs, if_pos empty, List.append_nil]; rfl
    · simp [State.nbits, empty, ceilDiv]; omega
    · rw [← clear, ← empty]
  · have cursor : 0 < s.bwCursor.toNat ∧ s.bwCursor.toNat < 8 := ⟨by bv_omega, s.bwCursor.isLt⟩
    have inside : s.bwLen.toNat < s.params.cap .wbuf := by simp only [Params.cap]; omega
    obtain ⟨next, -, bytes, kept⟩ := h.completeByte inside s.cur
    have flushed : bwFlush s = .ok () (s.completeByte s.cur) := by
      simp [bwFlush, empty, memWrite_inside s.cur inside, State.completeByte]
    have length : (s.completeByte s.cur).bwLen.toNat = s.bwLen.toNat + 1 := next
    refine ⟨{ s.completeByte s.cur with fin := true }, by simp [bwFinishOp, isOpen, flushed], ⟨?_, ?_, rfl⟩,
      kept.withFin fun _ => ⟨rfl, rfl⟩⟩
    · rw [packs, if_neg empty, ← bytes]
      exact congrArg _ length
    · rw [State.nbits, ceilDiv]
      exact length.trans (by omega)

end Writer

end Machine
end Sys2Proof
end

section
/-! PROOFS. The encode side in a state that meets the invariants: the row index REI_BUILD builds, the tags of the image as
one sequence of puts, and what a failing CF_ENCODE leaves. -/

namespace Sys2Proof
namespace Machine

/-! ### Where the pixels and the row bits stand (R13, R14, R24, R66) -/

section Geometry
variable {s : State} {w h y g : Nat}

/-- A row of an image ends inside it. -/
theorem row_inside (hy : y < h) : pixelAddr w 0 y + w ≤ w * h := by
  have := Nat.mul_le_mul_right w (Nat.succ_le_of_lt hy)
  rw [Nat.succ_mul, Nat.mul_comm h] at this
  simpa [pixelAddr] using this

/-- A group of a row has a valid pixel, and its valid pixels end inside the row. -/
theorem validCount_bounds (hg : g < groupCount w) : 4 * g < w ∧ 4 * g + validCount w g ≤ w := by
  simp only [groupCount, ceilDiv] at hg
  simp only [validCount]
  omega

/-- A group of an image ends inside it. -/
theorem group_inside (hy : y < h) (hg : g < groupCount w) : pixelAddr w (4 * g) y + validCount w g ≤ w * h := by
  have row := row_inside (w := w) hy
  have group := (validCount_bounds hg).2
  simp only [pixelAddr] at row ⊢
  omega

/-- The bitmap of an image that fits IMG fits RIBUF. -/
theorem rows_fit_ribuf {p : Params} (positive : 1 ≤ w) (fits : w * h ≤ p.imgCap) : ceilDiv h 8 ≤ p.ribufCap := by
  have rows : h ≤ w * h := Nat.le_mul_of_pos_left h positive
  unfold ceilDiv Params.ribufCap
  omega

/-- A row's bit is in the bitmap. -/
theorem rowByte_lt (hy : y < h) : y / 8 < ceilDiv h 8 := by
  unfold ceilDiv
  omega

end Geometry

/-! ### Reads of the current image and of its index -/

section Reads
variable {s : State} {y g : Nat}

/-- The valid pixels of a group, padded, are its group pixels (R14). -/
theorem paddedPixel_bytes (s : State) (y g : Nat) {i : Nat} (hi : i < 4) :
    paddedPixel (s.bytes .img (pixelAddr s.width.toNat (4 * g) y) (validCount s.width.toNat g)) i =
      s.groupPixel y g i := by
  have valid : i < validCount s.width.toNat g ↔ 4 * g + i < s.width.toNat := by
    simp only [validCount]
    omega
  by_cases inside : 4 * g + i < s.width.toNat
  · simp [paddedPixel, State.groupPixel, inside, State.bytes, valid.mpr inside, pixelAddr, Nat.add_assoc]
  · have outside : ¬ i < validCount s.width.toNat g := fun hv => inside (valid.mp hv)
    simp [paddedPixel, State.groupPixel, inside, State.bytes, outside, Config.white]

/-- The machine reads the tag of a group of the current image (R180). -/
theorem groupTag_eq (fits : s.width.toNat * s.height.toNat ≤ s.params.imgCap) (hy : y < s.height.toNat)
    (hg : g < groupCount s.width.toNat) : groupTag y g s = .ok (s.tagOf y g) s := by
  have inside := group_inside hy hg
  rw [groupTag, memReadBytes_inside (by simp only [Params.cap]; omega), Res.bind_ok, paddedPixel_bytes s y g (by decide),
    paddedPixel_bytes s y g (by decide), paddedPixel_bytes s y g (by decide), paddedPixel_bytes s y g (by decide)]
  rfl

/-- The machine reads whether a row of the current image is white (R160). -/
theorem rowEmpty_eq (fits : s.width.toNat * s.height.toNat ≤ s.params.imgCap) (hy : y < s.height.toNat) :
    rowEmpty y s = .ok (s.rowWhite y) s := by
  have inside := row_inside (w := s.width.toNat) hy
  rw [rowEmpty, memReadBytes_inside (by simp only [Params.cap]; omega), Res.bind_ok, State.bytes, List.all_map]
  rfl

/-- The machine reads a row's bit inside RIBUF (R162). -/
theorem rixBit_eq (inside : y / 8 < s.params.ribufCap) : rixBit y s = .ok (s.rowBit y) s := by
  rw [rixBit, memRead_inside (by exact inside), Res.bind_ok]
  rfl

/-- A row's bit is inside RIBUF when the dimensions are positive (R24, R26). -/
theorem State.Inv.rixBit_eq (h : s.Inv) (held : s.imgValid = true ∨ s.riValid = true) (hy : y < s.height.toNat) :
    rixBit y s = .ok (s.rowBit y) s :=
  Machine.rixBit_eq ((rowByte_lt hy).trans_le (rows_fit_ribuf (h.positive held).1 h.fits))

end Reads

/-! ### The row index (R161, R164) -/

section RowIndex
variable {s t : State}

/-- Writing bytes to a space stores them, and every other location of the space reads as before. -/
theorem stores_memSetBytes (sp : Space) (a : Nat) (bs : List Byte) (s : State) :
    Stores sp a bs s (s.setMem sp (memSetBytes a bs (s.mem sp))) where
  stored := by
    refine List.ext_getElem (by simp) fun i hi hb => ?_
    simp [State.bytes, State.byte, memGet_memSetBytes, hb]
  others x hx := by
    have outside : ¬ (a ≤ x ∧ x < a + bs.length) := by omega
    simp [State.byte, memGet_memSetBytes, outside]

/-- A bit of a byte of the image's row index (R103). -/
theorem indexByte_getLsbD (s : State) (j : Nat) {i : Nat} (hi : i < 8) :
    (s.indexByte j).getLsbD i = (decide (8 * j + i < s.height.toNat) && s.rowWhite (8 * j + i)) := by
  have back : 7 - (7 - i) = i := by omega
  have turned : 7 - i < 8 := by omega
  rw [State.indexByte, getLsbD_msbValue, List.getD_eq_getElem?_getD, List.getElem?_reverse (by simpa using hi)]
  simp [hi, back, turned]

/-- RIBUF holds what was written to it. -/
@[simp] theorem State.setMem_ribuf (s : State) (m : Memory) : (s.setMem .ribuf m).ribuf = m := rfl

/-- The bitmap after the rows below `y`: their bits are set where they are white, the rest of its `r` bytes is clear, and
nothing beyond it has changed. -/
structure IndexedBelow (s : State) (y : Nat) (t : State) : Prop where
  inv : t.Inv
  frame : t = { s with ribuf := t.ribuf }
  bits : ∀ j < ceilDiv s.height.toNat 8, ∀ i < 8,
    (t.byte .ribuf j).getLsbD i = (decide (8 * j + i < y) && s.rowWhite (8 * j + i))
  others : ∀ a, ceilDiv s.height.toNat 8 ≤ a → t.byte .ribuf a = s.byte .ribuf a
  listed : ∀ a < ceilDiv s.height.toNat 8, (memGet t.ribuf a).isSome = true

/-- A byte with one more row's bit set. -/
theorem withRowBit_getLsbD (v : Byte) (y : Nat) {i : Nat} (hi : i < 8) :
    (withRowBit v y).getLsbD i = (v.getLsbD i || decide (i = y % 8)) := by
  have bit : (1#8 <<< (y % 8)).getLsbD i = decide (i = y % 8) := by simp; grind
  simp only [withRowBit, BitVec.getLsbD_or, bit]

/-- One row of REI_BUILD. -/
theorem reiBuildRow_indexes (positive : 1 ≤ s.width.toNat) {y : Nat} (hy : y < s.height.toNat)
    (h : IndexedBelow s y t) : ∃ u, reiBuildRow y t = .ok () u ∧ IndexedBelow s (y + 1) u := by
  have frame := h.frame
  have height : t.height = s.height := by rw [frame]
  have width : t.width = s.width := by rw [frame]
  have white : t.rowWhite y = s.rowWhite y := by rw [frame]; rfl
  have byteInside := rowByte_lt hy
  have inside : y / 8 < t.params.cap .ribuf :=
    byteInside.trans_le (height ▸ rows_fit_ribuf (by rwa [width]) h.inv.fits)
  have division : 8 * (y / 8) + y % 8 = y := Nat.div_add_mod y 8
  rw [reiBuildRow, rowEmpty_eq h.inv.fits (by rwa [height]), Res.bind_ok, white]
  cases empty : s.rowWhite y with
  | false =>
    refine ⟨t, rfl, h.inv, frame, fun j hj i hi => ?_, h.others, h.listed⟩
    rw [h.bits j hj i hi]
    by_cases now : 8 * j + i = y
    · rw [now, empty]; simp
    · have same : 8 * j + i < y + 1 ↔ 8 * j + i < y := by omega
      simp only [same]
  | true =>
    rw [if_pos rfl, memRead_inside inside, Res.bind_ok, memWrite_inside _ inside]
    refine ⟨_, rfl, h.inv.writeByte inside _, by rw [frame]; rfl, fun j hj i hi => ?_, fun a ha => ?_, fun a ha => ?_⟩
    · by_cases here : j = y / 8
      · have same : 8 * j + i < y + 1 ↔ 8 * j + i < y ∨ i = y % 8 := by omega
        rw [here, State.byte_setMem_memSet_same, withRowBit_getLsbD _ _ hi, ← here, h.bits j hj i hi]
        by_cases bit : i = y % 8
        · have now : 8 * j + i = y := by omega
          rw [now, empty, decide_eq_true bit, decide_eq_true (Nat.lt_succ_self y), Bool.or_true, Bool.and_true]
        · simp [same, bit]
      · have same : 8 * j + i < y + 1 ↔ 8 * j + i < y := by omega
        rw [State.byte_setMem_memSet_other t _ (.inr here), h.bits j hj i hi]
        simp only [same]
    · rw [State.byte_setMem_memSet_other t _ (.inr (by omega)), h.others a ha]
    · by_cases here : a = y / 8
      · simp [here]
      · simpa [memGet_memSet_other _ _ here] using h.listed a ha

/-- Clearing the bitmap. -/
theorem indexedBelow_zero (h : s.Inv) (positive : 1 ≤ s.width.toNat) :
    IndexedBelow s 0
      (s.setMem .ribuf (memSetBytes 0 (List.replicate (ceilDiv s.height.toNat 8) 0#8) (s.mem .ribuf))) where
  inv := h.writeBytes (.inr (by simpa [Params.cap] using rows_fit_ribuf positive h.fits))
  frame := rfl
  bits j hj i hi := by simp [State.byte, memGet_memSetBytes, hj]
  others a ha := (stores_memSetBytes .ribuf 0 _ s).others a (.inr (by simpa using ha))
  listed a ha := by simp [memGet_memSetBytes, ha]

/-- REI_BUILD stores the image's row index, sets RI_COUNT and RI_VALID, and keeps the invariants (R161). -/
theorem reiBuildOp_builds (h : s.Inv) (described : s.imgValid = true) :
    ∃ t, reiBuildOp s = .ok (BitVec.ofNat 32 (ceilDiv s.height.toNat 8)) t ∧ Stores .ribuf 0 s.indexBytes s t ∧
      t = { s with ribuf := t.ribuf, riCount := BitVec.ofNat 32 (ceilDiv s.height.toNat 8), riValid := true } ∧
      (∀ y < s.height.toNat, t.rowBit y = s.rowWhite y) ∧ t.Inv := by
  have positive := h.positive (.inl described)
  have fits := rows_fit_ribuf positive.1 h.fits
  have cleared := memWriteBytes_inside (sp := .ribuf) (a := 0) (s := s)
    (bs := List.replicate (ceilDiv s.height.toNat 8) 0#8) (by simpa [Params.cap] using fits)
  obtain ⟨u, rows, built⟩ := forLoop_ok (body := reiBuildRow) (k := s.height.toNat) (i := 0)
    (indexedBelow_zero h positive.1) fun y t _ hy ht => reiBuildRow_indexes positive.1 (by omega) ht
  rw [Nat.zero_add] at built
  have height : u.height = s.height := by rw [built.frame]
  have capacity := h.cap_lt .ribuf
  have count : (BitVec.ofNat 32 (ceilDiv s.height.toNat 8)).toNat = ceilDiv s.height.toNat 8 := by
    rw [BitVec.toNat_ofNat, Nat.mod_eq_of_lt (by simp only [Params.cap] at capacity; omega)]
  have byte (j : Nat) (hj : j < ceilDiv s.height.toNat 8) : u.byte .ribuf j = s.indexByte j :=
    BitVec.eq_of_getLsbD_eq fun i hi => by rw [built.bits j hj i hi, indexByte_getLsbD s j hi]
  refine ⟨{ u with riCount := BitVec.ofNat 32 (ceilDiv s.height.toNat 8), riValid := true }, ?_, ⟨?_, ?_⟩, ?_, ?_, ?_⟩
  · rw [reiBuildOp, raiseIf_bind, described, if_neg (by simp), cleared, Res.bind_ok, State.setMem_height, rows,
      Res.bind_ok, height]
  · exact List.ext_getElem (by simp [State.indexBytes]) fun i hi hb => by
      have hi : i < ceilDiv s.height.toNat 8 := by simpa [State.indexBytes] using hb
      simp only [State.bytes, State.indexBytes, List.getElem_map, List.getElem_range, Nat.zero_add]
      exact byte i hi
  · intro x hx
    exact built.others x (by simpa [State.indexBytes] using hx)
  · rw [built.frame]
  · intro y hy
    have bit := built.bits (y / 8) (rowByte_lt hy) (y % 8) (Nat.mod_lt y (by decide))
    rw [Nat.div_add_mod, decide_eq_true hy, Bool.true_and] at bit
    exact bit
  · exact { built.inv with
      positive := fun _ => by rw [built.frame]; exact positive
      rows := fun _ => by rw [built.frame]; exact count
      bitmap := fun _ a ha => built.listed a (by rw [← count]; exact ha) }

end RowIndex

end Machine
end Sys2Proof
end

section
/-! PROOFS. The rows of an image as one sequence of tags put one after another, CF_ENCODE as that sequence between the row
index and the container, and what a failing CF_ENCODE leaves. -/

namespace Sys2Proof
namespace Machine

/-! ### Putting tags (R181, R182) -/

section Tags
variable {s t : State}

/-- Tags put one after another, each whole or not at all. -/
def encodeTags : List Tag → State → Res Unit
  | [], s => .ok () s
  | t :: ts, s => (bwPut t.bits s).bind fun _ s' => encodeTags ts s'

/-- Sequences may be regrouped. -/
theorem Res.bind_assoc {α β γ : Type} (r : Res α) (k : α → State → Res β) (l : β → State → Res γ) :
    (r.bind k).bind l = r.bind fun a u => (k a u).bind l := by
  cases r <;> rfl

theorem encodeTags_append (as bs : List Tag) (s : State) :
    encodeTags (as ++ bs) s = (encodeTags as s).bind fun _ u => encodeTags bs u := by
  induction as generalizing s with
  | nil => rfl
  | cons a as ih => simp only [List.cons_append, encodeTags, Res.bind_assoc, ih]

@[simp] theorem tagBits_nil : tagBits [] = [] := rfl

@[simp] theorem tagBits_cons (a : Tag) (as : List Tag) : tagBits (a :: as) = a.bits ++ tagBits as := rfl

/-- The first of some tags have no more bits than all of them. -/
theorem tagBits_take_length_le (k : Nat) (ts : List Tag) : (tagBits (ts.take k)).length ≤ (tagBits ts).length := by
  have split : tagBits ts = tagBits (ts.take k) ++ tagBits (ts.drop k) := by
    rw [tagBits, tagBits, tagBits, ← List.flatMap_append, List.take_append_drop]
  rw [split, List.length_append]
  omega

/-- Putting tags ends in one of two ways: all of them are put, or the writer is full at the first that does not fit, and
holds those before it. The invariants are kept. -/
theorem encodeTags_cases (ts : List Tag) (h : s.Inv) (isOpen : s.fin = false) :
    (∃ t, encodeTags ts s = .ok () t ∧ Appends s t (tagBits ts) ∧ t.Inv) ∨
    ∃ t k, encodeTags ts s = .raise .writerCapacity t ∧ k < ts.length ∧ Appends s t (tagBits (ts.take k)) ∧ t.Inv ∧
      s.params.wbufCap < ceilDiv (s.nbits + (tagBits (ts.take (k + 1))).length) 8 := by
  induction ts generalizing s with
  | nil => exact .inl ⟨s, rfl, Appends.refl h, h⟩
  | cons a as ih =>
    by_cases room : ceilDiv (s.nbits + a.bits.length) 8 ≤ s.params.wbufCap
    · obtain ⟨u, e, put, hu⟩ := bwPut_appends h isOpen room
      rw [encodeTags, e, Res.bind_ok]
      rcases ih hu (put.fin_eq.trans isOpen) with ⟨t, e', puts, ht⟩ | ⟨t, k, e', hk, puts, ht, full⟩
      · exact .inl ⟨t, e', put.trans puts, ht⟩
      · refine .inr ⟨t, k + 1, e', by simpa using hk, put.trans puts, ht, ?_⟩
        rw [put.params_eq, put.count, Nat.add_assoc, ← List.length_append] at full
        exact full
    · have full : s.params.wbufCap < ceilDiv (s.nbits + a.bits.length) 8 := by omega
      refine .inr ⟨s, 0, ?_, by simp, Appends.refl h, h, by simpa using full⟩
      rw [encodeTags, bwPut_full full, Res.bind_raise]

/-- Tags that were all put. -/
theorem encodeTags_ok {ts : List Tag} (h : s.Inv) (isOpen : s.fin = false) (e : encodeTags ts s = .ok () t) :
    Appends s t (tagBits ts) ∧ t.Inv := by
  rcases encodeTags_cases ts h isOpen with ⟨u, e', put, hu⟩ | ⟨u, k, e', -⟩
  · rw [e', Res.ok.injEq] at e
    exact e.2 ▸ ⟨put, hu⟩
  · rw [e'] at e; cases e

/-- Bits that were put fit WBUF (R28). -/
theorem Appends.fits {bs : List Bool} (put : Appends s t bs) (h : t.Inv) :
    ceilDiv (s.nbits + bs.length) 8 ≤ s.params.wbufCap := by
  rw [← put.count, ← put.params_eq]
  exact h.room

/-- A loop whose every turn puts some tags puts all of them in order, wherever `P` holds of the states between. -/
theorem forLoop_eq_encodeTags {body : Nat → State → Res Unit} {tags : Nat → List Tag} {P : State → Prop} {k i : Nat}
    (turn : ∀ j t, j < i + k → P t → body j t = encodeTags (tags j) t)
    (keeps : ∀ ts t u, P t → encodeTags ts t = .ok () u → P u) (start : P s) :
    forLoop body k i s = encodeTags ((List.range' i k).flatMap tags) s := by
  induction k generalizing i s with
  | zero => rfl
  | succ k ih =>
    rw [forLoop_succ, turn i s (by omega) start, List.range'_succ, List.flatMap_cons, encodeTags_append]
    cases e : encodeTags (tags i) s with
    | ok a t => exact ih (fun j t hj => turn j t (by omega)) (keeps _ _ _ start e)
    | raise c t => rfl
    | fault f => rfl

end Tags

/-! ### The tags of the current image -/

section ImageTags
variable {s t : State} {y g : Nat} {bs : List Bool}

/-- A put changes no pixel and no dimension. -/
theorem Appends.tagOf_eq (put : Appends s t bs) : t.tagOf y g = s.tagOf y g := by rw [put.frame]; rfl

theorem Appends.rowBit_eq (put : Appends s t bs) : t.rowBit y = s.rowBit y := by rw [put.frame]; rfl

theorem Appends.width_eq (put : Appends s t bs) : t.width = s.width := by rw [put.frame]

theorem Appends.height_eq (put : Appends s t bs) : t.height = s.height := by rw [put.frame]

theorem Appends.imgValid_eq (put : Appends s t bs) : t.imgValid = s.imgValid := by rw [put.frame]

theorem Appends.riValid_eq (put : Appends s t bs) : t.riValid = s.riValid := by rw [put.frame]

/-- Reached from `s` by puts into an open writer. -/
def Putting (s t : State) : Prop := t.Inv ∧ t.fin = false ∧ ∃ bs, Appends s t bs

theorem Putting.start (h : s.Inv) (isOpen : s.fin = false) : Putting s s := ⟨h, isOpen, [], Appends.refl h⟩

/-- More puts. -/
theorem Putting.encodeTags {u : State} {ts : List Tag} (at_ : Putting s t) (e : encodeTags ts t = .ok () u) :
    Putting s u := by
  obtain ⟨h, isOpen, bs, put⟩ := at_
  obtain ⟨puts, hu⟩ := encodeTags_ok h isOpen e
  exact ⟨hu, puts.fin_eq.trans isOpen, _, put.trans puts⟩

/-- The tags of a row, one for each group. -/
def State.rowTags (s : State) (y : Nat) : List Tag := (List.range (groupCount s.width.toNat)).map (s.tagOf y)

/-- Coding a group puts its tag (R181). -/
theorem beGroupBody_eq (fits : s.width.toNat * s.height.toNat ≤ s.params.imgCap) (hy : y < s.height.toNat)
    (hg : g < groupCount s.width.toNat) :
    beGroupBody y g s = (encodeTags [s.tagOf y g] s).bind fun _ u => .ok (tagClass (s.tagOf y g)) u := by
  rw [beGroupBody, groupTag_eq fits hy hg, Res.bind_ok, Machine.encodeTags, Res.bind_assoc]
  rfl

/-- Coding the groups of a row puts their tags in order (R182). -/
theorem beGroups_eq (h : s.Inv) (isOpen : s.fin = false) (hy : y < s.height.toNat) :
    beGroups y s = encodeTags (s.rowTags y) s := by
  rw [State.rowTags, List.map_eq_flatMap, List.range_eq_range']
  refine forLoop_eq_encodeTags (P := Putting s) (fun g t hg at_ => ?_) (fun _ _ _ => Putting.encodeTags)
    (Putting.start h isOpen)
  obtain ⟨ht, -, bs, put⟩ := at_
  rw [beGroupBody_eq ht.fits (by rwa [put.height_eq]) (by rw [put.width_eq]; omega), put.tagOf_eq, Res.bind_assoc]
  cases encodeTags [s.tagOf y g] t <;> rfl

/-- Coding a row of a described and indexed image: a row flagged empty puts nothing, any other its tags (R182). -/
theorem beEncodeRowOp_eq (h : s.Inv) (described : s.imgValid = true) (indexed : s.riValid = true)
    (isOpen : s.fin = false) (hy : y < s.height.toNat) :
    beEncodeRowOp y s =
      if s.rowBit y then .ok 1#32 s else (encodeTags (s.rowTags y) s).bind fun _ u => .ok 0#32 u := by
  have inside : ¬ s.height.toNat ≤ y := by omega
  simp only [beEncodeRowOp, raiseIf_bind, described, indexed, isOpen, decide_eq_false inside, Bool.not_true,
    Bool.false_eq_true, if_false, h.rixBit_eq (.inl described) hy, Res.bind_ok, beGroups_eq h isOpen hy]

/-- The image's tags give its bits (R101). -/
theorem tagBits_imageTags (s : State) : tagBits s.imageTags = s.imageBits := by
  rw [tagBits, State.imageTags, State.imageBits, List.flatMap_assoc]
  refine List.flatMap_congr fun y _ => ?_
  cases s.rowWhite y with
  | true => rfl
  | false => simp [State.rowBits, List.flatMap_map]

/-- Coding every row of an image whose index is right puts the image's tags in order (R223). -/
theorem encodeRows_eq (h : s.Inv) (described : s.imgValid = true) (indexed : s.riValid = true) (isOpen : s.fin = false)
    (index : ∀ y < s.height.toNat, s.rowBit y = s.rowWhite y) :
    forLoop (fun y u => (beEncodeRowOp y u).bind fun _ v => .ok () v) s.height.toNat 0 s = encodeTags s.imageTags s := by
  rw [State.imageTags, List.range_eq_range' (n := s.height.toNat)]
  refine forLoop_eq_encodeTags (P := Putting s) (fun y t hy at_ => ?_) (fun _ _ _ => Putting.encodeTags)
    (Putting.start h isOpen)
  obtain ⟨ht, open_, bs, put⟩ := at_
  have hy : y < s.height.toNat := by omega
  have tags : t.rowTags y = s.rowTags y := by
    rw [State.rowTags, State.rowTags, put.width_eq]
    exact List.map_congr_left fun g _ => put.tagOf_eq
  rw [beEncodeRowOp_eq ht (put.imgValid_eq.trans described) (put.riValid_eq.trans indexed) open_
    (by rwa [put.height_eq]), put.rowBit_eq, index y hy, tags]
  cases s.rowWhite y with
  | true => rfl
  | false =>
    rw [if_neg (by simp), if_neg (by simp), State.rowTags]
    cases encodeTags ((List.range (groupCount s.width.toNat)).map (s.tagOf y)) t <;> rfl

end ImageTags

/-! ### CF_ENCODE (R223, R225) -/

section Encode
variable {s : State}

/-- CF_ENCODE of a described image after BW_INIT and REI_BUILD: an empty open writer, the image's row index, and the same
image; the tags, the flush and the container follow. -/
structure EncodeStarted (s t : State) : Prop where
  inv : t.Inv
  empty : t.written = [] ∧ t.nbits = 0
  index : Stores .ribuf 0 s.indexBytes s t
  frame : t = { s with
    wbuf := t.wbuf, wbufDraws := t.wbufDraws, bwLen := 0#32, cur := 0#8, bwCursor := 0#3, fin := false, ribuf := t.ribuf
    riCount := BitVec.ofNat 32 (ceilDiv s.height.toNat 8), riValid := true }
  rest : cfEncodeBody s = (encodeTags s.imageTags t).bind fun _ u => (bwFinishOp u).bind fun _ v => cfAssembleOp v

/-- BW_INIT leaves an empty open writer and keeps the invariants (R122). -/
theorem State.Inv.bwInit (h : s.Inv) : { s.withWriter 0#32 0#8 0#3 with fin := false }.Inv :=
  (h.withFin (b := false) (by simp)).withWriter (by simp) (by simp) (by simp) (by simp)

/-- CF_ENCODE of a described image starts. -/
theorem encodeStarted (h : s.Inv) (described : s.imgValid = true) : ∃ t, EncodeStarted s t := by
  obtain ⟨t, e, index, frame, bits, ht⟩ := reiBuildOp_builds h.bwInit described
  have isOpen : t.fin = false := by rw [frame]
  have tags : t.imageTags = s.imageTags := by rw [frame]; rfl
  have rows := encodeRows_eq ht (by rw [frame]; exact described) (by rw [frame]) isOpen fun y hy =>
    (bits y (by rw [frame] at hy; exact hy)).trans (by rw [frame]; rfl)
  refine ⟨t, ht, ⟨by rw [frame]; rfl, by rw [frame]; rfl⟩, ⟨index.stored, index.others⟩, by rw [frame]; rfl, ?_⟩
  rw [cfEncodeBody, bwInitOp, Res.bind_ok, e, Res.bind_ok, rows, tags]

/-- From there either all tags of the image are put, and its bits fit WBUF, or the writer is full at the first tag that
does not fit, and they do not (R225). -/
theorem EncodeStarted.tags_cases {u : State} (started : EncodeStarted s u) :
    (ceilDiv s.imageBits.length 8 ≤ s.params.wbufCap ∧
      ∃ t, encodeTags s.imageTags u = .ok () t ∧ t.Inv ∧ Appends u t s.imageBits ∧ t.written = s.imageBits ∧
        t.nbits = s.imageBits.length) ∨
    (s.params.wbufCap < ceilDiv s.imageBits.length 8 ∧
      ∃ t k, encodeTags s.imageTags u = .raise .writerCapacity t ∧ k < s.imageTags.length ∧
        Appends u t (tagBits (s.imageTags.take k)) ∧ t.written = tagBits (s.imageTags.take k) ∧
        ceilDiv (tagBits (s.imageTags.take k)).length 8 ≤ s.params.wbufCap ∧
        s.params.wbufCap < ceilDiv (tagBits (s.imageTags.take (k + 1))).length 8) := by
  obtain ⟨written, nbits⟩ := started.empty
  have params : u.params = s.params := by rw [started.frame]
  have stream {t : State} {bs : List Bool} (put : Appends u t bs) : t.written = bs := by
    rw [put.stream, written, List.nil_append]
  have fits {t : State} {bs : List Bool} (put : Appends u t bs) (ht : t.Inv) :
      ceilDiv bs.length 8 ≤ s.params.wbufCap := by
    simpa [nbits, params] using put.fits ht
  rcases encodeTags_cases s.imageTags started.inv (by rw [started.frame]) with
    ⟨t, e, put, ht⟩ | ⟨t, k, e, hk, put, ht, full⟩
  · rw [tagBits_imageTags] at put
    exact .inl ⟨fits put ht, t, e, ht, put, stream put, by rw [put.count, nbits, Nat.zero_add]⟩
  · rw [nbits, Nat.zero_add, params] at full
    have more := tagBits_take_length_le (k + 1) s.imageTags
    rw [tagBits_imageTags] at more
    exact .inr ⟨by unfold ceilDiv at full ⊢; omega, t, k, e, hk, put, stream put, fits put ht, full⟩

/-- Bits pack into the bytes that hold them. -/
@[simp] theorem packed_length (bs : List Bool) : (packed bs).length = ceilDiv bs.length 8 := by
  have bytes (n : Nat) (cs : List Bool) : (packBits n cs).length = n := by
    induction n generalizing cs with
    | zero => rfl
    | succ n ih => simp [packBits, ih]
  exact bytes _ bs

/-- The length of the image's container (R102). -/
theorem container_length (s : State) :
    s.container.length = 19 + ceilDiv s.height.toNat 8 + ceilDiv s.imageBits.length 8 := by
  simp [State.container, State.indexBytes, Nat.add_assoc]

/-- CF_ENCODE of a described image raises what its sub-operations raise, and leaves SOUT_LEN 0 (R225, D19). -/
theorem exec_cfEncode_raise {t : State} {c : Cause} (described : s.imgValid = true) (e : cfEncodeBody s = .raise c t) :
    exec .cfEncode s = .next (raiseError c { t with soutLen := 0#32 }) := by
  simp [exec, execCfEncode, cfEncodeOp, described, e]

/-- CF_ASSEMBLE of a container that does not fit SOUT (R220). -/
theorem cfAssembleOp_full (held : s.riValid = true) (finished : s.fin = true)
    (long : s.params.soutCap < containerLength s.riCount.toNat s.bwLen.toNat) :
    cfAssembleOp s = .raise .streamCapacity s := by
  simp [cfAssembleOp, held, finished, long]

end Encode

end Machine

namespace Proofs
open Sys2Proof.Machine

/-- Settles O48: BW_INIT and REI_BUILD always end, so CF_ENCODE of an image stops either at the first tag that does not
fit the writer or, with all of them put and flushed, at the check of CF_ASSEMBLE. -/
theorem failingCfEncodeHandsOverNothing : Obligations.FailingCfEncodeHandsOverNothing := by
  intro s
  refine ⟨fun none => ?noImage, fun h described long => ?writerFull, fun h described fits long => ?soutFull⟩
  case noImage => simp [exec, execCfEncode, cfEncodeOp, none]
  case writerFull =>
    obtain ⟨u, started⟩ := encodeStarted h described
    rcases started.tags_cases with ⟨fits, -⟩ | ⟨-, t, k, e, hk, put, stream, fits, full⟩
    · omega
    refine ⟨{ t with soutLen := 0#32 }, k, exec_cfEncode_raise described ?_, hk, stream, fits, full, ?_, ?_⟩
    · rw [started.rest, e, Res.bind_raise]
    · exact ⟨by rw [put.frame]; exact started.index.stored, by rw [put.frame]; exact started.index.others⟩
    · rw [put.frame, started.frame]
  case soutFull =>
    obtain ⟨u, started⟩ := encodeStarted h described
    rcases started.tags_cases with ⟨-, t, e, ht, put, stream, nbits⟩ | ⟨full, -⟩
    swap
    · omega
    obtain ⟨v, e', finished, hv⟩ := bwFinishOp_finishes ht (by rw [put.frame, started.frame])
    have frame : v = { s with
        wbuf := v.wbuf, wbufDraws := v.wbufDraws, bwLen := v.bwLen, cur := 0#8, bwCursor := 0#3, fin := true
        ribuf := u.ribuf, riCount := BitVec.ofNat 32 (ceilDiv s.height.toNat 8), riValid := true } := by
      rw [finished.frame, put.frame, started.frame]
    have bytes : v.bwLen.toNat = ceilDiv s.imageBits.length 8 := by rw [finished.count, nbits]
    have rows : v.riCount.toNat = ceilDiv s.height.toNat 8 := (hv.rows (by rw [frame])).trans (by rw [frame])
    have overflow : v.params.soutCap < containerLength v.riCount.toNat v.bwLen.toNat := by
      rw [container_length, ← rows, ← bytes] at long
      rw [show v.params = s.params by rw [frame]]
      exact long
    have full := cfAssembleOp_full (by rw [frame]) (by rw [frame]) overflow
    refine ⟨{ v with soutLen := 0#32 }, exec_cfEncode_raise described ?_, ?_, ?_, ?_⟩
    · rw [started.rest, e, Res.bind_ok, e', Res.bind_ok, full]
    · exact ⟨by rw [frame]; exact started.index.stored, by rw [frame]; exact started.index.others⟩
    · exact finished.bytes.trans (by rw [stream])
    · rw [← bytes, BitVec.ofNat_toNat, BitVec.setWidth_eq, frame]

end Proofs
end Sys2Proof
end

section
/-! PROOFS. What the block does right after reset. -/

namespace Sys2Proof
namespace Machine

section Reset
variable (p : Params)

/-- The composed registers are 0 after reset: so is each of their fields. -/
theorem composedRegisters_resetWith :
    (State.resetWith p).bwState = 0#16 ∧ (State.resetWith p).brState = 0#8 ∧ (State.resetWith p).flags = 0#8 := by
  refine ⟨?_, ?_, ?_⟩
  · change (0#4 ++ BitVec.ofBool false ++ 0#3 ++ 0#8 : BitVec (4 + 1 + 3 + 8)) = 0#16; decide
  · change (0#5 ++ 0#3 : BitVec (5 + 3)) = 0#8; decide
  · change (0#6 ++ BitVec.ofBool false ++ BitVec.ofBool false : BitVec (6 + 1 + 1)) = 0#8; decide

/-- After reset every register number reads 0 (R37). -/
theorem readReg_resetWith (r : Word32) : readReg r (State.resetWith p) = 0#32 := by
  obtain ⟨writer, reader, flags⟩ := composedRegisters_resetWith p
  unfold readReg
  split
  case h_8 => rw [writer]; rfl
  case h_12 => rw [reader]; rfl
  case h_13 => rw [flags]; rfl
  all_goals rfl

/-- After reset no byte has been written (R311). -/
theorem memGet_resetWith (sp : Space) (a : Nat) : memGet ((State.resetWith p).mem sp) a = none := by
  cases sp <;> rfl

/-- After reset the slice is empty (R37), so no bit can be taken. -/
theorem brTake_resetWith : brTake (State.resetWith p) = .raise .outOfData (State.resetWith p) :=
  if_pos (Nat.le_refl 0)

/-- Nor can any positive count of bits. -/
theorem brTakeBits_resetWith {w k : Nat} (positive : 1 ≤ k) (v : BitVec w) :
    brTakeBits k v (State.resetWith p) = .raise .outOfData (State.resetWith p) := by
  obtain ⟨k, rfl⟩ := Nat.exists_eq_add_of_le' positive
  rw [brTakeBits, brTake_resetWith, Res.bind_raise]

/-- After reset one bit can be put without a BW_INIT (R312). -/
theorem bwPutbit_resetWith {p : Params} (legal : p.Legal) (b : Bool) :
    ∃ t, exec (.bwPutbit b) (State.resetWith p) = .next (returnValue 0#32 t) ∧ t.written = [b] := by
  have room : ceilDiv ((State.resetWith p).nbits + [b].length) 8 ≤ (State.resetWith p).params.wbufCap := by
    obtain ⟨-, -, -, positive, -⟩ := legal
    rw [resetWith_nbits, ceilDiv_eight_le]
    exact positive.trans (Nat.le_mul_of_pos_left _ (by decide))
  obtain ⟨t, e, put, -⟩ := bwPut_appends (resetWith_inv legal) rfl room
  have isOpen : (State.resetWith p).fin = false := rfl
  exact ⟨t, by simp [exec, execBwPutbit, bwPutOp, isOpen, e], put.stream⟩

end Reset

end Machine

namespace Proofs
open Sys2Proof.Machine

/-- Settles O13: reset clears every register and lists no byte. -/
theorem resetLeavesEveryRegisterZero : Obligations.ResetLeavesEveryRegisterZero :=
  fun p => ⟨readReg_resetWith p, memGet_resetWith p⟩

/-- Settles O14: the writer is open and empty, the slice is empty, and there is neither image nor row index, so each check
for one of them is the one that raises. -/
theorem firstCommandsAfterReset : Obligations.FirstCommandsAfterReset := by
  intro p b y g k legal positive most s
  have noImage : s.imgValid = false := rfl
  have noIndex : s.riValid = false := rfl
  have count : ¬ Config.nMax < k.toNat := Nat.not_lt.mpr most
  refine ⟨bwPutbit_resetWith legal b, ?getbit, ?getbyte, ?build, ?getbits, ?group, ?row, ?encode, ?test, ?decode,
    ?assemble⟩
  case getbit => rw [exec, execBrGetbit, brTake_resetWith]; rfl
  case getbyte => rw [exec, execBrGetbyte, brTakeBits_resetWith p (by decide)]; rfl
  case build => simp [exec, execReiBuild, reiBuildOp, noImage]
  case getbits =>
    rw [exec, execBrGetbits, decide_eq_false count, raiseIf_false, Res.bind_ok, brTakeBits_resetWith p positive]; rfl
  case group => simp [exec, execBeEncodeGroup, noImage]
  case row => simp [exec, execBeEncodeRow, beEncodeRowOp, noImage]
  case encode => simp [exec, execCfEncode, cfEncodeOp, noImage]; rfl
  case test => simp [exec, execReiTest, noIndex]
  case decode => simp [exec, execBdDecodeRow, bdDecodeRowOp, noIndex]
  case assemble => simp [exec, execCfAssemble, cfAssembleOp, noIndex]

end Proofs
end Sys2Proof
end

section
/-! PROOFS. Every step keeps the invariants: one judgement for "does not fault and leaves the invariants, however it
ends", its rules, and the operations of the block one after another. -/

namespace Sys2Proof
namespace Machine

/-! ### The judgement and its rules -/

/-- The operation does not fault, and however it ends the state it leaves meets the invariants; a cause it raises is one
that some rule raises. -/
def Res.Safe {α : Type} : Res α → Prop
  | .ok _ t => t.Inv
  | .raise c t => c ≠ .invalidTag ∧ t.Inv
  | .fault _ => False

section Rules
variable {α β γ : Type} {f : State → γ} {s : State}

/-- A sequence is safe when its first part is and its second part is from every state that meets the invariants and that
the first part can leave. -/
theorem Res.Safe.bind_keeping {r : Res α} {k : α → State → Res β} (first : r.Safe) (kept : r.Keeps f s)
    (second : ∀ a t, t.Inv → f t = f s → (k a t).Safe) : (r.bind k).Safe := by
  cases r with
  | ok a t => exact second a t first kept
  | raise c t => exact first
  | fault d => exact first

/-- A sequence whose second part is safe from every state that meets the invariants. -/
theorem Res.Safe.bind {r : Res α} {k : α → State → Res β} (first : r.Safe) (second : ∀ a t, t.Inv → (k a t).Safe) :
    (r.bind k).Safe := by
  cases r with
  | ok a t => exact second a t first
  | raise c t => exact first
  | fault d => exact first

/-- A normal end is safe when its state meets the invariants. -/
theorem Res.Safe.ok {a : α} {t : State} (h : t.Inv) : (Res.ok a t).Safe := h

/-- Computing a value is safe. -/
theorem Res.Safe.returning {r : Res α} {g : α → State → β} (body : r.Safe) : (r.bind fun a t => .ok (g a t) t).Safe :=
  body.bind fun _ _ ht => ht

/-- A check is safe, and what follows it runs only when it does not hold. -/
theorem Res.Safe.check {b : Bool} {c : Cause} {k : Unit → State → Res β} (h : s.Inv) (legal : c ≠ .invalidTag)
    (rest : b = false → (k () s).Safe) : ((raiseIf b c s).bind k).Safe := by
  cases b with
  | true => exact ⟨legal, h⟩
  | false => exact rest rfl

/-- Handling a raise is safe when the handler is. -/
theorem Res.Safe.onRaise {r : Res α} {h : State → Res Unit} (body : r.Safe) (kept : r.Keeps f s)
    (handler : ∀ t, t.Inv → f t = f s → (h t).Safe) : (r.onRaise h).Safe := by
  cases r with
  | ok a t => exact body
  | raise c t =>
    obtain ⟨legal, ht⟩ := body
    exact (handler t ht kept).bind fun _ _ hu => ⟨legal, hu⟩
  | fault d => exact body

/-- What sees nothing of a state is always kept. -/
theorem Res.keeps_nothing (r : Res α) (s : State) : r.Keeps (fun _ => ()) s := by
  cases r <;> trivial

/-- A loop is safe when every turn is, from every state that meets the invariants and that the turns before can leave. -/
theorem forLoop_safe {body : Nat → State → Res Unit} {k i : Nat} (h : s.Inv) (keeps : ∀ j t, (body j t).Keeps f t)
    (turn : ∀ j t, j < i + k → t.Inv → f t = f s → (body j t).Safe) : (forLoop body k i s).Safe := by
  induction k generalizing i s with
  | zero => exact h
  | succ k ih =>
    exact (turn i s (by omega) h rfl).bind_keeping (keeps i s) fun _ t ht kept =>
      ih ht fun j u hj hu same => turn j u (by omega) hu (same.trans kept)

/-- A safe command ends in a state that meets the invariants (R285, R286). -/
theorem complete_safe {r : Res Word32} (safe : r.Safe) : ∃ t, complete r = .next t ∧ t.Inv := by
  cases r with
  | ok v t => exact ⟨_, rfl, State.Inv.endCommand safe List.mem_cons_self fun error => absurd rfl error⟩
  | raise c t => exact ⟨_, rfl, State.Inv.endCommand safe.2 (causeStatus_legal safe.1) fun _ => rfl⟩
  | fault d => exact safe.elim

end Rules

/-! ### The Bit Reader -/

section Reader
variable {s : State}

/-- The reader one bit further on, when there is a bit left. -/
theorem State.Inv.advanceReader (h : s.Inv) (more : s.brIdx.toNat < s.brLen.toNat) : s.advanceReader.Inv := by
  unfold State.advanceReader
  split
  · exact h.withReader (by bv_omega) fun _ => rfl
  · exact h.withReader (by omega) fun atEnd => absurd more (by simp [atEnd])

/-- Taking a bit is safe: the slice lies inside SIN (R29). -/
theorem brTake_safe (h : s.Inv) : (brTake s).Safe := by
  rcases brTake_cases s with ⟨-, e⟩ | ⟨more, -, e⟩ | ⟨more, outside, -⟩
  · rw [e]; exact ⟨by decide, h⟩
  · rw [e]; exact h.advanceReader more
  · have slice := h.slice
    omega

theorem brTakeBits_safe {w : Nat} (k : Nat) (v : BitVec w) (h : s.Inv) : (brTakeBits k v s).Safe := by
  induction k generalizing v s with
  | zero => exact h
  | succ k ih => exact (brTake_safe h).bind fun b t ht => ih (shiftIn v b) ht

theorem fetchTag_safe (h : s.Inv) : (fetchTag s).Safe := by
  have byte {t : State} (ht : t.Inv) : (brTakeByte t).Safe := brTakeBits_safe 8 _ ht
  refine (brTake_safe h).bind fun b0 t ht => ?_
  split
  · refine (brTake_safe ht).bind fun b1 u hu => ?_
    split
    · exact (byte hu).bind fun _ _ h1 => (byte h1).bind fun _ _ h2 => (byte h2).bind fun _ _ h3 => (byte h3).returning
    · exact hu
  · exact ht

end Reader

/-! ### The Block Decoder -/

section Decoder
variable {s : State}

/-- What bounds the image, and whether a bitmap is held: no decode changes it. -/
def State.shape (s : State) : Word32 × Word32 × Bool := (s.width, s.height, s.riValid)

theorem shape_sparesDecode : SparesDecode State.shape :=
  ⟨fun _ _ _ => rfl, fun _ _ => rfl, fun _ _ _ => rfl, fun _ _ => rfl⟩

theorem shape_eq {s t : State} (same : t.shape = s.shape) :
    t.width = s.width ∧ t.height = s.height ∧ t.riValid = s.riValid := by
  simpa [State.shape] using same

/-- A tag gives at most the group's valid pixels. -/
theorem tagPixels_length_le (n : Nat) (t : Tag) : (tagPixels n t).length ≤ n := by
  cases t <;> simp [tagPixels]

/-- Filling a group of the image is safe. -/
theorem runTag_safe (t : Tag) (h : s.Inv) (hy : s.tagRow.toNat < s.height.toNat)
    (hg : s.tagGroup.toNat < groupCount s.width.toNat) : (runTag t s).Safe := by
  have inside := group_inside hy hg
  have fits := h.fits
  have short := tagPixels_length_le (validCount s.width.toNat s.tagGroup.toNat) t
  have ends : pixelAddr s.width.toNat (4 * s.tagGroup.toNat) s.tagRow.toNat +
      (tagPixels (validCount s.width.toNat s.tagGroup.toNat) t).length ≤ s.params.cap .img := by
    simp only [Params.cap]
    omega
  rw [runTag, memWriteBytes_inside ends]
  exact h.writeBytes (.inr ends)

/-- Leaving bytes of the image unspecified is safe. -/
theorem unspecifyImg_safe {a n : Nat} (h : s.Inv) (inside : a + n ≤ s.width.toNat * s.height.toNat) :
    (unspecifyImg a n s).Safe := by
  have fits := h.fits
  have ends : a + ((List.range n).map fun i => Config.freeByte s.draws (a + i)).length ≤ s.params.cap .img := by
    simp only [List.length_map, List.length_range, Params.cap]
    omega
  have written := memWriteBytes_inside (s := { s with draws := s.draws + 1 }) ends
  rw [unspecifyImg, written]
  exact (h.withDraws (s.draws + 1)).writeBytes (.inr ends)

/-- Decoding a group of the image is safe. -/
theorem bdGroupBody_safe {y g : Nat} (h : s.Inv) (hy : y < s.height.toNat) (hg : g < groupCount s.width.toNat) :
    (bdGroupBody y g s).Safe := by
  have row : (BitVec.ofNat 32 y).toNat = y := by
    rw [BitVec.toNat_ofNat, Nat.mod_eq_of_lt (by omega)]
  have group : (BitVec.ofNat 32 g).toNat = g := by
    have := (validCount_bounds hg).1
    rw [BitVec.toNat_ofNat, Nat.mod_eq_of_lt (by omega)]
  refine (fetchTag_safe (h.atGroup _ _)).bind_keeping
    (fetchTag_keeps (f := fun t => (t.width, t.height, t.tagRow, t.tagGroup)) (fun _ _ _ => rfl) _) fun t u hu same => ?_
  simp only [State.atGroup_width, State.atGroup_height, State.atGroup_tagRow, State.atGroup_tagGroup,
    Prod.mk.injEq] at same
  obtain ⟨width, height, tagRow, tagGroup⟩ := same
  exact (runTag_safe t hu (by rwa [tagRow, height, row]) (by rwa [tagGroup, width, group])).returning

/-- Decoding a row, its checks included, is safe. -/
theorem bdDecodeRowOp_safe (y : Nat) (h : s.Inv) : (bdDecodeRowOp y s).Safe := by
  refine .check h (by decide) fun held => .check h (by decide) fun below => ?_
  have hy : y < s.height.toNat := by simpa using below
  have row := row_inside (w := s.width.toNat) hy
  have fits := h.fits
  rw [h.rixBit_eq (.inr (by simpa using held)) hy, Res.bind_ok]
  split
  · have ends : pixelAddr s.width.toNat 0 y + (List.replicate s.width.toNat Config.white).length ≤ s.params.cap .img := by
      simp only [List.length_replicate, Params.cap]
      omega
    rw [bdFillRow, memWriteBytes_inside ends]
    exact h.writeBytes (.inr ends)
  · have keeps (g : Nat) (t : State) :
        ((bdGroupBody y g t).bind fun _ u => .ok () u).Keeps State.shape t :=
      (bdGroupBody_keeps shape_sparesDecode y g t).returning
    refine Res.Safe.returning (Res.Safe.onRaise (f := State.shape) (s := s) ?_ (forLoop_keeps_frame keeps _ _ s) ?_)
    · refine forLoop_safe h keeps fun g t hg ht same => ?_
      obtain ⟨width, height, -⟩ := shape_eq same
      exact (bdGroupBody_safe ht (by rwa [height]) (by rw [width]; omega)).returning
    · intro t ht same
      obtain ⟨width, height, -⟩ := shape_eq same
      exact unspecifyImg_safe ht (by rwa [width, height])

end Decoder

/-! ### The encode side -/

section Encoder
variable {s : State}

theorem bwPut_safe (bs : List Bool) (h : s.Inv) (isOpen : s.fin = false) : (bwPut bs s).Safe := by
  by_cases room : ceilDiv (s.nbits + bs.length) 8 ≤ s.params.wbufCap
  · obtain ⟨t, e, -, ht⟩ := bwPut_appends h isOpen room
    rw [e]; exact ht
  · rw [bwPut_full (by omega)]; exact ⟨by decide, h⟩

theorem bwPutOp_safe (bs : List Bool) (h : s.Inv) : (bwPutOp bs s).Safe :=
  .check h (by decide) fun isOpen => (bwPut_safe bs h isOpen).returning

theorem bwFinishOp_safe (h : s.Inv) : (bwFinishOp s).Safe := by
  cases finished : s.fin with
  | true => rw [bwFinishOp, if_pos finished]; exact h
  | false =>
    obtain ⟨t, e, -, ht⟩ := bwFinishOp_finishes h finished
    rw [e]; exact ht

theorem encodeTags_safe (ts : List Tag) (h : s.Inv) (isOpen : s.fin = false) : (encodeTags ts s).Safe := by
  rcases encodeTags_cases ts h isOpen with ⟨t, e, -, ht⟩ | ⟨t, k, e, -, -, ht, -⟩
  · rw [e]; exact ht
  · rw [e]; exact ⟨by decide, ht⟩

theorem reiBuildOp_safe (h : s.Inv) : (reiBuildOp s).Safe := by
  cases described : s.imgValid with
  | true =>
    obtain ⟨t, e, -, -, -, ht⟩ := reiBuildOp_builds h described
    rw [e]; exact ht
  | false => rw [reiBuildOp, described]; exact ⟨by decide, h⟩

theorem beEncodeRowOp_safe (y : Nat) (h : s.Inv) : (beEncodeRowOp y s).Safe := by
  refine .check h (by decide) fun described => .check h (by decide) fun below => .check h (by decide) fun _ =>
    .check h (by decide) fun isOpen => ?_
  have hy : y < s.height.toNat := by simpa using below
  rw [h.rixBit_eq (.inl (by simpa using described)) hy, Res.bind_ok]
  split
  · exact h
  · rw [beGroups_eq h isOpen hy]
    exact (encodeTags_safe _ h isOpen).returning

/-- Assembling is safe: the bitmap fits RIBUF, the output fits WBUF, and the container is checked against SOUT. -/
theorem cfAssembleOp_safe (h : s.Inv) : (cfAssembleOp s).Safe := by
  refine .check h (by decide) fun held => .check h (by decide) fun _ => .check h (by decide) fun short => ?_
  have held : s.riValid = true := by simpa using held
  have short : containerLength s.riCount.toNat s.bwLen.toNat ≤ s.params.soutCap := by simpa using short
  have rows : 0 + s.riCount.toNat ≤ s.params.cap .ribuf := by
    rw [h.rows held, Nat.zero_add]
    exact rows_fit_ribuf (h.positive (.inr held)).1 h.fits
  have stream : 0 + s.bwLen.toNat ≤ s.params.cap .wbuf := by
    have room := (ceilDiv_eight_le _ _).mp h.room
    simp only [State.nbits] at room
    simp only [Params.cap]
    omega
  have container : 0 + (assembleBytes (s.bytes .ribuf 0 s.riCount.toNat) (s.bytes .wbuf 0 s.bwLen.toNat) s).length ≤
      s.params.cap .sout := by
    simpa [assembleBytes, containerLength, Config.headerLen, Params.cap, Nat.add_assoc] using short
  have capacity := h.cap_lt .sout
  simp only [Params.cap] at capacity
  have length : (BitVec.ofNat 32 (containerLength s.riCount.toNat s.bwLen.toNat)).toNat ≤ s.params.soutCap := by
    rw [BitVec.toNat_ofNat, Nat.mod_eq_of_lt (by omega)]
    exact short
  rw [memReadBytes_inside rows, Res.bind_ok, memReadBytes_inside stream, Res.bind_ok, memWriteBytes_inside container]
  have stored := h.writeBytes (.inr container)
  exact { stored with stream := length }

theorem cfEncodeOp_safe (h : s.Inv) : (cfEncodeOp s).Safe := by
  refine .check h (by decide) fun described => ?_
  obtain ⟨t, started⟩ := encodeStarted h (by simpa using described)
  rw [started.rest]
  exact (encodeTags_safe _ started.inv (by rw [started.frame])).bind fun _ _ hu =>
    (bwFinishOp_safe hu).bind fun _ _ hv => cfAssembleOp_safe hv

end Encoder

/-! ### CF_PARSE (R221) -/

section Parse
variable {s : State} {l : Nat}

/-- The machine reads a header field inside SIN (R10). -/
theorem readLe32_eq {a : Nat} (inside : a + 4 ≤ s.params.sinCap) : readLe32 a s = .ok (s.sinLe32 a) s := by
  rw [readLe32, memReadBytes_inside (by exact inside), Res.bind_ok]
  rfl

/-- The causes CF_PARSE raises are each raised by a rule (R221). -/
theorem parseError_legal {c : Cause} (e : s.parseError l = some c) : c ≠ .invalidTag := by
  rintro rfl
  unfold State.parseError at e
  split_ifs at e <;> cases e

/-- What the checks of CF_PARSE establish (R221). -/
theorem parseError_none (e : s.parseError l = none) :
    19 + s.sinLe32 11 + s.sinLe32 15 ≤ s.params.sinCap ∧
    (1 ≤ s.sinLe32 3 ∧ s.sinLe32 3 ≤ Config.dimMax) ∧ (1 ≤ s.sinLe32 7 ∧ s.sinLe32 7 ≤ Config.dimMax) ∧
    s.sinLe32 11 = ceilDiv (s.sinLe32 7) 8 ∧ s.sinLe32 3 * s.sinLe32 7 ≤ s.params.imgCap := by
  unfold State.parseError at e
  split_ifs at e with h1 h2 h3 h4 h5 h6 h7 h8
  simp only [not_or, not_not] at h6 h7
  omega

/-- One check of a list of checks: it raises its cause when its condition holds, else the later checks decide. -/
theorem raiseIf_bind_elim {β : Type} {p : Prop} [Decidable p] {b : Bool} {c : Cause} {o : Option Cause} {d : Res β}
    {k : Unit → State → Res β} (condition : b = true ↔ p) (rest : ¬ p → k () s = o.elim d fun c => .raise c s) :
    (raiseIf b c s).bind k = (if p then some c else o).elim d fun c => .raise c s := by
  by_cases holds : p
  · rw [raiseIf_bind, if_pos (condition.mpr holds), if_pos holds]; rfl
  · rw [raiseIf_bind, if_neg (holds ∘ condition.mp), if_neg holds, rest holds]

/-- CF_PARSE raises its first error and changes nothing, or commits (R221). -/
theorem cfParseOp_eq (s : State) (l : Nat) :
    cfParseOp l s = (s.parseError l).elim
      (cfParseCommit (s.sinLe32 3) (s.sinLe32 7) (s.sinLe32 11) (s.sinLe32 15) s) fun c => .raise c s := by
  refine raiseIf_bind_elim decide_eq_true_iff fun inside => raiseIf_bind_elim decide_eq_true_iff fun long => ?_
  have byte {a : Nat} (ha : a < 19) : memRead .sin a s = .ok (s.byte .sin a) s :=
    memRead_inside (show a < s.params.sinCap by omega)
  have word {a : Nat} (ha : a < 16) : readLe32 a s = .ok (s.sinLe32 a) s := readLe32_eq (by omega)
  rw [byte (by decide), Res.bind_ok, byte (by decide), Res.bind_ok]
  refine raiseIf_bind_elim decide_eq_true_iff fun _ => ?_
  rw [byte (by decide), Res.bind_ok]
  refine raiseIf_bind_elim decide_eq_true_iff fun _ => ?_
  rw [word (by decide), Res.bind_ok, word (by decide), Res.bind_ok, word (by decide), Res.bind_ok, word (by decide),
    Res.bind_ok]
  refine raiseIf_bind_elim decide_eq_true_iff fun _ => raiseIf_bind_elim ?_ fun _ =>
    raiseIf_bind_elim decide_eq_true_iff fun _ => raiseIf_bind_elim decide_eq_true_iff fun _ => rfl
  simp only [legalDim, Bool.not_eq_true', Bool.and_eq_false_iff, decide_eq_false_iff_not]
  omega

/-- The first registers CF_PARSE commits, before it reads the row index (R221). -/
def State.withHeader (s : State) : State :=
  { s with
    width := BitVec.ofNat 32 (s.sinLe32 3), height := BitVec.ofNat 32 (s.sinLe32 7)
    riCount := BitVec.ofNat 32 (s.sinLe32 11), bsCount := BitVec.ofNat 32 (s.sinLe32 15) }

/-- A commit of CF_PARSE: RIBUF holds the row index, the registers are those of the header, the slice is the bitstream,
and the invariants are kept (R221). -/
theorem cfParseCommit_commits (h : s.Inv) (e : s.parseError l = none) :
    ∃ t, cfParseCommit (s.sinLe32 3) (s.sinLe32 7) (s.sinLe32 11) (s.sinLe32 15) s = .ok 0#32 t ∧
      Stores .ribuf 0 (s.bytes .sin 19 (s.sinLe32 11)) s t ∧ t = { s.parsed with ribuf := t.ribuf } ∧ t.Inv := by
  obtain ⟨slice, ⟨wide, width⟩, ⟨high, height⟩, rows, fits⟩ := parseError_none e
  have bitmap := rows_fit_ribuf wide fits
  rw [← rows] at bitmap
  have capacity := h.cap_lt .sin
  simp only [Params.cap] at capacity
  have dimension : Config.dimMax < 2 ^ 32 := by decide
  have word {n : Nat} (hn : n < 2 ^ 32) : (BitVec.ofNat 32 n).toNat = n := by
    rw [BitVec.toNat_ofNat, Nat.mod_eq_of_lt hn]
  have toWidth := word (show s.sinLe32 3 < 2 ^ 32 by omega)
  have toHeight := word (show s.sinLe32 7 < 2 ^ 32 by omega)
  have toRows := word (show s.sinLe32 11 < 2 ^ 32 by omega)
  have toBytes := word (show s.sinLe32 15 < 2 ^ 32 by omega)
  have toBase := word (show Config.headerLen + s.sinLe32 11 < 2 ^ 32 by simp only [Config.headerLen]; omega)
  have stored : 0 + (s.bytes .sin 19 (s.sinLe32 11)).length ≤ s.params.cap .ribuf := by simpa [Params.cap] using bitmap
  have kept := h.writeBytes (.inr stored)
  have read : memReadBytes .sin (s.sinLe32 11) Config.headerLen s.withHeader =
      .ok (s.bytes .sin 19 (s.sinLe32 11)) s.withHeader :=
    memReadBytes_inside (show 19 + s.sinLe32 11 ≤ s.params.sinCap by omega)
  have written := memWriteBytes_inside (s := s.withHeader) stored
  have stores := stores_memSetBytes .ribuf 0 (s.bytes .sin 19 (s.sinLe32 11)) s
  refine ⟨{ s.parsed with ribuf := memSetBytes 0 (s.bytes .sin 19 (s.sinLe32 11)) s.ribuf }, ?_,
    ⟨stores.stored, stores.others⟩, rfl, ?_⟩
  · rw [cfParseCommit, ← State.withHeader, read, Res.bind_ok, written]
    rfl
  · exact { kept with
      dims := ⟨toWidth.trans_le width, toHeight.trans_le height⟩
      fits := by
        change (BitVec.ofNat 32 (s.sinLe32 3)).toNat * (BitVec.ofNat 32 (s.sinLe32 7)).toNat ≤ _
        rwa [toWidth, toHeight]
      positive := fun _ => ⟨wide.trans_eq toWidth.symm, high.trans_eq toHeight.symm⟩
      rows := fun _ => by
        change (BitVec.ofNat 32 (s.sinLe32 11)).toNat = ceilDiv (BitVec.ofNat 32 (s.sinLe32 7)).toNat 8
        rw [toRows, toHeight, rows]
      slice := by
        change (BitVec.ofNat 32 (Config.headerLen + s.sinLe32 11)).toNat + (BitVec.ofNat 32 (s.sinLe32 15)).toNat ≤ _
        rw [toBase, toBytes]
        exact slice
      position := Nat.zero_le _
      atEnd := fun _ => rfl
      bitmap := fun _ a ha => by
        have ha : a < s.sinLe32 11 := toRows ▸ ha
        change (memGet (memSetBytes 0 (s.bytes .sin 19 (s.sinLe32 11)) s.ribuf) a).isSome = true
        simp [memGet_memSetBytes, ha] }

theorem cfParseOp_safe (l : Nat) (h : s.Inv) : (cfParseOp l s).Safe := by
  rw [cfParseOp_eq]
  cases e : s.parseError l with
  | some c => exact ⟨parseError_legal e, h⟩
  | none =>
    obtain ⟨t, e', -, -, ht⟩ := cfParseCommit_commits h e
    rw [Option.elim_none, e']
    exact ht

/-- After a commit the image has positive dimensions (R24). -/
theorem cfParseOp_held (h : s.Inv) {v : Word32} {t : State} (e : cfParseOp l s = .ok v t) : t.riValid = true := by
  rw [cfParseOp_eq] at e
  cases e' : s.parseError l with
  | some c => rw [e'] at e; cases e
  | none =>
    obtain ⟨u, committed, -, frame, -⟩ := cfParseCommit_commits h e'
    rw [e', Option.elim_none, committed] at e
    cases e
    rw [frame]
    rfl

end Parse

/-! ### The instructions -/

section Instructions
variable {s t : State}

/-- Decoding the rows after a commit is safe, and so is handing the image over (R224, R226). -/
theorem cfDecodeTail_safe (h : s.Inv) (held : s.riValid = true) :
    (((cfDecodeRows s).onRaise (unspecifyImg 0 (s.width.toNat * s.height.toNat))).bind fun _ u =>
      .ok (BitVec.ofNat 32 (u.width.toNat * u.height.toNat)) { u with imgValid := true }).Safe := by
  have keeps (y : Nat) (t : State) : ((bdDecodeRowOp y t).bind fun _ u => .ok () u).Keeps State.shape t :=
    (bdDecodeRowOp_keeps shape_sparesDecode y t).returning
  have rows : (cfDecodeRows s).Keeps State.shape s := forLoop_keeps_frame keeps _ _ s
  have safe : (cfDecodeRows s).Safe :=
    forLoop_safe h keeps fun y _ _ ht _ => (bdDecodeRowOp_safe y ht).returning
  have handled : ((cfDecodeRows s).onRaise (unspecifyImg 0 (s.width.toNat * s.height.toNat))).Safe :=
    safe.onRaise rows fun t ht same => by
      obtain ⟨width, height, -⟩ := shape_eq same
      exact unspecifyImg_safe ht (by rw [width, height, Nat.zero_add])
  refine handled.bind_keeping (rows.onRaise (unspecifyImg_keeps (fun _ _ => rfl) (fun _ _ => rfl) _ _))
    fun _ t ht same => ?_
  obtain ⟨-, -, indexed⟩ := shape_eq same
  exact { ht with positive := fun _ => ht.positive (.inr (indexed.trans held)) }

/-- A tag that ends keeps the invariants: it wrote inside IMG (log 5). -/
theorem tagOutcome_inv {tag : Tag} (h : s.Inv) (e : tagOutcome (runTag tag s) = .next t) : t.Inv := by
  rcases memWriteBytes_cases .img (pixelAddr s.width.toNat (4 * s.tagGroup.toNat) s.tagRow.toNat)
    (tagPixels (validCount s.width.toNat s.tagGroup.toNat) tag) s with ⟨ends, inside⟩ | ⟨_, faults⟩
  · rw [runTag, ends] at e
    cases e
    exact h.writeBytes inside
  · rw [runTag, faults] at e
    cases e

/-- Something the host does that ends keeps the invariants: it wrote inside its space (log 8). -/
theorem hostWrite_inv {sp : Space} {a : Nat} {bs : List Byte} (h : s.Inv)
    (e : hostOutcome (memWriteBytes sp a bs s) = .next t) : t.Inv := by
  rcases memWriteBytes_cases sp a bs s with ⟨ends, inside⟩ | ⟨_, faults⟩
  · rw [ends] at e
    cases e
    exact h.writeBytes inside
  · rw [faults] at e
    cases e

/-- The host's copy likewise (R227). -/
theorem hostCopySout_inv {src dst len : Nat} (h : s.Inv) (e : hostOutcome (hostCopySout src dst len s) = .next t) :
    t.Inv := by
  unfold hostCopySout at e
  cases read : memReadBytes .sout len src s with
  | ok bs u =>
    obtain ⟨rfl, -⟩ := memReadBytes_ok read
    rw [read] at e
    exact hostWrite_inv h e
  | raise c u =>
    have kept : (memReadBytes .sout len src s).Keeps id s := memReadBytes_keeps _ _ _ s
    rw [read] at e kept
    have same : u = s := kept
    cases e
    exact same ▸ h
  | fault f =>
    rw [read] at e
    cases e

/-- CF_DECODE is safe (R224, R226). -/
theorem cfDecode_safe (l : Nat) (h : s.Inv) :
    ((cfParseOp l s).bind fun _ t =>
      ((cfDecodeRows t).onRaise (unspecifyImg 0 (t.width.toNat * t.height.toNat))).bind fun _ u =>
      .ok (BitVec.ofNat 32 (u.width.toNat * u.height.toNat)) { u with imgValid := true }).Safe := by
  have parsed := cfParseOp_safe l h
  cases e : cfParseOp l s with
  | ok v t =>
    rw [e] at parsed
    exact cfDecodeTail_safe parsed (cfParseOp_held h e)
  | raise c t => rw [e] at parsed; exact parsed
  | fault f => rw [e] at parsed; exact parsed

/-- Clearing every register keeps the invariants: each bound is one on 0, and no bitmap is held (R261). -/
theorem State.Inv.resetRegisters (h : s.Inv) : s.resetRegisters.Inv :=
  { h with
    dims := ⟨Nat.zero_le _, Nat.zero_le _⟩, fits := Nat.zero_le _
    positive := fun held => by simp at held
    rows := fun held => by simp at held
    clean := fun k _ => BitVec.getLsbD_zero
    flushed := fun finished => by simp at finished
    room := (ceilDiv_eight_le _ _).mpr (Nat.zero_le _)
    slice := Nat.zero_le _, position := Nat.zero_le _, atEnd := fun _ => rfl
    stream := Nat.zero_le _, status := List.mem_cons_self, failed := fun error => absurd rfl error
    output := fun a below => absurd below (Nat.not_lt_zero a)
    bitmap := fun held => by simp at held }

/-- Describing an image whose dimensions pass the checks is safe (R263). -/
theorem imgdescOp_safe (w h : Word32) (inv : s.Inv) : (imgdescOp w h s).Safe := by
  refine .check inv (by decide) fun width => .check inv (by decide) fun height =>
    .check inv (by decide) fun fits => ?_
  simp only [legalDim, Bool.not_eq_false', Bool.and_eq_true, decide_eq_true_eq] at width height
  exact .ok { inv with
    dims := ⟨width.2, height.2⟩
    fits := by simpa using fits
    positive := fun _ => ⟨width.1, height.1⟩
    rows := fun held => by simp at held
    bitmap := fun held => by simp at held }

/-- Releasing the image keeps the invariants (R264). -/
theorem State.Inv.release (h : s.Inv) : { s with imgValid := false, riValid := false }.Inv :=
  { h with
    positive := fun held => by simp at held
    rows := fun held => by simp at held
    bitmap := fun held => by simp at held }

/-- A command that is no tag code ends in a state that meets the invariants (R67). -/
theorem exec_command_ends {i : Instr} (h : s.Inv) (white : i ≠ .tagWhite) (black : i ≠ .tagBlack)
    (literal : ∀ p q r v, i ≠ .tagLiteral p q r v) : ∃ t, exec i s = .next t ∧ t.Inv := by
  cases i with
  | nop => exact ⟨_, rfl, h.respond _ _⟩
  | rdreg r => exact ⟨_, rfl, h.respond _ _⟩
  | srst => exact complete_safe (.ok h.resetRegisters)
  | imgdesc width height => exact complete_safe (imgdescOp_safe width height h)
  | imgrel => exact complete_safe (.ok h.release)
  | bwInit => exact complete_safe (.ok h.bwInit)
  | bwPutbit b => exact complete_safe (bwPutOp_safe [b] h)
  | bwPutbits n v => exact complete_safe (.check h (by decide) fun _ => bwPutOp_safe _ h)
  | bwPutbyte v => exact complete_safe (bwPutOp_safe _ h)
  | bwFinish => exact complete_safe (bwFinishOp_safe h)
  | brInit base len =>
    exact complete_safe (.check h (by decide) fun inside => .ok (h.wrapSlice (by simpa using inside)))
  | brGetbit => exact complete_safe (brTake_safe h).returning
  | brGetbits k => exact complete_safe (.check h (by decide) fun _ => brTakeBits_safe _ _ h)
  | brGetbyte => exact complete_safe (brTakeBits_safe _ _ h)
  | reiBuild => exact complete_safe (reiBuildOp_safe h)
  | reiTest y =>
    refine complete_safe (.check h (by decide) fun held => .check h (by decide) fun below => ?_)
    rw [h.rixBit_eq (.inr (by simpa using held)) (by simpa using below)]
    exact .ok h
  | beEncodeGroup y g =>
    refine complete_safe (.check h (by decide) fun _ => .check h (by decide) fun below => .check h (by decide)
      fun group => .check h (by decide) fun isOpen => ?_)
    rw [beGroupBody_eq h.fits (by simpa using below) (by simpa using group)]
    exact (encodeTags_safe _ h isOpen).returning
  | beEncodeRow y => exact complete_safe (beEncodeRowOp_safe _ h)
  | bdDecodeGroup y g =>
    refine complete_safe (.check h (by decide) fun below => .check h (by decide) fun group => ?_)
    have hy : y.toNat < s.height.toNat := by simpa using below
    have hg : g.toNat < groupCount s.width.toNat := by simpa using group
    refine (bdGroupBody_safe h hy hg).onRaise (bdGroupBody_keeps shape_sparesDecode _ _ s) fun t ht same => ?_
    obtain ⟨width, height, -⟩ := shape_eq same
    exact unspecifyImg_safe ht (by rw [width, height]; exact group_inside hy hg)
  | bdDecodeRow y => exact complete_safe (bdDecodeRowOp_safe _ h)
  | cfAssemble => exact complete_safe (cfAssembleOp_safe h)
  | cfParse l => exact complete_safe (cfParseOp_safe _ h)
  | cfEncode =>
    exact complete_safe ((cfEncodeOp_safe h).onRaise ((cfEncodeOp s).keeps_nothing s) fun t ht _ =>
      .ok (ht.withSoutLen (Nat.zero_le _)))
  | cfDecode l => exact complete_safe (cfDecode_safe _ h)
  | tagWhite => exact absurd rfl white
  | tagBlack => exact absurd rfl black
  | tagLiteral p q r v => exact absurd rfl (literal p q r v)

/-- Every instruction that ends keeps the invariants. -/
theorem exec_keeps_inv {i : Instr} (h : s.Inv) (e : exec i s = .next t) : t.Inv := by
  have command (white : i ≠ .tagWhite) (black : i ≠ .tagBlack) (literal : ∀ p q r v, i ≠ .tagLiteral p q r v) :
      t.Inv := by
    obtain ⟨u, ends, hu⟩ := exec_command_ends h white black literal
    rw [e] at ends
    cases ends
    exact hu
  cases i
  case tagWhite => exact tagOutcome_inv h e
  case tagBlack => exact tagOutcome_inv h e
  case tagLiteral => exact tagOutcome_inv h e
  all_goals exact command (by simp) (by simp) (by simp)

/-- A command word keeps the invariants, whether it decodes or is reserved (R93). -/
theorem runCommand_keeps_inv {w : CommandWord} (h : s.Inv) (e : runCommand w s = .next t) : t.Inv := by
  unfold runCommand at e
  split at e
  · exact exec_keeps_inv h e
  · cases e
    exact h.endCommand (causeStatus_legal (by decide)) fun _ => rfl

end Instructions

end Machine

namespace Proofs
open Sys2Proof.Machine

/-- Settles O55: a step idles, runs one command word, or writes IMG or SIN for the host. -/
theorem everyStepKeepsTheInvariants : Obligations.EveryStepKeepsTheInvariants := by
  intro s t h e
  rcases step_cases s with ⟨-, idle⟩ | ⟨w, rest, -, runs⟩ | ⟨a, bs, rest, -, writes⟩ | ⟨a, bs, rest, -, writes⟩ |
    ⟨src, dst, len, rest, -, copies⟩
  · rw [idle] at e
    cases e
    exact h
  · exact runCommand_keeps_inv (h.withPort rest) (runs ▸ e)
  · exact hostWrite_inv (h.withPort rest) (writes ▸ e)
  · exact hostWrite_inv (h.withPort rest) (writes ▸ e)
  · exact hostCopySout_inv (h.withPort rest) (copies ▸ e)

end Proofs
end Sys2Proof
end

section
/-! PROOFS. The five spaces: what the host's actions store (R316), that no command leaves a space (R67), which
instructions write which space (R61 to R65), and that a decode writes IMG only inside the image it decodes (R61). -/

namespace Sys2Proof
namespace Machine

/-! ### The host (R60, R316) -/

section Host
variable {s t : State} {rest : List HostAction}

theorem step_idle (port : s.port = []) : step s = .next s := by
  simp only [step, port]

theorem step_command {w : CommandWord} (port : s.port = .command w :: rest) :
    step s = runCommand w { s with port := rest } := by
  simp only [step, port]

theorem step_writeImg {a : Nat} {bs : List Byte} (port : s.port = .writeImg a bs :: rest) :
    step s = hostOutcome (memWriteBytes .img a bs { s with port := rest }) := by
  simp only [step, port]

theorem step_writeSin {a : Nat} {bs : List Byte} (port : s.port = .writeSin a bs :: rest) :
    step s = hostOutcome (memWriteBytes .sin a bs { s with port := rest }) := by
  simp only [step, port]

theorem step_copySout {src dst len : Nat} (port : s.port = .copySout src dst len :: rest) :
    step s = hostOutcome (hostCopySout src dst len { s with port := rest }) := by
  simp only [step, port]

/-- Taking an action from the port changes no byte, so what is stored after it is stored from before it. -/
theorem Stores.of_withPort {sp : Space} {a : Nat} {bs : List Byte} (stores : Stores sp a bs { s with port := rest } t) :
    Stores sp a bs s t := by
  have bytes (x : Nat) : { s with port := rest }.byte sp x = s.byte sp x := by cases sp <;> rfl
  exact ⟨stores.stored, fun x outside => (stores.others x outside).trans (bytes x)⟩

/-- A host write inside a space stores its bytes there and changes nothing else. -/
theorem hostWrite_stores {sp : Space} {a : Nat} {bs : List Byte} (inside : a + bs.length ≤ s.params.cap sp) :
    ∃ t, hostOutcome (memWriteBytes sp a bs s) = .next t ∧ Stores sp a bs s t ∧ t = s.setMem sp (t.mem sp) :=
  ⟨_, by rw [memWriteBytes_inside inside]; rfl, stores_memSetBytes sp a bs s, by rw [State.setMem_mem_same]⟩

/-- A host copy out of SOUT is a host write of the bytes SOUT holds (R227). -/
theorem hostCopySout_eq {src dst len : Nat} (inside : src + len ≤ s.params.soutCap) :
    hostCopySout src dst len s = memWriteBytes .sin dst (s.bytes .sout src len) s := by
  rw [hostCopySout, memReadBytes_inside inside, Res.bind_ok]

end Host

/-! ### Commands (R67) -/

/-- The opcode map holds no tag code (R92). -/
theorem decodeCommand_no_tag {w : CommandWord} {i : Instr} (e : decodeCommand w = .ok i) :
    i ≠ .tagWhite ∧ i ≠ .tagBlack ∧ ∀ p q r v, i ≠ .tagLiteral p q r v := by
  unfold decodeCommand at e
  split at e <;> cases e <;> simp

/-- From a state that meets the invariants a command word never stops the block: an instruction ends, and a reserved
word ends in an error (R67, R93). -/
theorem runCommand_goes {s : State} (h : s.Inv) (w : CommandWord) : Goes (runCommand w s) := by
  unfold runCommand
  split
  case h_1 i decoded =>
    obtain ⟨white, black, literal⟩ := decodeCommand_no_tag decoded
    obtain ⟨t, ends, -⟩ := exec_command_ends h white black literal
    exact ⟨t, ends⟩
  case h_2 => exact ⟨_, rfl⟩

/-! ### The frame judgement, where a part needs what the parts before it kept -/

section Rules
variable {α β γ δ : Type} {f : State → γ} {g : State → δ} {s : State}

/-- The second part of a sequence may use what the first part is known to keep. -/
theorem Res.Keeps.bind_knowing {r : Res α} {k : α → State → Res β} (first : r.Keeps f s) (known : r.Keeps g s)
    (second : ∀ a t, g t = g s → (k a t).Keeps f t) : (r.bind k).Keeps f s := by
  cases r with
  | ok a t => exact (second a t known).rebase first
  | raise c t => exact first
  | fault d => trivial

/-- What follows a check may use that the check did not hold. -/
theorem Res.Keeps.check_passed {b : Bool} {c : Cause} {k : Unit → State → Res β}
    (rest : b = false → (k () s).Keeps f s) : ((raiseIf b c s).bind k).Keeps f s := by
  cases b with
  | true => exact rfl
  | false => exact rest rfl

/-- The handler of a raise may use what the operation kept. -/
theorem Res.Keeps.onRaise_knowing {r : Res α} {h : State → Res Unit} (body : r.Keeps f s)
    (handler : ∀ t, f t = f s → (h t).Keeps f t) : (r.onRaise h).Keeps f s := by
  cases r with
  | ok a t => exact body
  | raise c t =>
    have after : ((h t).bind fun _ u => (.raise c u : Res α)).Keeps f t := (handler t body).bind fun _ _ => rfl
    exact after.rebase body
  | fault d => trivial

/-- A turn of a loop may use its index's bound and what the turns before it kept. -/
theorem forLoop_keeps_knowing {body : Nat → State → Res Unit} {k i : Nat}
    (turn : ∀ j t, j < i + k → f t = f s → (body j t).Keeps f t) : (forLoop body k i s).Keeps f s := by
  induction k generalizing i s with
  | zero => exact rfl
  | succ k ih =>
    have first := turn i s (by omega) rfl
    exact first.bind_knowing first fun _ t same => ih fun j u hj kept => turn j u (by omega) (kept.trans same)

end Rules

/-! ### Writes inside the image (R61) -/

section Image
variable {s : State} {y g : Nat}

/-- The dimensions, and the bytes of IMG from `WIDTH * HEIGHT` up. -/
def State.imageFrame (s : State) : Word32 × Word32 × (Nat → Byte) :=
  (s.width, s.height, fun i => s.byte .img (s.width.toNat * s.height.toNat + i))

theorem imageFrame_dims {t : State} (same : t.imageFrame = s.imageFrame) :
    t.width = s.width ∧ t.height = s.height := by
  simp only [State.imageFrame, Prod.mk.injEq] at same
  obtain ⟨width, height, -⟩ := same
  exact ⟨width, height⟩

/-- States with the same image frame agree at every address beyond the image. -/
theorem imageFrame_byte {t : State} (same : t.imageFrame = s.imageFrame) {a : Nat}
    (beyond : t.width.toNat * t.height.toNat ≤ a) : t.byte .img a = s.byte .img a := by
  simp only [State.imageFrame, Prod.mk.injEq] at same
  obtain ⟨width, height, bytes⟩ := same
  have byte := congrFun bytes (a - t.width.toNat * t.height.toNat)
  rwa [← width, ← height, Nat.add_sub_cancel' beyond] at byte

/-- Writing bytes inside the image keeps its frame. -/
theorem memWriteBytes_keeps_imageFrame {a : Nat} {bs : List Byte}
    (inside : a + bs.length ≤ s.width.toNat * s.height.toNat) :
    (memWriteBytes .img a bs s).Keeps State.imageFrame s := by
  rcases memWriteBytes_cases .img a bs s with ⟨e, -⟩ | ⟨_, e⟩ <;> rw [e]
  · have others := (stores_memSetBytes .img a bs s).others
    exact congrArg (fun bytes => (s.width, s.height, bytes)) (funext fun i =>
      others _ (.inr (inside.trans (Nat.le_add_right _ i))))
  · trivial

/-- Leaving bytes of the image unspecified keeps its frame. -/
theorem unspecifyImg_keeps_imageFrame {a n : Nat} (inside : a + n ≤ s.width.toNat * s.height.toNat) :
    (unspecifyImg a n s).Keeps State.imageFrame s :=
  (memWriteBytes_keeps_imageFrame (s := { s with draws := s.draws + 1 }) (by simpa using inside)).rebase rfl

/-- Filling a group of the image keeps the image's frame. -/
theorem runTag_keeps_imageFrame (t : Tag) (hy : s.tagRow.toNat < s.height.toNat)
    (hg : s.tagGroup.toNat < groupCount s.width.toNat) : (runTag t s).Keeps State.imageFrame s := by
  have inside := group_inside hy hg
  have short := tagPixels_length_le (validCount s.width.toNat s.tagGroup.toNat) t
  exact memWriteBytes_keeps_imageFrame (by omega)

/-- Decoding a group of the image keeps the image's frame. -/
theorem bdGroupBody_keeps_imageFrame (hy : y < s.height.toNat) (hg : g < groupCount s.width.toNat) :
    (bdGroupBody y g s).Keeps State.imageFrame s := by
  have row : (BitVec.ofNat 32 y).toNat < s.height.toNat := (Nat.mod_le y _).trans_lt hy
  have group : (BitVec.ofNat 32 g).toNat < groupCount s.width.toNat := (Nat.mod_le g _).trans_lt hg
  have placed : (bdGroupBody y g s).Keeps State.imageFrame (s.atGroup (BitVec.ofNat 32 y) (BitVec.ofNat 32 g)) := by
    refine (fetchTag_keeps (fun _ _ _ => rfl) _).bind_knowing
      (fetchTag_keeps (f := fun t => (t.width, t.height, t.tagRow, t.tagGroup)) (fun _ _ _ => rfl) _) fun t u same => ?_
    simp only [State.atGroup_width, State.atGroup_height, State.atGroup_tagRow, State.atGroup_tagGroup,
      Prod.mk.injEq] at same
    obtain ⟨width, height, tagRow, tagGroup⟩ := same
    exact (runTag_keeps_imageFrame t (by rwa [tagRow, height]) (by rwa [tagGroup, width])).returning
  exact placed.rebase rfl

/-- Decoding a row, its checks included, keeps the image's frame. -/
theorem bdDecodeRowOp_keeps_imageFrame (y : Nat) (s : State) : (bdDecodeRowOp y s).Keeps State.imageFrame s := by
  refine .check (.check_passed fun below => ?_)
  have hy : y < s.height.toNat := by simpa using below
  have bit : (rixBit y s).Keeps State.imageFrame s := rixBit_keeps y s
  refine bit.bind_knowing bit fun e t same => ?_
  obtain ⟨-, height⟩ := imageFrame_dims same
  rw [← height] at hy
  have row := row_inside (w := t.width.toNat) hy
  split
  · exact (memWriteBytes_keeps_imageFrame (by simpa using row)).returning
  · refine Res.Keeps.returning (.onRaise_knowing (forLoop_keeps_knowing fun g u hg kept => ?_) fun u kept => ?_)
    · obtain ⟨width, height⟩ := imageFrame_dims kept
      exact (bdGroupBody_keeps_imageFrame (by rwa [height]) (by rw [width]; omega)).returning
    · obtain ⟨width, height⟩ := imageFrame_dims kept
      exact unspecifyImg_keeps_imageFrame (by rwa [width, height])

/-- BD_DECODE_GROUP keeps the image's frame (R201). -/
theorem execBdDecodeGroup_keeps_imageFrame {t : State} {y g : Word32} (e : execBdDecodeGroup y g s = .next t) :
    t.imageFrame = s.imageFrame := by
  refine complete_keeps e (fun _ _ _ => rfl) (.check_passed fun below => .check_passed fun group => ?_)
  have hy : y.toNat < s.height.toNat := by simpa using below
  have hg : g.toNat < groupCount s.width.toNat := by simpa using group
  refine (bdGroupBody_keeps_imageFrame hy hg).onRaise_knowing fun u kept => ?_
  obtain ⟨width, height⟩ := imageFrame_dims kept
  exact unspecifyImg_keeps_imageFrame (by rw [width, height]; exact group_inside hy hg)

/-- Decoding the rows after a header, and handing the image over, keep the image's frame (R224, R226). -/
theorem cfDecodeTail_keeps_imageFrame (s : State) :
    (((cfDecodeRows s).onRaise (unspecifyImg 0 (s.width.toNat * s.height.toNat))).bind fun _ u =>
      .ok (BitVec.ofNat 32 (u.width.toNat * u.height.toNat)) { u with imgValid := true }).Keeps State.imageFrame s := by
  have rows : (cfDecodeRows s).Keeps State.imageFrame s :=
    forLoop_keeps_frame (fun y t => (bdDecodeRowOp_keeps_imageFrame y t).returning) _ _ s
  refine Res.Keeps.bind (rows.onRaise_knowing fun t kept => ?_) fun _ _ => .ok rfl
  obtain ⟨width, height⟩ := imageFrame_dims kept
  exact unspecifyImg_keeps_imageFrame (by rw [width, height, Nat.zero_add])

/-- CF_DECODE changes no byte of IMG beyond the image its header describes: the header's commit writes no byte of IMG,
and the decode that follows keeps the frame of the committed image (R224, R226). -/
theorem execCfDecode_beyond {t : State} {l : Word32} (e : execCfDecode l s = .next t) {a : Nat}
    (beyond : t.width.toNat * t.height.toNat ≤ a) : t.byte .img a = s.byte .img a := by
  have header : (cfParseOp l.toNat s).Keeps (fun u => u.byte .img a) s :=
    cfParseOp_keeps (fun _ _ => rfl) (fun _ _ _ _ _ => rfl) (fun _ _ _ => rfl) _ s
  unfold execCfDecode at e
  cases parsed : cfParseOp l.toNat s with
  | ok v u =>
    rw [parsed] at e header
    have kept := complete_keeps e (fun _ _ _ => rfl) (cfDecodeTail_keeps_imageFrame u)
    exact (imageFrame_byte kept beyond).trans header
  | raise c u =>
    rw [parsed] at e header
    cases e
    exact header
  | fault d =>
    rw [parsed] at e
    cases e

/-- IMG's bytes are those of its contents. -/
theorem byte_img_eq {t : State} (same : t.img = s.img) (a : Nat) : t.byte .img a = s.byte .img a := by
  simp [State.byte, State.mem, State.unlisted, same]

end Image

end Machine

namespace Proofs
open Sys2Proof.Machine

/-- Settles O9: a host action that fits its spaces is one run of writes to one space. -/
theorem hostActionsWriteOnlyTheirSpace : Obligations.HostActionsWriteOnlyTheirSpace := by
  intro s rest
  refine ⟨step_idle, fun a bs port inside => ?img, fun a bs port inside => ?sin,
    fun src dst len port source target => ?copy⟩
  case img =>
    obtain ⟨t, ends, stores, frame⟩ := hostWrite_stores (sp := .img) (s := { s with port := rest }) inside
    exact ⟨t, (step_writeImg port).trans ends, stores.of_withPort, frame⟩
  case sin =>
    obtain ⟨t, ends, stores, frame⟩ := hostWrite_stores (sp := .sin) (s := { s with port := rest }) inside
    exact ⟨t, (step_writeSin port).trans ends, stores.of_withPort, frame⟩
  case copy =>
    have inside : dst + (s.bytes .sout src len).length ≤ s.params.cap .sin := by rwa [State.bytes_length]
    obtain ⟨t, ends, stores, frame⟩ := hostWrite_stores (s := { s with port := rest }) inside
    have copies := hostCopySout_eq (s := { s with port := rest }) (dst := dst) source
    exact ⟨t, ((step_copySout port).trans (congrArg hostOutcome copies)).trans ends, stores.of_withPort, frame⟩

/-- Settles O56: the step runs the command word, from a state that differs only in the port. -/
theorem noCommandLeavesItsSpace : Obligations.NoCommandLeavesItsSpace := by
  rintro s h ⟨w, rest, port⟩
  rw [step_command port]
  exact runCommand_goes (h.withPort rest) w

/-- Settles O57: a space outside an instruction's write set keeps its contents. -/
theorem spacesWrittenOnlyByTheirCommands : Obligations.SpacesWrittenOnlyByTheirCommands := by
  intro i s t e
  have kept := exec_keeps_unwritten e
  cases i
  -- The frame, read field by field, names the spaces that kept their contents; the others are those of the instruction.
  all_goals
    simp only [unwritten, State.resetRegisters, State.sansOutcome, State.sansWriter, State.sansPosition,
      State.sansDecode, State.sansIndex, State.sansContainer, State.sansParse, State.mk.injEq] at kept
    simp [kept]

/-- Settles O60: by O57 only the decode commands write IMG, and each of them keeps the frame of the image it decodes. -/
theorem nothingBeyondTheImageIsWritten : Obligations.NothingBeyondTheImageIsWritten := by
  intro i s t _ white black literal e a beyond
  obtain ⟨-, -, img, -, -⟩ := spacesWrittenOnlyByTheirCommands i s t e
  rcases img with same | ⟨y, g, rfl⟩ | ⟨y, rfl⟩ | ⟨l, rfl⟩ | rfl | rfl | ⟨p, q, r, v, rfl⟩
  · exact byte_img_eq same a
  · exact imageFrame_byte (execBdDecodeGroup_keeps_imageFrame e) beyond
  · exact imageFrame_byte (complete_keeps e (fun _ _ _ => rfl) (bdDecodeRowOp_keeps_imageFrame y.toNat s)) beyond
  · exact execCfDecode_beyond e beyond
  · exact absurd rfl white
  · exact absurd rfl black
  · exact absurd rfl (literal p q r v)

end Proofs
end Sys2Proof
end

section
/-! PROOFS. Decode against encode: the fields of a command word (R90 to R93), the tag codes, none of which begins
another (R98 to R100), and the step that runs or refuses a command word. -/

namespace Sys2Proof
open Machine

/-! ### The command word (R90, R93) -/

/-- A word of 32 bits placed below others adds its value to theirs, moved up. -/
theorem toNat_append_word {k : Nat} (high : BitVec k) (low : Word32) :
    (high ++ low).toNat = high.toNat * 2 ^ 32 + low.toNat := by
  rw [BitVec.toNat_append, ← Nat.shiftLeft_add_eq_or_of_lt low.isLt, Nat.shiftLeft_eq]

section Fields
variable (opc n : Byte) (a b : Word32)

/-- A command word is its four fields, OPC in the highest bits (R90). -/
theorem commandWord_toNat :
    (commandWord opc n a b).toNat = opc.toNat * 2 ^ 72 + n.toNat * 2 ^ 64 + a.toNat * 2 ^ 32 + b.toNat := by
  rw [commandWord, toNat_append_word, toNat_append_word, BitVec.toNat_append,
    ← Nat.shiftLeft_add_eq_or_of_lt n.isLt, Nat.shiftLeft_eq]
  omega

@[simp] theorem CommandWord.opc_commandWord : CommandWord.opc (commandWord opc n a b) = opc :=
  Laws.EncodingMatchesTable.opc_commandWord opc n a b

@[simp] theorem CommandWord.n_commandWord : CommandWord.n (commandWord opc n a b) = n := by
  refine BitVec.eq_of_toNat_eq ?_
  rw [CommandWord.n, BitVec.extractLsb'_toNat, commandWord_toNat, Nat.shiftRight_eq_div_pow]
  omega

@[simp] theorem CommandWord.a_commandWord : CommandWord.a (commandWord opc n a b) = a := by
  refine BitVec.eq_of_toNat_eq ?_
  rw [CommandWord.a, BitVec.extractLsb'_toNat, commandWord_toNat, Nat.shiftRight_eq_div_pow]
  omega

@[simp] theorem CommandWord.b_commandWord : CommandWord.b (commandWord opc n a b) = b := by
  refine BitVec.eq_of_toNat_eq ?_
  rw [CommandWord.b, BitVec.extractLsb'_toNat, commandWord_toNat, Nat.shiftRight_zero]
  omega

end Fields

/-- The low byte of a word, as BW_PUTBYTE takes it (R94). -/
@[simp] theorem extractLsb'_low_byte (b : Word32) : b.extractLsb' 0 8 = b.setWidth 8 :=
  (BitVec.setWidth_eq_extractLsb' (by decide)).symm

/-- OPC is what stands above the other 72 bits (R90). -/
theorem CommandWord.opc_toNat (w : CommandWord) : (CommandWord.opc w).toNat = w.toNat / 2 ^ 72 := by
  rw [CommandWord.opc, BitVec.extractLsb'_toNat, Nat.shiftRight_eq_div_pow]
  omega

/-- An OPC in one of the reserved ranges (R93). -/
def ReservedOpc (opc : Nat) : Prop :=
  (0x05 ≤ opc ∧ opc ≤ 0x0F) ∨ (0x15 ≤ opc ∧ opc ≤ 0x1F) ∨ (0x24 ≤ opc ∧ opc ≤ 0x2F) ∨ (0x32 ≤ opc ∧ opc ≤ 0x3F) ∨
    (0x42 ≤ opc ∧ opc ≤ 0x4F) ∨ (0x52 ≤ opc ∧ opc ≤ 0x5F) ∨ (0x64 ≤ opc ∧ opc ≤ 0xFF)

/-- A command word is refused exactly when its OPC is reserved: each row of the opcode map has an OPC outside the
ranges, and an OPC that is no row's is inside one (R92, R93). -/
theorem decodeCommand_error_iff (w : CommandWord) :
    (∃ e, decodeCommand w = .error e) ↔ ReservedOpc (CommandWord.opc w).toNat := by
  have byte : (CommandWord.opc w).toNat < 256 := (CommandWord.opc w).isLt
  unfold decodeCommand ReservedOpc
  generalize (CommandWord.opc w).toNat = k at byte ⊢
  split
  case h_25 =>
    refine iff_of_true ⟨_, rfl⟩ ?_
    simp only [imp_false] at *
    omega
  all_goals simp

/-! ### The tag code (R98 to R100) -/

/-- Eight bits are those of their value. -/
theorem msbBits_msbValue {bs : List Bool} (length : bs.length = 8) : msbBits 8 (msbValue bs : Byte) = bs := by
  refine List.ext_getElem (by simp [length]) fun i _ hi => ?_
  have turned : bs.reverse[7 - i]? = some bs[i] := by
    rw [List.getElem?_reverse (by omega), List.getElem?_eq_getElem (by omega)]
    simp [length, show 7 - (7 - i) = i by omega]
  simp [msbBits_eq_map, getLsbD_msbValue, turned, show 7 - i < 8 by omega]

/-- Eight bits before others are taken as their byte. -/
theorem takeByte_append (v : Byte) (rest : List Bool) : takeByte (msbBits 8 v ++ rest) = .ok (v, rest) := by
  have long : ¬ (msbBits 8 v ++ rest).length < 8 := by simp
  rw [takeByte, if_neg long, List.take_left' (msbBits_length 8 v), List.drop_left' (msbBits_length 8 v),
    msbValue_msbBits]

/-- At least eight bits begin with those of a byte. -/
theorem exists_byte {bs : List Bool} (long : 8 ≤ bs.length) : ∃ (v : Byte) (rest : List Bool),
    bs = msbBits 8 v ++ rest ∧ rest.length + 8 = bs.length := by
  have front : (bs.take 8).length = 8 := by simpa using long
  exact ⟨msbValue (bs.take 8), bs.drop 8, by rw [msbBits_msbValue front, List.take_append_drop], by simp; omega⟩

/-- A tag is read from its bits and no others (R99). -/
theorem decodeTag_append (t : Tag) (rest : List Bool) : decodeTag (t.bits ++ rest) = .ok (t, rest) := by
  cases t with
  | white => rfl
  | black => rfl
  | literal p0 p1 p2 p3 =>
    simp only [Tag.bits, List.append_assoc, List.cons_append, List.nil_append, decodeTag, takePayload, takeByte_append]

/-- At least 34 bits begin with those of a tag (R100). -/
theorem exists_tag {bs : List Bool} (long : 34 ≤ bs.length) : ∃ (t : Tag) (rest : List Bool), bs = t.bits ++ rest := by
  match bs with
  | false :: rest => exact ⟨.white, rest, rfl⟩
  | true :: false :: rest => exact ⟨.black, rest, rfl⟩
  | true :: true :: payload =>
    simp only [List.length_cons] at long
    obtain ⟨p0, rest0, rfl, length0⟩ := exists_byte (bs := payload) (by omega)
    obtain ⟨p1, rest1, rfl, length1⟩ := exists_byte (bs := rest0) (by omega)
    obtain ⟨p2, rest2, rfl, length2⟩ := exists_byte (bs := rest1) (by omega)
    obtain ⟨p3, rest3, rfl, -⟩ := exists_byte (bs := rest2) (by omega)
    exact ⟨.literal p0 p1 p2 p3, rest3, by simp [Tag.bits]⟩

namespace Proofs

/-- Settles O2: the fields of a command word are those it was made of, and OPC selects the row that reads them. -/
theorem opcodeMapDecodes : Obligations.OpcodeMapDecodes := by
  intro opc n a b
  refine ⟨commandWord_toNat opc n a b, ?_⟩
  simp [decodeCommand]

/-- Settles O1: the fields of an encoded command are its operands, and a tag's bits are read as the tag. -/
theorem decodeOfEncode : Obligations.DecodeOfEncode := by
  intro i
  have tag (t : Tag) : decode (.tag t.bits) = .ok t.toInstr := by
    have read := decodeTag_append t []
    rw [List.append_nil] at read
    rw [decode, read]
  cases i
  case tagWhite => exact tag .white
  case tagBlack => exact tag .black
  case tagLiteral p q r v => exact tag (.literal p q r v)
  case bwPutbit b => cases b <;> simp [encode, decode, decodeCommand]
  -- Every other command: OPC selects the row it was assembled from, and each operand is its field read back.
  all_goals simp [encode, decode, decodeCommand]

/-- Settles O4: a tag is read from its bits and no others, so of two tags beginning one string both are the one read. -/
theorem tagsFormPrefixCode : Obligations.TagsFormPrefixCode := by
  refine ⟨decodeTag_append, fun t t' ⟨rest, whole⟩ => ?_⟩
  have read := decodeTag_append t rest
  rw [whole, ← List.append_nil t'.bits, decodeTag_append] at read
  cases read
  rfl

/-- Settles O5: at least 34 bits begin with those of a tag, which is then the one read. -/
theorem noTagCodeIsIllegal : Obligations.NoTagCodeIsIllegal := by
  intro bs long
  obtain ⟨t, rest, rfl⟩ := exists_tag long
  exact ⟨t, rest, decodeTag_append t rest, rfl⟩

/-- Settles O6: each word is a closed value, and the decoder evaluates on it. -/
theorem sampleWordsDecode : Obligations.SampleWordsDecode := by
  unfold Obligations.SampleWordsDecode
  decide

/-- Settles O8: the step takes the word from the port and performs it. -/
theorem stepRunsDecodedInstruction : Obligations.StepRunsDecodedInstruction := by
  intro s w rest i port decoded
  rw [step_command port, runCommand, decoded]

/-- Settles O3: the reserved ranges are what the rows of the opcode map leave; a refused word raises ReservedOpcode, and
the count is the first check of the two commands that have one. -/
theorem reservedAndIllegalEncodings : Obligations.ReservedAndIllegalEncodings := by
  refine ⟨fun w => ?ranges, fun s w rest e port refused => ?reserved, fun s n v long => ?count⟩
  case ranges =>
    rw [decodeCommand_error_iff, CommandWord.opc_toNat]
    rfl
  case reserved =>
    rw [step_command port, runCommand, refused]
    rfl
  case count =>
    have above : Config.nMax < n.toNat := long
    constructor
    · rw [exec, execBwPutbits, decide_eq_true above]
      rfl
    · rw [exec, execBrGetbits, decide_eq_true above]
      rfl

end Proofs
end Sys2Proof
end

section
/-! PROOFS. What commands report and put: every command ends in an outcome that it reports (R95, R286), the put commands
run one after another (R97, R123 to R125), the lengths of the tags' codes (R98, R183), the tags as instructions (R201),
and CF_ENCODE of an image that fits (R223). -/

namespace Sys2Proof
namespace Machine

/-! ### The outcome of a command (R286) -/

/-- A command that writes STATUS ends by `complete`, and its body returns no response of its own. -/
theorem exec_eq_complete {i : Instr} (writes : writesStatus i = true) (s : State) :
    ∃ r : Res Word32, exec i s = complete r ∧ r.Keeps State.responses s := by
  have writer : SparesWriter State.responses := ⟨fun _ _ _ _ => rfl, fun _ _ => rfl⟩
  have decode : SparesDecode State.responses :=
    ⟨fun _ _ _ => rfl, fun _ _ => rfl, fun _ _ _ => rfl, fun _ _ => rfl⟩
  have memory (sp : Space) (t : State) (m : Memory) : (t.setMem sp m).responses = t.responses := t.setMem_responses sp m
  have unspecify (a n : Nat) (t : State) : (unspecifyImg a n t).Keeps State.responses t :=
    unspecifyImg_keeps (memory .img) (fun _ _ => rfl) a n t
  have parse (l : Nat) : (cfParseOp l s).Keeps State.responses s :=
    cfParseOp_keeps (memory .ribuf) (fun _ _ _ _ _ => rfl) (fun _ _ _ => rfl) l s
  cases i with
  | nop => cases writes
  | rdreg r => cases writes
  | srst => exact ⟨.ok _ _, rfl, .ok rfl⟩
  | imgdesc w h => exact ⟨_, rfl, .check (.check (.check (.ok rfl)))⟩
  | imgrel => exact ⟨.ok _ _, rfl, .ok rfl⟩
  | bwInit => exact ⟨.ok _ _, rfl, .ok rfl⟩
  | bwPutbit b => exact ⟨_, rfl, bwPutOp_keeps writer _ s⟩
  | bwPutbits n v => exact ⟨_, rfl, .check (bwPutOp_keeps writer _ s)⟩
  | bwPutbyte v => exact ⟨_, rfl, bwPutOp_keeps writer _ s⟩
  | bwFinish => exact ⟨_, rfl, bwFinishOp_keeps writer (fun _ => rfl) s⟩
  | brInit base len => exact ⟨_, rfl, .check (.ok rfl)⟩
  | brGetbit => exact ⟨_, rfl, (brTake_keeps decode.reader s).returning⟩
  | brGetbits k => exact ⟨_, rfl, .check (brTakeBits_keeps decode.reader _ _ s)⟩
  | brGetbyte => exact ⟨_, rfl, brTakeBits_keeps decode.reader _ _ s⟩
  | reiBuild => exact ⟨_, rfl, reiBuildOp_keeps (memory .ribuf) (fun _ _ => rfl) s⟩
  | reiTest y => exact ⟨_, rfl, .check (.check (rixBit_keeps y.toNat s).returning)⟩
  | beEncodeGroup y g => exact ⟨_, rfl, .check (.check (.check (.check (beGroupBody_keeps writer _ _ s))))⟩
  | beEncodeRow y => exact ⟨_, rfl, beEncodeRowOp_keeps writer _ s⟩
  | bdDecodeGroup y g =>
    exact ⟨_, rfl, .check (.check (.onRaise (bdGroupBody_keeps decode _ _ s) (unspecify _ _)))⟩
  | bdDecodeRow y => exact ⟨_, rfl, bdDecodeRowOp_keeps decode _ s⟩
  | cfAssemble => exact ⟨_, rfl, cfAssembleOp_keeps (memory .sout) (fun _ _ _ => rfl) s⟩
  | cfParse l => exact ⟨_, rfl, parse _⟩
  | cfEncode =>
    exact ⟨_, rfl, .onRaise (cfEncodeOp_keeps writer (fun _ _ => rfl) (memory .ribuf) (fun _ _ => rfl) (memory .sout)
      (fun _ _ _ => rfl) s) fun _ => .ok rfl⟩
  | cfDecode l =>
    have rows (t : State) : (cfDecodeRows t).Keeps State.responses t :=
      forLoop_keeps_frame (fun y u => (bdDecodeRowOp_keeps decode y u).returning) _ _ t
    exact ⟨_, rfl, (parse _).bind fun _ t => ((rows t).onRaise (unspecify _ _)).bind fun _ _ => .ok rfl⟩
  | tagWhite => cases writes
  | tagBlack => cases writes
  | tagLiteral p q r v => cases writes

/-! ### Puts one after another (R97) -/

section Puts
variable {s t : State}

/-- A put command with a legal count is a put of its bits (R123 to R125). -/
theorem exec_put {i : Instr} (legal : isPut i = true) (s : State) : exec i s = complete (bwPutOp (putBitsOf i) s) := by
  cases i
  case bwPutbit b => rfl
  case bwPutbits n v =>
    have count : ¬ Config.nMax < n.toNat := by simpa [isPut, Config.nMax] using legal
    rw [exec, execBwPutbits, decide_eq_false count, raiseIf_false, Res.bind_ok, msbBits_eq_map]
    rfl
  case bwPutbyte v =>
    rw [exec, execBwPutbyte, msbBits_eq_map]
    rfl
  all_goals cases legal

/-- A put into an open writer of bits that fit appends them, returns 0 and keeps the invariants. -/
theorem exec_put_appends {i : Instr} (legal : isPut i = true) (h : s.Inv) (isOpen : s.fin = false)
    (room : ceilDiv (s.nbits + (putBitsOf i).length) 8 ≤ s.params.wbufCap) :
    ∃ t, exec i s = .next (t.endCommand statusOk 0#32) ∧ Appends s t (putBitsOf i) ∧ t.Inv := by
  obtain ⟨t, e, put, ht⟩ := bwPut_appends h isOpen room
  exact ⟨t, by simp [exec_put legal, bwPutOp, isOpen, e], put, ht⟩

/-- Puts of bits that fit append all of them in order, and leave the writer open. -/
theorem execAll_puts {puts : List Instr} (legal : ∀ i ∈ puts, isPut i = true) (h : s.Inv) (isOpen : s.fin = false)
    (room : ceilDiv (s.nbits + (puts.flatMap putBitsOf).length) 8 ≤ s.params.wbufCap) :
    ∃ t, execAll puts s = .next t ∧ t.written = s.written ++ puts.flatMap putBitsOf ∧
      t.nbits = s.nbits + (puts.flatMap putBitsOf).length ∧ t.fin = false ∧ t.Inv := by
  induction puts generalizing s with
  | nil => exact ⟨s, rfl, by simp, by simp, isOpen, h⟩
  | cons i puts ih =>
    rw [List.flatMap_cons, List.length_append, ceilDiv_eight_le] at room
    obtain ⟨u, ends, put, hu⟩ := exec_put_appends (legal i List.mem_cons_self) h isOpen
      ((ceilDiv_eight_le _ _).mpr (by omega))
    have returned : (u.endCommand statusOk 0#32).nbits = s.nbits + (putBitsOf i).length := put.count
    have params : (u.endCommand statusOk 0#32).params = s.params := put.params_eq
    have hu : (u.endCommand statusOk 0#32).Inv := hu.endCommand List.mem_cons_self fun error => absurd rfl error
    obtain ⟨t, e, written, nbits, stillOpen, ht⟩ := ih (fun j hj => legal j (List.mem_cons_of_mem i hj)) hu
      (put.fin_eq.trans isOpen) ((ceilDiv_eight_le _ _).mpr (by rw [returned, params]; omega))
    refine ⟨t, by rw [execAll, ends]; exact e, ?_, ?_, stillOpen, ht⟩
    · have stream : (u.endCommand statusOk 0#32).written = s.written ++ putBitsOf i := put.stream
      rw [written, stream, List.flatMap_cons, List.append_assoc]
    · rw [nbits, returned, List.flatMap_cons, List.length_append, Nat.add_assoc]

end Puts

/-! ### The lengths of the codes (R98, R183) -/

section Lengths
variable {s : State} {y : Nat}

/-- The length of a tag's code (R98). -/
theorem bits_length (t : Tag) :
    t.bits.length = match t with | .white => 1 | .black => 2 | .literal _ _ _ _ => 34 := by
  cases t with
  | white => rfl
  | black => rfl
  | literal p0 p1 p2 p3 => simp [Tag.bits]

theorem bits_length_bounds (t : Tag) : 1 ≤ t.bits.length ∧ t.bits.length ≤ 34 := by
  rw [bits_length]
  cases t <;> simp

/-- Only White has a code of one bit. -/
theorem one_lt_bits_length {t : Tag} (coded : t ≠ .white) : 1 < t.bits.length := by
  rw [bits_length]
  cases t with
  | white => exact absurd rfl coded
  | black => decide
  | literal p0 p1 p2 p3 => simp

/-- A group with the pixels of a White tag is white. -/
theorem groupPixel_of_white {g i : Nat} (hi : i < 4) (white : s.tagOf y g = .white) : s.groupPixel y g i = 255#8 := by
  unfold State.tagOf at white
  split at white
  case isTrue pixels =>
    obtain ⟨p0, p1, p2, p3⟩ := pixels
    match i with
    | 0 => exact p0
    | 1 => exact p1
    | 2 => exact p2
    | 3 => exact p3
  case isFalse => split at white <;> cases white

/-- A row with a pixel other than white has a group whose tag is not White: the group of that pixel (R160, R180). -/
theorem exists_coded_group (coded : s.rowWhite y = false) :
    ∃ g < groupCount s.width.toNat, s.tagOf y g ≠ .white := by
  simp only [State.rowWhite, List.all_eq_false, List.mem_range, decide_eq_true_eq] at coded
  obtain ⟨x, hx, pixel⟩ := coded
  refine ⟨x / 4, by unfold groupCount ceilDiv; omega, fun white => pixel ?_⟩
  have same := groupPixel_of_white (Nat.mod_lt x (by decide)) white
  rwa [State.groupPixel, Nat.div_add_mod, if_pos hx, Nat.add_assoc, Nat.div_add_mod] at same

/-- A row's bits are those of its groups. -/
theorem rowBits_length (s : State) (y : Nat) :
    (s.rowBits y).length = ((List.range (groupCount s.width.toNat)).map fun g => (s.tagOf y g).bits.length).sum := by
  rw [State.rowBits, List.length_flatMap]

end Lengths

/-! ### Tags as instructions (R201; log 5) -/

/-- A tag that runs on a group of an image inside IMG stores the group's pixels and changes nothing else. -/
theorem tagOutcome_stores {s : State} (t : Tag) (hy : s.tagRow.toNat < s.height.toNat)
    (hg : s.tagGroup.toNat < groupCount s.width.toNat) (fits : s.width.toNat * s.height.toNat ≤ s.params.imgCap) :
    ∃ u, tagOutcome (runTag t s) = .next u ∧
      Stores .img (pixelAddr s.width.toNat (4 * s.tagGroup.toNat) s.tagRow.toNat)
        (tagPixels (validCount s.width.toNat s.tagGroup.toNat) t) s u ∧
      u = { s with img := u.img } := by
  have group := group_inside hy hg
  have short := tagPixels_length_le (validCount s.width.toNat s.tagGroup.toNat) t
  have inside : pixelAddr s.width.toNat (4 * s.tagGroup.toNat) s.tagRow.toNat +
      (tagPixels (validCount s.width.toNat s.tagGroup.toNat) t).length ≤ s.params.cap .img := by
    simp only [Params.cap]
    omega
  exact ⟨_, by rw [runTag, memWriteBytes_inside inside]; rfl, stores_memSetBytes .img _ _ s, rfl⟩

/-! ### CF_ENCODE of an image that fits (R220, R223) -/

section Encode
variable {s : State}

/-- What CF_ASSEMBLE copies to SOUT: the header, the row index and the writer's output (R220). -/
def State.assembled (s : State) : List Byte :=
  assembleBytes (s.bytes .ribuf 0 s.riCount.toNat) (s.bytes .wbuf 0 s.bwLen.toNat) s

@[simp] theorem State.assembled_length (s : State) :
    s.assembled.length = containerLength s.riCount.toNat s.bwLen.toNat := by
  simp [State.assembled, assembleBytes, containerLength, Config.headerLen, Nat.add_assoc]

/-- CF_ASSEMBLE of a container that fits SOUT stores it there and returns its length. -/
theorem cfAssembleOp_assembles (h : s.Inv) (held : s.riValid = true) (finished : s.fin = true)
    (fits : s.assembled.length ≤ s.params.soutCap) :
    ∃ t, cfAssembleOp s = .ok (BitVec.ofNat 32 s.assembled.length) t ∧ Stores .sout 0 s.assembled s t ∧
      t = { s with sout := t.sout, bsCount := s.bwLen, soutLen := BitVec.ofNat 32 s.assembled.length } := by
  have rows : 0 + s.riCount.toNat ≤ s.params.cap .ribuf := by
    rw [h.rows held, Nat.zero_add]
    exact rows_fit_ribuf (h.positive (.inr held)).1 h.fits
  have stream : 0 + s.bwLen.toNat ≤ s.params.cap .wbuf := by
    have room := (ceilDiv_eight_le _ _).mp h.room
    simp only [State.nbits] at room
    simp only [Params.cap]
    omega
  have written := memWriteBytes_inside (sp := .sout) (a := 0) (by rwa [Nat.zero_add] : 0 + s.assembled.length ≤ _)
  have stores := stores_memSetBytes .sout 0 s.assembled s
  refine ⟨{ s with
    sout := memSetBytes 0 s.assembled s.sout, bsCount := s.bwLen
    soutLen := BitVec.ofNat 32 s.assembled.length }, ?_, ⟨stores.stored, stores.others⟩, rfl⟩
  rw [State.assembled_length] at fits ⊢
  rw [cfAssembleOp, raiseIf_bind, if_neg (by simp [held]), raiseIf_bind, if_neg (by simp [finished]), raiseIf_bind,
    if_neg (by simpa using fits), memReadBytes_inside rows, Res.bind_ok, memReadBytes_inside stream, Res.bind_ok,
    ← State.assembled, written]
  rfl

/-- CF_ENCODE of an image whose bits fit WBUF comes to CF_ASSEMBLE with the image's row index and its packed bits. -/
theorem cfEncodeBody_flushed (h : s.Inv) (described : s.imgValid = true)
    (fits : ceilDiv s.imageBits.length 8 ≤ s.params.wbufCap) :
    ∃ t, cfEncodeBody s = cfAssembleOp t ∧ t.Inv ∧ t.bwLen.toNat = ceilDiv s.imageBits.length 8 ∧
      t.bytes .wbuf 0 t.bwLen.toNat = packed s.imageBits ∧ Stores .ribuf 0 s.indexBytes s t ∧
      t = { s with
        wbuf := t.wbuf, wbufDraws := t.wbufDraws, bwLen := BitVec.ofNat 32 (ceilDiv s.imageBits.length 8), cur := 0#8
        bwCursor := 0#3, fin := true, ribuf := t.ribuf
        riCount := BitVec.ofNat 32 (ceilDiv s.height.toNat 8), riValid := true } := by
  obtain ⟨u, started⟩ := encodeStarted h described
  rcases started.tags_cases with ⟨-, t, e, ht, put, stream, nbits⟩ | ⟨full, -⟩
  swap
  · omega
  obtain ⟨v, e', finished, hv⟩ := bwFinishOp_finishes ht (by rw [put.frame, started.frame])
  have length : v.bwLen.toNat = ceilDiv s.imageBits.length 8 := by rw [finished.count, nbits]
  have ribuf : v.ribuf = u.ribuf := by rw [finished.frame, put.frame]
  have bitmap (x : Nat) : v.byte .ribuf x = u.byte .ribuf x := by simp [State.byte, State.mem, State.unlisted, ribuf]
  refine ⟨v, by rw [started.rest, e, Res.bind_ok, e', Res.bind_ok], hv, length, finished.bytes.trans (by rw [stream]),
    ⟨(State.bytes_congr fun x _ _ => bitmap x).trans started.index.stored,
      fun x hx => (bitmap x).trans (started.index.others x hx)⟩, ?_⟩
  rw [← length, BitVec.ofNat_toNat, BitVec.setWidth_eq, finished.frame, put.frame, started.frame]

end Encode

end Machine

namespace Proofs
open Sys2Proof.Machine

/-- Settles O12: a command that writes STATUS ends by `complete`, which writes the response with the same two values. -/
theorem everyCommandReportsItsOutcome : Obligations.EveryCommandReportsItsOutcome := by
  refine fun i s t e => ⟨fun writes => ?reports, fun silent => ?keeps⟩
  case reports =>
    obtain ⟨r, ends, kept⟩ := exec_eq_complete writes s
    rw [ends] at e
    rcases complete_next e with ⟨v, u, rfl, rfl⟩ | ⟨c, u, rfl, rfl⟩
    · exact ⟨congrArg (_ :: ·) kept, fun error => absurd rfl error⟩
    · exact ⟨congrArg (_ :: ·) kept, fun _ => rfl⟩
  case keeps =>
    rcases silent with rfl | ⟨r, rfl⟩ <;> cases e <;> exact ⟨rfl, rfl⟩

/-- Settles O7: each expansion is a list of puts whose bits are those of the tag, and no tag has more than 34. -/
theorem pseudoCommandsPutTags : Obligations.PseudoCommandsPutTags := by
  intro s h isOpen room
  have run (p : Pseudo) {bs : List Bool} (legal : ∀ i ∈ p.expand, isPut i = true)
      (bits : p.expand.flatMap putBitsOf = bs) (short : bs.length ≤ 34) :
      ∃ t, execAll p.expand s = .next t ∧ t.written = s.written ++ bs := by
    rw [ceilDiv_eight_le] at room
    obtain ⟨t, ends, written, -⟩ := execAll_puts legal h isOpen ((ceilDiv_eight_le _ _).mpr (by rw [bits]; omega))
    exact ⟨t, ends, bits ▸ written⟩
  refine ⟨run .putWhite (by decide) rfl (by decide), run .putBlack (by decide) (by decide) (by decide),
    run .putLittag (by decide) (by decide) (by decide), fun b0 b1 b2 b3 => ?_⟩
  rw [List.append_assoc]
  exact run (.putLiteral b0 b1 b2 b3) (by simp [Pseudo.expand, isPut])
    rfl (by simp)

/-- Settles O39: each group of a row gives 1 to 34 bits, and the group of a pixel other than 255 gives more than one. -/
theorem rowBitCountBounds : Obligations.RowBitCountBounds := by
  refine ⟨bits_length, fun s y coded => ?_⟩
  rw [rowBits_length]
  constructor
  case left =>
    obtain ⟨g, hg, tag⟩ := exists_coded_group coded
    have more := List.sum_lt_sum (l := List.range (groupCount s.width.toNat)) (fun _ => 1)
      (fun g => (s.tagOf y g).bits.length) (fun g _ => (bits_length_bounds _).1)
      ⟨g, List.mem_range.mpr hg, one_lt_bits_length tag⟩
    simpa using more
  case right =>
    have most := List.sum_le_card_nsmul ((List.range (groupCount s.width.toNat)).map fun g => (s.tagOf y g).bits.length)
      34 (by simpa using fun g _ => (bits_length_bounds (s.tagOf y g)).2)
    simpa [Nat.mul_comm] using most

/-- Settles O40: the three tag codes run the tag they stand for. -/
theorem tagInstructionsFillTheGroup : Obligations.TagInstructionsFillTheGroup :=
  fun _ p q r v hy hg fits =>
    ⟨tagOutcome_stores .white hy hg fits, tagOutcome_stores .black hy hg fits,
      tagOutcome_stores (.literal p q r v) hy hg fits⟩

/-- Settles O47: with the row index built, all tags put and the last byte flushed, the three parts CF_ASSEMBLE copies
are those of the canonical container. -/
theorem cfEncodeWritesTheContainer : Obligations.CfEncodeWritesTheContainer := by
  intro s h described fits short
  obtain ⟨t, e, ht, length, bits, index, frame⟩ := cfEncodeBody_flushed h described fits
  have count : t.riCount.toNat = s.indexBytes.length := by
    rw [ht.rows (by rw [frame]), frame]
    simp [State.indexBytes]
  have container : t.assembled = s.container := by
    rw [State.assembled, count, index.stored, bits, assembleBytes, frame]
    rfl
  obtain ⟨u, e', stores, assembled⟩ := cfAssembleOp_assembles ht (by rw [frame]) (by rw [frame])
    (by rw [container, frame]; exact short)
  rw [container] at e' stores assembled
  refine ⟨u, ?_, ⟨stores.stored, fun x hx => ?_⟩, ?_, ?_, ?_⟩
  · simp [exec, execCfEncode, cfEncodeOp, described, e, e']
  · rw [stores.others x hx, frame]
    rfl
  · exact ⟨by rw [assembled]; exact index.stored, by rw [assembled]; exact index.others⟩
  · rw [assembled]
    exact bits
  · rw [assembled, frame]

end Proofs
end Sys2Proof
end

section
/-! PROOFS. The Bit Writer's commands (R122 to R128): the outcomes of a put command, what BW_FINISH keeps of the bytes
output before it, and the run from BW_INIT to BW_FINISH. -/

namespace Sys2Proof
namespace Machine

/-! ### Put commands (R123 to R125, R128) -/

section PutCommands
variable {s t : State} {i : Instr}

/-- A finished writer refuses a put. -/
theorem exec_put_finished (legal : isPut i = true) (finished : s.fin = true) :
    exec i s = .next (raiseError .writerFinished s) := by
  rw [exec_put legal, bwPutOp, raiseIf_bind, if_pos finished]
  rfl

/-- An open writer refuses a put whose bits do not fit. -/
theorem exec_put_full (legal : isPut i = true) (isOpen : s.fin = false)
    (short : s.params.wbufCap < ceilDiv (s.nbits + (putBitsOf i).length) 8) :
    exec i s = .next (raiseError .writerCapacity s) := by
  rw [exec_put legal, bwPutOp, raiseIf_bind, if_neg (by simp [isOpen]), bwPut_full short]
  rfl

/-- A count above 32 is refused before the writer is looked at. -/
theorem exec_bwPutbits_long {n : BitVec 8} (long : 32 < n.toNat) (v : Word32) (s : State) :
    exec (.bwPutbits n v) s = .next (raiseError .countOutOfRange s) := by
  have count : Config.nMax < n.toNat := long
  rw [exec, execBwPutbits, raiseIf_bind, if_pos (by simpa using count)]
  rfl

/-- A put that raises leaves the state it started from: both its checks stand before its first bit. -/
theorem bwPutOp_raise {bs : List Bool} {c : Cause} (e : bwPutOp bs s = .raise c t) : t = s := by
  rw [bwPutOp, raiseIf_bind] at e
  split at e
  · exact (Res.raise.inj e).2.symm
  · rcases Res.bind_eq_raise.mp e with e | ⟨_, _, _, returned⟩
    · exact (bwPut_raise e).2.1
    · cases returned

/-- A put with a legal count that ends with an error takes it on the state it started from. -/
theorem exec_put_failed (legal : isPut i = true) (e : exec i s = .next t) (failed : t.status ≠ statusOk) :
    ∃ c, t = raiseError c s := by
  rw [exec_put legal] at e
  rcases complete_next e with ⟨v, u, -, rfl⟩ | ⟨c, u, raised, rfl⟩
  · exact absurd rfl failed
  · rw [bwPutOp_raise raised]
    exact ⟨c, rfl⟩

/-- Eight more bits leave the cursor where it was. -/
theorem Appends.bwCursor_eq {bs : List Bool} (put : Appends s t bs) (whole : bs.length = 8) : t.bwCursor = s.bwCursor := by
  have counted := put.count
  have before := s.bwCursor.isLt
  have after := t.bwCursor.isLt
  simp only [State.nbits, whole] at counted
  exact BitVec.eq_of_toNat_eq (by omega)

/-- A count up to 32 is legal. -/
theorem isPut_bwPutbits {n : BitVec 8} (count : n.toNat ≤ 32) (v : Word32) : isPut (.bwPutbits n v) = true :=
  decide_eq_true count

/-- BW_PUTBITS puts as many bits as its count says. -/
@[simp] theorem putBitsOf_bwPutbits_length (n : BitVec 8) (v : Word32) : (putBitsOf (.bwPutbits n v)).length = n.toNat := by
  simp [putBitsOf]

/-- BW_PUTBYTE and BW_PUTBITS 8 put the same bits. -/
theorem putBitsOf_bwPutbyte (v : Byte) : putBitsOf (.bwPutbyte v) = putBitsOf (.bwPutbits 8 (v.setWidth 32)) := by
  have count : (8 : BitVec 8).toNat = 8 := rfl
  rw [putBitsOf, putBitsOf, count]
  refine List.map_congr_left fun j _ => ?_
  have inside : 7 - j < 32 := by omega
  simp [inside]

end PutCommands

/-! ### BW_FINISH (R126) -/

section Finish
variable {s t : State}

/-- Finishing an open writer keeps every byte output before. -/
theorem Finishes.below (done : Finishes s t) (h : s.Inv) : ∀ a < s.bwLen.toNat, t.byte .wbuf a = s.byte .wbuf a := by
  intro a ha
  have longer : a < t.bwLen.toNat := by
    have count := done.count
    simp only [State.nbits, ceilDiv] at count
    omega
  have bytes := congrArg (·[a]?) (done.bytes.trans (packed_written h))
  simpa [State.bytes, ha, longer, List.getElem?_append_left] using bytes

end Finish

/-! ### From BW_INIT to BW_FINISH (R122, R127) -/

section WriterRun
variable {s t : State}

/-- The state BW_INIT leaves before its response: an empty, open writer. -/
def State.opened (s : State) : State := { s.withWriter 0#32 0#8 0#3 with fin := false }

theorem exec_bwInit (s : State) : exec .bwInit s = .next (returnValue 0#32 s.opened) := rfl

/-- Nothing has been written to an opened writer. -/
theorem written_opened (s : State) : s.opened.written = [] := rfl

/-- An open writer is finished, and its length returned. -/
theorem exec_bwFinish_open (h : s.Inv) (isOpen : s.fin = false) :
    ∃ t, exec .bwFinish s = .next (returnValue t.bwLen t) ∧ Finishes s t := by
  obtain ⟨t, e, done, -⟩ := bwFinishOp_finishes h isOpen
  exact ⟨t, by rw [exec, execBwFinish, e]; rfl, done⟩

/-- Instructions after those that ended in a state run from that state. -/
theorem execAll_append {is js : List Instr} (e : execAll is s = .next t) : execAll (is ++ js) s = execAll js t := by
  induction is generalizing s with
  | nil => cases e; rfl
  | cons i is ih =>
    rw [execAll] at e
    rw [List.cons_append, execAll]
    split at e
    · exact ih e
    · cases e
    · cases e

end WriterRun

end Machine

namespace Proofs
open Sys2Proof.Machine

/-- Settles O25: BW_INIT opens an empty writer, the puts append their bits to it, and finishing it packs them; a finished
writer refuses a put, and a refusal leaves the writer as it was. -/
theorem writerLengthContract : Obligations.WriterLengthContract := by
  refine ⟨fun s puts h legal room => ?run, fun s t i finished legal e => ?refused⟩
  case run =>
    have started : (returnValue 0#32 s.opened).Inv := h.bwInit.endCommand List.mem_cons_self fun error => absurd rfl error
    have empty : (returnValue 0#32 s.opened).nbits = 0 := rfl
    obtain ⟨u, putAll, written, nbits, stillOpen, hu⟩ := execAll_puts legal started rfl (by rwa [empty, Nat.zero_add])
    obtain ⟨t, ends, done⟩ := exec_bwFinish_open hu stillOpen
    have stream : u.written = puts.flatMap putBitsOf := written
    have count : u.nbits = (puts.flatMap putBitsOf).length := by rw [nbits, empty, Nat.zero_add]
    refine ⟨returnValue t.bwLen t, ?_, rfl, by rw [← count]; exact done.count, by rw [← stream]; exact done.bytes⟩
    rw [List.append_assoc, List.singleton_append, execAll, exec_bwInit]
    exact (execAll_append putAll).trans (by rw [execAll, ends]; rfl)
  case refused =>
    rw [exec_put_finished legal finished] at e
    cases e
    exact ⟨rfl, rfl, finished⟩

/-- Settles O24: a finished writer returns its length, and an open one is flushed. -/
theorem bwFinishFlushesAndReturnsLength : Obligations.BwFinishFlushesAndReturnsLength := by
  refine fun s h => ⟨fun finished => ?again, fun isOpen => ?flush⟩
  case again =>
    rw [exec, execBwFinish, bwFinishOp, if_pos finished]
    rfl
  case flush =>
    obtain ⟨t, ends, done⟩ := exec_bwFinish_open h isOpen
    exact ⟨t, ends, done.count, done.bytes, done.below h, done.frame⟩

/-- Settles O23: BW_PUTBYTE is a put of the eight bits BW_PUTBITS 8 puts, and eight bits keep the cursor. -/
theorem bwPutbytePutsOneByte : Obligations.BwPutbytePutsOneByte := by
  refine fun s v => ⟨exec_put_finished rfl, exec_put_full (i := .bwPutbyte v) rfl, fun h isOpen room => ?puts, ?same⟩
  case puts =>
    obtain ⟨t, ends, put, -⟩ := exec_put_appends (i := .bwPutbyte v) rfl h isOpen room
    exact ⟨t, ends, put, put.bwCursor_eq (by simp [putBitsOf])⟩
  case same => rw [exec_put rfl, exec_put rfl, putBitsOf_bwPutbyte]

/-- Settles O22: the count is checked first; BW_PUTBITS with a legal count is a put of `n` bits. -/
theorem bwPutbitsPutsTheLowestBits : Obligations.BwPutbitsPutsTheLowestBits := by
  intro s n v
  have bits := putBitsOf_bwPutbits_length n v
  refine ⟨fun long => exec_bwPutbits_long long v s, fun count => exec_put_finished (isPut_bwPutbits count v),
    fun count isOpen short => exec_put_full (isPut_bwPutbits count v) isOpen (by rwa [bits]),
    fun h count isOpen room => ?puts⟩
  case puts =>
    obtain ⟨t, ends, put, -⟩ := exec_put_appends (isPut_bwPutbits count v) h isOpen (by rwa [bits])
    exact ⟨t, ends, put⟩

/-- Settles O21: BW_PUTBIT is a put of one bit. -/
theorem bwPutbitPutsOneBit : Obligations.BwPutbitPutsOneBit := by
  refine fun s b => ⟨exec_put_finished rfl, exec_put_full (i := .bwPutbit b) rfl, fun h isOpen room => ?puts⟩
  case puts =>
    obtain ⟨t, ends, put, -⟩ := exec_put_appends (i := .bwPutbit b) rfl h isOpen room
    exact ⟨t, ends, put⟩

/-- Settles O20: the writer BW_INIT opens holds no bit. -/
theorem bwInitStartsAnEmptyWriter : Obligations.BwInitStartsAnEmptyWriter :=
  fun s => ⟨s.opened, exec_bwInit s, written_opened s, rfl⟩

/-- Settles O26: BW_PUTBITS with an illegal count is refused at once, and every other put command is a put of its bits. -/
theorem raisingPutChangesNoWriterState : Obligations.RaisingPutChangesNoWriterState := by
  intro s t i putting e failed
  rcases putting with rfl | rfl | ⟨n, v, rfl⟩ | ⟨v, rfl⟩
  case inr.inr.inl =>
    by_cases count : n.toNat ≤ 32
    · exact exec_put_failed (isPut_bwPutbits count v) e failed
    · rw [exec_bwPutbits_long (by omega)] at e
      exact ⟨_, (Host.Outcome.next.inj e).symm⟩
  all_goals exact exec_put_failed rfl e failed

end Proofs
end Sys2Proof
end

section
/-! PROOFS. The Bit Reader's commands (R140 to R146): the bits of a slice as a list, what taking bits returns and where
it leaves the reader, that taking bits and decoding see SIN in the slice alone, and the mirror law of writer and reader. -/

namespace Sys2Proof
namespace Machine

/-! ### Bits and numbers -/

/-- One more digit at the low end. -/
theorem numberOf_concat (bs : List Bool) (b : Bool) : numberOf (bs ++ [b]) = 2 * numberOf bs + b.toNat := by
  simp [numberOf]

/-- `k` binary digits make a number below `2 ^ k`. -/
theorem numberOf_lt (bs : List Bool) : numberOf bs < 2 ^ bs.length := by
  induction bs using List.reverseRecOn with
  | nil => decide
  | append_singleton bs b ih =>
    have digit := b.toNat_lt
    rw [numberOf_concat, List.length_append, List.length_singleton, Nat.pow_succ]
    omega

/-- Shifting a bit into a word doubles its number and adds the bit. -/
theorem shiftIn_ofNat {w : Nat} (n : Nat) (b : Bool) :
    shiftIn (BitVec.ofNat w n) b = BitVec.ofNat w (2 * n + b.toNat) := by
  have digits : 2 * n + b.toNat = Nat.bit b n := (Nat.bit_val b n).symm
  refine BitVec.eq_of_getLsbD_eq fun j hj => ?_
  rw [digits, shiftIn, BitVec.getLsbD_or, BitVec.getLsbD_shiftLeft, BitVec.getLsbD_setWidth, BitVec.getLsbD_ofNat,
    BitVec.getLsbD_ofNat, BitVec.getLsbD_ofBool]
  cases j with
  | zero => simp [hj]
  | succ j => simp [hj, Nat.lt_of_succ_lt hj, Nat.testBit_bit_succ]

/-- A word made of bits is the number whose binary digits they are. -/
theorem msbValue_eq_ofNat {w : Nat} (bs : List Bool) : (msbValue bs : BitVec w) = BitVec.ofNat w (numberOf bs) := by
  induction bs using List.reverseRecOn with
  | nil => rfl
  | append_singleton bs b ih =>
    have last : (msbValue (bs ++ [b]) : BitVec w) = shiftIn (msbValue bs) b := by simp [msbValue]
    rw [last, ih, shiftIn_ofNat, numberOf_concat]

/-- A bit returned as a word is its number. -/
theorem setWidth_ofBool (b : Bool) : (BitVec.ofBool b).setWidth 32 = BitVec.ofNat 32 b.toNat := by
  cases b <;> rfl

/-- Bit `8 * i + k` of a string of bytes is bit `7 - k` of byte `i` (R9). -/
theorem bitsOf_getElem? (bytes : List Byte) (i : Nat) {k : Nat} (hk : k < 8) :
    (bitsOf bytes)[8 * i + k]? = bytes[i]?.map fun v => v.getLsbD (7 - k) := by
  induction bytes generalizing i with
  | nil => rfl
  | cons v bytes ih =>
    rw [bitsOf_cons]
    cases i with
    | zero => rw [List.getElem?_append_left (by simp; omega)]; simp [msbBits_eq_map, hk]
    | succ i =>
      have back : 8 * (i + 1) + k - 8 = 8 * i + k := by omega
      rw [List.getElem?_append_right (by simp; omega), msbBits_length, back, ih, List.getElem?_cons_succ]

/-- Bits packed into bytes are the bits, then zeros (R101, R127). -/
theorem bitsOf_packBits {n : Nat} {bs : List Bool} (fits : bs.length ≤ 8 * n) :
    bitsOf (packBits n bs) = bs ++ List.replicate (8 * n - bs.length) false := by
  induction n generalizing bs with
  | zero => simp [packBits, List.eq_nil_of_length_eq_zero (Nat.le_zero.mp fits)]
  | succ n ih =>
    have rest : (bs.drop 8).length ≤ 8 * n := by rw [List.length_drop]; omega
    rw [packBits, bitsOf_cons, msbBits_msbValue (by simp), ih rest, List.take_append, List.take_replicate]
    by_cases whole : 8 ≤ bs.length
    · rw [Nat.sub_eq_zero_of_le whole, ← List.append_assoc]
      simp
      omega
    · rw [List.take_of_length_le (by omega), List.drop_of_length_le (by omega)]
      simp
      omega

/-! ### The unread bits (R29, R140) -/

section Unread
variable {s : State}

@[simp] theorem unread_length (s : State) : s.unread.length = 8 * s.brLen.toNat - s.readPos := by
  simp [State.unread]

/-- Nothing is left to read exactly at the end of the slice. -/
theorem State.Inv.unread_eq_nil (h : s.Inv) : s.unread = [] ↔ s.brIdx = s.brLen := by
  have position := h.position
  have cursor := s.brCursor.isLt
  rw [← List.length_eq_zero_iff, unread_length, State.readPos, BitVec.toNat_eq]
  omega

/-- An exhausted reader does not move when it is exhausted. -/
theorem State.Inv.exhausted_eq (h : s.Inv) (done : s.unread = []) : s.exhausted = s := by
  have last := h.unread_eq_nil.mp done
  rw [State.exhausted, ← last, ← h.atEnd last]
  rfl

/-- The reader one bit further on, by its fields, is the reader one bit further on in the stream. -/
theorem advanceReader_eq_skipBits (s : State) : s.advanceReader = s.skipBits 1 := by
  have cursor := s.brCursor.isLt
  unfold State.advanceReader State.skipBits State.readPos
  split
  · next last =>
    rw [last]
    congr 1 <;> apply BitVec.eq_of_toNat_eq <;> simp <;> omega
  · next more =>
    have short : s.brCursor.toNat < 7 := by bv_omega
    congr 1 <;> apply BitVec.eq_of_toNat_eq <;> simp <;> omega

@[simp] theorem skipBits_zero (s : State) : s.skipBits 0 = s := by
  have cursor := s.brCursor.isLt
  have idx : BitVec.ofNat 32 (s.readPos / 8) = s.brIdx := BitVec.eq_of_toNat_eq (by simp [State.readPos]; omega)
  have bit : BitVec.ofNat 3 s.readPos = s.brCursor := BitVec.eq_of_toNat_eq (by simp [State.readPos]; omega)
  rw [State.skipBits, Nat.add_zero, idx, bit]
  rfl

/-- The position after skipping bits that the slice holds. -/
theorem readPos_skipBits {n : Nat} (inside : s.readPos + n ≤ 8 * s.brLen.toNat) :
    (s.skipBits n).readPos = s.readPos + n := by
  have len := s.brLen.isLt
  have idx : (BitVec.ofNat 32 ((s.readPos + n) / 8)).toNat = (s.readPos + n) / 8 := by
    rw [BitVec.toNat_ofNat]; omega
  have bit : (BitVec.ofNat 3 (s.readPos + n)).toNat = (s.readPos + n) % 8 := BitVec.toNat_ofNat ..
  change 8 * (BitVec.ofNat 32 ((s.readPos + n) / 8)).toNat + (BitVec.ofNat 3 (s.readPos + n)).toNat = _
  omega

/-- Skipping bits twice skips the bits of both. -/
theorem skipBits_skipBits {m : Nat} (n : Nat) (inside : s.readPos + m ≤ 8 * s.brLen.toNat) :
    (s.skipBits m).skipBits n = s.skipBits (m + n) := by
  rw [State.skipBits, readPos_skipBits inside, Nat.add_assoc]
  rfl

/-- What is left after skipping bits that the slice holds. -/
theorem unread_skipBits {n : Nat} (inside : s.readPos + n ≤ 8 * s.brLen.toNat) :
    (s.skipBits n).unread = s.unread.drop n := by
  rw [State.unread, readPos_skipBits inside, State.unread, List.drop_drop]
  rfl

/-- The next bit of the slice is the bit of SIN the reader stands at (R140). -/
theorem unread_head {b : Bool} {rest : List Bool} (next : s.unread = b :: rest) :
    (s.byte .sin (s.brBase.toNat + s.brIdx.toNat)).getLsbD (7 - s.brCursor.toNat) = b := by
  have inside : s.brIdx.toNat < s.brLen.toNat := by
    have left := congrArg List.length next
    rw [unread_length, List.length_cons, State.readPos] at left
    omega
  have first : s.unread[0]? = some b := by rw [next]; rfl
  rw [State.unread, List.getElem?_drop, Nat.add_zero, State.readPos, bitsOf_getElem? _ _ s.brCursor.isLt] at first
  simpa [State.bytes, inside] using first

end Unread

/-! ### Taking bits (R140, R143) -/

section Taking
variable {s : State}

/-- With a bit left, the next one is taken. -/
theorem brTake_eq_ok {b : Bool} {rest : List Bool} (h : s.Inv) (next : s.unread = b :: rest) :
    brTake s = .ok b (s.skipBits 1) := by
  have slice := h.slice
  have left : ¬ s.brLen.toNat ≤ s.brIdx.toNat := fun ended =>
    List.cons_ne_nil b rest (next ▸ h.unread_eq_nil.mpr (BitVec.eq_of_toNat_eq (h.position.antisymm ended)))
  rcases brTake_cases s with ⟨ended, -⟩ | ⟨-, -, e⟩ | ⟨-, outside, -⟩
  · exact absurd ended left
  · rw [e, unread_head next, advanceReader_eq_skipBits]
  · omega

/-- With no bit left, taking one raises and changes nothing. -/
theorem brTake_eq_raise (h : s.Inv) (done : s.unread = []) : brTake s = .raise .outOfData s :=
  if_pos (by rw [h.unread_eq_nil.mp done])

/-- The reader one bit further on keeps the invariants, and its unread bits are those after the first. -/
theorem State.Inv.skip_one {b : Bool} {rest : List Bool} (h : s.Inv) (next : s.unread = b :: rest) :
    (s.skipBits 1).Inv ∧ (s.skipBits 1).unread = rest ∧ s.readPos + 1 ≤ 8 * s.brLen.toNat := by
  have inside : s.readPos + 1 ≤ 8 * s.brLen.toNat := by
    have left := congrArg List.length next
    rw [unread_length, List.length_cons] at left
    omega
  have taken := brTake_safe h
  rw [brTake_eq_ok h next] at taken
  exact ⟨taken, by rw [unread_skipBits inside, next]; rfl, inside⟩

/-- With `k` bits left, taking `k` bits shifts them into the word one after another and moves the reader past them. -/
theorem brTakeBits_eq_ok {w k : Nat} (v : BitVec w) (h : s.Inv) (enough : k ≤ s.unread.length) :
    brTakeBits k v s = .ok ((s.unread.take k).foldl shiftIn v) (s.skipBits k) := by
  induction k generalizing v s with
  | zero => simp [brTakeBits]
  | succ k ih =>
    obtain ⟨b, rest, next⟩ := List.exists_cons_of_length_pos (Nat.zero_lt_of_lt enough)
    obtain ⟨kept, after, inside⟩ := h.skip_one next
    have left : k ≤ (s.skipBits 1).unread.length := by
      rw [next, List.length_cons] at enough
      rw [after]
      omega
    rw [brTakeBits, brTake_eq_ok h next, Res.bind_ok, ih _ kept left, skipBits_skipBits k inside, after, next,
      List.take_succ_cons, List.foldl_cons, Nat.add_comm]

/-- With fewer bits left, taking `k` bits takes all of them and then raises. -/
theorem brTakeBits_eq_raise {w k : Nat} (v : BitVec w) (h : s.Inv) (short : s.unread.length < k) :
    brTakeBits k v s = .raise .outOfData s.exhausted := by
  induction k generalizing v s with
  | zero => exact absurd short (Nat.not_lt_zero _)
  | succ k ih =>
    rw [brTakeBits]
    match next : s.unread with
    | [] => rw [brTake_eq_raise h next, Res.bind_raise, h.exhausted_eq next]
    | b :: rest =>
      obtain ⟨kept, after, -⟩ := h.skip_one next
      rw [next, List.length_cons] at short
      rw [brTake_eq_ok h next, Res.bind_ok, ih _ kept (by rw [after]; omega)]
      rfl

/-- Taking `k` bits from 0 gives the number whose binary digits they are. -/
theorem brTakeBits_zero {w k : Nat} (h : s.Inv) (enough : k ≤ s.unread.length) :
    brTakeBits k 0#w s = .ok (BitVec.ofNat w (numberOf (s.unread.take k))) (s.skipBits k) := by
  rw [brTakeBits_eq_ok _ h enough, ← msbValue_eq_ofNat]
  rfl

end Taking

/-! ### The reader's commands (R141 to R143) -/

section Commands
variable {s : State}

/-- BR_INIT over a slice that lies in SIN. -/
theorem exec_brInit_ok {base len : Word32} (inside : base.toNat + len.toNat ≤ s.params.sinCap) :
    exec (.brInit base len) s = .next (returnValue 0#32 (s.wrapSlice base len)) := by
  rw [exec, execBrInit, brInitOp, decide_eq_false (Nat.not_lt.mpr inside), raiseIf_false, Res.bind_ok]
  rfl

/-- BR_GETBIT with a bit left. -/
theorem exec_brGetbit_ok {b : Bool} {rest : List Bool} (h : s.Inv) (next : s.unread = b :: rest) :
    exec .brGetbit s = .next (returnValue (BitVec.ofNat 32 b.toNat) (s.skipBits 1)) := by
  rw [exec, execBrGetbit, brTake_eq_ok h next, Res.bind_ok, setWidth_ofBool]
  rfl

/-- BR_GETBIT with no bit left. -/
theorem exec_brGetbit_raise (h : s.Inv) (done : s.unread = []) :
    exec .brGetbit s = .next (raiseError .outOfData s) := by
  rw [exec, execBrGetbit, brTake_eq_raise h done]
  rfl

/-- BR_GETBITS with a legal count takes that many bits. -/
theorem exec_brGetbits {k : BitVec 8} (count : k.toNat ≤ 32) (s : State) :
    exec (.brGetbits k) s = complete (brTakeBits k.toNat 0#32 s) := by
  have legal : ¬ Config.nMax < k.toNat := Nat.not_lt.mpr count
  rw [exec, execBrGetbits, decide_eq_false legal, raiseIf_false, Res.bind_ok]

end Commands

/-! ### What a read sees of SIN (R145) -/

section Slice
variable {m : Memory}

/-- The memory `m` holds what SIN does at every address of the slice. -/
def State.AgreesOnSlice (m : Memory) (s : State) : Prop :=
  ∀ a, s.brBase.toNat ≤ a → a < s.brBase.toNat + s.brLen.toNat → (s.setMem .sin m).byte .sin a = s.byte .sin a

/-- Two ends of an operation that saw the same: the first with SIN, the second with `m` in its place, which still agrees
with SIN on the slice. -/
inductive Res.SameBut {α : Type} (m : Memory) : Res α → Res α → Prop
  | ok (a : α) {s : State} (agrees : s.AgreesOnSlice m) : SameBut m (.ok a s) (.ok a (s.setMem .sin m))
  | raise (c : Cause) {s : State} (agrees : s.AgreesOnSlice m) : SameBut m (.raise c s) (.raise c (s.setMem .sin m))
  | fault (f : Fault) : SameBut m (.fault f) (.fault f)

/-- The operation depends on no byte of SIN outside the slice: `m` may stand in SIN's place. -/
def SliceOnly {α : Type} (m : Memory) (op : State → Res α) : Prop :=
  ∀ s : State, s.AgreesOnSlice m → (op s).SameBut m (op (s.setMem .sin m))

variable {α β : Type}

theorem Res.SameBut.bind {r r' : Res α} {k k' : α → State → Res β} (first : r.SameBut m r')
    (second : ∀ a (s : State), s.AgreesOnSlice m → (k a s).SameBut m (k' a (s.setMem .sin m))) :
    (r.bind k).SameBut m (r'.bind k') := by
  cases first with
  | ok a agrees => exact second a _ agrees
  | raise c agrees => exact .raise c agrees
  | fault f => exact .fault f

/-- Computing a value from the one returned. -/
theorem Res.SameBut.returning {r r' : Res α} {g : α → β} (body : r.SameBut m r') :
    (r.bind fun a t => .ok (g a) t).SameBut m (r'.bind fun a t => .ok (g a) t) :=
  body.bind fun a _ agrees => .ok (g a) agrees

/-- A check that sees the same on both sides. -/
theorem Res.SameBut.check {b : Bool} {c : Cause} {s : State} {k k' : Unit → State → Res β} (agrees : s.AgreesOnSlice m)
    (rest : (k () s).SameBut m (k' () (s.setMem .sin m))) :
    ((raiseIf b c s).bind k).SameBut m ((raiseIf b c (s.setMem .sin m)).bind k') := by
  cases b with
  | true => exact .raise c agrees
  | false => exact rest

/-- A raise that is handled on both sides. -/
theorem Res.SameBut.onRaise {r r' : Res α} {h : State → Res Unit} (body : r.SameBut m r') (handler : SliceOnly m h) :
    (r.onRaise h).SameBut m (r'.onRaise h) := by
  cases body with
  | ok a agrees => exact .ok a agrees
  | raise c agrees => exact (handler _ agrees).bind fun _ _ after => .raise c after
  | fault f => exact .fault f

/-- A command whose body saw the same ends the same way (R286). -/
theorem Res.SameBut.complete {r r' : Res Word32} {t : State} (same : r.SameBut m r') (e : complete r = .next t) :
    Machine.complete r' = .next (t.setMem .sin m) := by
  cases same with
  | ok v agrees => cases e; rfl
  | raise c agrees => cases e; rfl
  | fault f => cases e

theorem forLoop_sliceOnly {body : Nat → State → Res Unit} (turn : ∀ j, SliceOnly m (body j)) (k i : Nat) :
    SliceOnly m (forLoop body k i) := by
  induction k generalizing i with
  | zero => exact fun s agrees => .ok () agrees
  | succ k ih => exact fun s agrees => (turn i s agrees).bind fun _ t after => ih (i + 1) t after

/-- Reading a byte that is the same in both memories. -/
theorem memRead_same {s : State} {sp : Space} {a : Nat} (agrees : s.AgreesOnSlice m)
    (same : (s.setMem .sin m).byte sp a = s.byte sp a) :
    (memRead sp a s).SameBut m (memRead sp a (s.setMem .sin m)) := by
  rcases memRead_cases sp a s with ⟨inside, e⟩ | ⟨outside, e⟩
  · rw [e, memRead_inside (s := s.setMem .sin m) inside, same]
    exact .ok _ agrees
  · rw [e, show memRead sp a (s.setMem .sin m) = .fault (.outsideSpace sp a) from if_neg (Nat.not_lt.mpr outside)]
    exact .fault _

/-- Moving the reader looks at no memory. -/
theorem advanceReader_setMem (m : Memory) (s : State) :
    (s.setMem .sin m).advanceReader = s.advanceReader.setMem .sin m := by
  rw [State.advanceReader, State.advanceReader, apply_ite (State.setMem · .sin m)]
  rfl

theorem State.AgreesOnSlice.advanceReader {s : State} (agrees : s.AgreesOnSlice m) :
    s.advanceReader.AgreesOnSlice m := by
  rw [advanceReader_frame]
  exact agrees

/-- Taking a bit reads one byte of the slice. -/
theorem brTake_sliceOnly : SliceOnly m brTake := by
  intro s agrees
  unfold brTake
  by_cases ended : s.brLen.toNat ≤ s.brIdx.toNat
  case pos =>
    rw [if_pos ended, if_pos (by exact ended)]
    exact .raise _ agrees
  case neg =>
    rw [if_neg ended, if_neg (by exact ended)]
    refine (memRead_same agrees (agrees _ (Nat.le_add_right ..) (by omega))).bind fun byte t after => ?_
    rw [advanceReader_setMem]
    exact .ok _ after.advanceReader

theorem brTakeBits_sliceOnly {w : Nat} (k : Nat) (v : BitVec w) : SliceOnly m (brTakeBits k v) := by
  induction k generalizing v with
  | zero => exact fun s agrees => .ok v agrees
  | succ k ih => exact fun s agrees => (brTake_sliceOnly s agrees).bind fun b t after => ih (shiftIn v b) t after

theorem fetchPayload_sliceOnly : SliceOnly m fetchPayload := by
  have byte : SliceOnly m brTakeByte := brTakeBits_sliceOnly 8 _
  exact fun s agrees =>
    (byte s agrees).bind fun _ t ht => (byte t ht).bind fun _ u hu => (byte u hu).bind fun _ v hv =>
      (byte v hv).returning

theorem fetchTag_sliceOnly : SliceOnly m fetchTag := by
  refine fun s agrees => (brTake_sliceOnly s agrees).bind fun b0 t ht => ?_
  cases b0 with
  | false => exact .ok _ ht
  | true =>
    refine (brTake_sliceOnly t ht).bind fun b1 u hu => ?_
    cases b1 with
    | false => exact .ok _ hu
    | true => exact fetchPayload_sliceOnly u hu

/-- Writing IMG reads nothing of SIN. -/
theorem memWriteBytes_img_sliceOnly (a : Nat) (bs : List Byte) : SliceOnly m (memWriteBytes .img a bs) := by
  induction bs generalizing a with
  | nil => exact fun s agrees => .ok () agrees
  | cons b bs ih =>
    refine fun s agrees => Res.SameBut.bind ?_ fun _ t after => ih (a + 1) t after
    unfold memWrite
    by_cases inside : a < s.params.cap .img
    · rw [if_pos inside, if_pos (by exact inside)]
      exact .ok () (s := s.setMem .img _) agrees
    · rw [if_neg inside, if_neg (by exact inside)]
      exact .fault _

theorem unspecifyImg_sliceOnly (a n : Nat) : SliceOnly m (unspecifyImg a n) :=
  fun s agrees => memWriteBytes_img_sliceOnly a _ { s with draws := s.draws + 1 } agrees

/-- A row's bit lies in RIBUF. -/
theorem rixBit_sliceOnly (y : Nat) : SliceOnly m (rixBit y) :=
  fun _ agrees => (memRead_same agrees rfl).returning

theorem runTag_sliceOnly (tag : Tag) : SliceOnly m (runTag tag) :=
  fun s agrees => memWriteBytes_img_sliceOnly _ _ s agrees

theorem bdGroupBody_sliceOnly (y g : Nat) : SliceOnly m (bdGroupBody y g) := by
  intro s agrees
  have tag := fetchTag_sliceOnly (s.atGroup (BitVec.ofNat 32 y) (BitVec.ofNat 32 g)) agrees
  exact tag.bind fun tag t ht => (runTag_sliceOnly tag t ht).bind fun _ _ hu => .ok _ hu

/-- A row is filled with white or decoded group by group, as its bit in RIBUF says. -/
theorem bdDecodeRowOp_sliceOnly (y : Nat) : SliceOnly m (bdDecodeRowOp y) := by
  refine fun s agrees => .check agrees (.check agrees ((rixBit_sliceOnly y s agrees).bind fun empty t ht => ?_))
  have group (g : Nat) : SliceOnly m fun u => (bdGroupBody y g u).bind fun _ v => .ok () v :=
    fun u hu => (bdGroupBody_sliceOnly y g u hu).returning
  cases empty with
  | true => exact (memWriteBytes_img_sliceOnly _ _ t ht).bind fun _ _ hu => .ok _ hu
  | false =>
    have groups := forLoop_sliceOnly group (groupCount t.width.toNat) 0 t ht
    exact (groups.onRaise (unspecifyImg_sliceOnly _ t.width.toNat)).bind fun _ _ hu => .ok _ hu

end Slice

/-! ### The mirror law (R146) -/

section Mirror
variable {s t : State}

/-- NBITS counts the bits written (R27). -/
theorem written_length (s : State) : s.written.length = s.nbits := by
  have cursor := s.bwCursor.isLt
  simp [State.written, State.nbits]
  omega

/-- The bits of what a finished writer output: those written, then zeros up to whole bytes (R126). -/
theorem Finishes.bits (done : Finishes s t) :
    bitsOf (t.bytes .wbuf 0 t.bwLen.toNat) = s.written ++ List.replicate (8 * t.bwLen.toNat - s.nbits) false := by
  have fits : s.nbits ≤ 8 * t.bwLen.toNat := (ceilDiv_eight_le _ _).mp done.count.ge
  rw [done.bytes, packed, written_length, ← done.count, bitsOf_packBits (by rwa [written_length]), written_length]

/-- The response of a BR_GETBIT that returns a bit. -/
def bitResponse (b : Bool) : Response := ⟨statusOk, BitVec.ofNat 32 b.toNat⟩

/-- As many BR_GETBIT as there are bits left return them in order, and then none is left. -/
theorem execAll_getbits {bs : List Bool} (h : s.Inv) (left : s.unread = bs) :
    ∃ t, execAll (List.replicate bs.length .brGetbit) s = .next t ∧
      t.responses = (bs.map bitResponse).reverse ++ s.responses ∧ t.unread = [] ∧ t.Inv := by
  induction bs generalizing s with
  | nil => exact ⟨s, rfl, rfl, left, h⟩
  | cons b rest ih =>
    obtain ⟨kept, after, -⟩ := h.skip_one left
    have returned : (returnValue (BitVec.ofNat 32 b.toNat) (s.skipBits 1)).Inv :=
      kept.endCommand List.mem_cons_self fun error => absurd rfl error
    obtain ⟨t, e, responses, done, ht⟩ := ih returned after
    refine ⟨t, ?_, ?_, done, ht⟩
    · rw [List.length_cons, List.replicate_succ, execAll, exec_brGetbit_ok h left]
      exact e
    · rw [responses, List.map_cons, List.reverse_cons, List.append_assoc]
      rfl

end Mirror

end Machine

namespace Proofs
open Sys2Proof.Machine

/-- Settles O27: the one check of BR_INIT is the exact sum. -/
theorem brInitWrapsASlice : Obligations.BrInitWrapsASlice := by
  refine fun s base len => ⟨fun outside => ?refused, exec_brInit_ok⟩
  case refused =>
    rw [exec, execBrInit, brInitOp, decide_eq_true outside, raiseIf_true]
    rfl

/-- Settles O28: the reader is at the end of its slice exactly when no bit is left. -/
theorem brGetbitReturnsTheNextBit : Obligations.BrGetbitReturnsTheNextBit := by
  refine fun s h => ⟨fun ended => exec_brGetbit_raise h (h.unread_eq_nil.mpr ended), fun more => ?next⟩
  case next =>
    obtain ⟨b, rest, next⟩ := List.exists_cons_of_ne_nil (mt h.unread_eq_nil.mp more)
    exact ⟨b, rest, next, exec_brGetbit_ok h next⟩

/-- Settles O29: a legal count takes its bits if they are left, and otherwise all that are left. -/
theorem brGetbitsReturnsTheNextBits : Obligations.BrGetbitsReturnsTheNextBits := by
  refine fun s k => ⟨fun long => ?refused, fun h count enough => ⟨?value, ?bound⟩, fun h count short => ?short⟩
  case refused =>
    have illegal : Config.nMax < k.toNat := long
    rw [exec, execBrGetbits, decide_eq_true illegal, raiseIf_true]
    rfl
  case value =>
    rw [exec_brGetbits count, brTakeBits_zero h enough]
    rfl
  case bound =>
    have bound := numberOf_lt (s.unread.take k.toNat)
    rwa [List.length_take, Nat.min_eq_left enough] at bound
  case short =>
    rw [exec_brGetbits count, brTakeBits_eq_raise _ h short]
    rfl

/-- Settles O30: BR_GETBYTE takes eight bits, wherever the reader stands. -/
theorem brGetbyteReturnsTheNextByte : Obligations.BrGetbyteReturnsTheNextByte := by
  refine fun s h => ⟨fun enough => ?value, fun short => ?short⟩
  case value =>
    rw [exec, execBrGetbyte, brTakeBits_zero h enough]
    rfl
  case short =>
    rw [exec, execBrGetbyte, brTakeBits_eq_raise _ h short]
    rfl

/-- Settles O31: the body of each of the five commands sees SIN in the slice alone. -/
theorem readsStayInsideTheSlice : Obligations.ReadsStayInsideTheSlice := by
  intro s t m i reading agrees e
  have agrees : s.AgreesOnSlice m := agrees
  rcases reading with rfl | ⟨k, rfl⟩ | rfl | ⟨y, g, rfl⟩ | ⟨y, rfl⟩
  case inl => exact (brTake_sliceOnly s agrees).returning.complete e
  case inr.inl => exact (Res.SameBut.check agrees (brTakeBits_sliceOnly k.toNat 0#32 s agrees)).complete e
  case inr.inr.inl => exact (brTakeBits_sliceOnly 8 0#32 s agrees).complete e
  case inr.inr.inr.inl =>
    have body := (bdGroupBody_sliceOnly y.toNat g.toNat s agrees).onRaise
      (unspecifyImg_sliceOnly (pixelAddr s.width.toNat (4 * g.toNat) y.toNat) (validCount s.width.toNat g.toNat))
    exact (Res.SameBut.check agrees (Res.SameBut.check agrees body)).complete e
  case inr.inr.inr.inr => exact (bdDecodeRowOp_sliceOnly y.toNat s agrees).complete e

/-- Settles O32: the slice the reader wraps holds the bits written and then zeros, and BR_GETBIT returns the bits of its
slice one after another. -/
theorem readerMirrorsWriter : Obligations.ReaderMirrorsWriter := by
  intro s f u base h isOpen finish hu inside copied
  obtain ⟨w, ends, done⟩ := exec_bwFinish_open h isOpen
  obtain rfl : returnValue w.bwLen w = f := Host.Outcome.next.inj (ends.symm.trans finish)
  have wrapped : (returnValue 0#32 (u.wrapSlice base w.bwLen)).Inv :=
    (hu.wrapSlice inside).endCommand List.mem_cons_self fun error => absurd rfl error
  have unread : (returnValue 0#32 (u.wrapSlice base w.bwLen)).unread =
      s.written ++ List.replicate (8 * w.bwLen.toNat - s.nbits) false :=
    (congrArg bitsOf copied).trans done.bits
  have count : (s.written ++ List.replicate (8 * w.bwLen.toNat - s.nbits) false).length = 8 * w.bwLen.toNat := by
    rw [← done.bits, bitsOf_length, State.bytes_length]
  obtain ⟨t, reads, responses, exhausted, ht⟩ := execAll_getbits wrapped unread
  rw [count] at reads
  refine ⟨t, ?run, ?bits, exec_brGetbit_raise ht exhausted⟩
  case run =>
    rw [execAll, exec_brInit_ok inside]
    exact reads
  case bits =>
    rw [responses, List.take_left' (by rw [List.length_reverse, List.length_map]; exact count), List.reverse_reverse]
    rfl

end Proofs
end Sys2Proof
end

section
/-! PROOFS. The Row Emptiness Index (R160 to R164): the outcomes of REI_BUILD and REI_TEST, and the bitmap REI_BUILD stores
bit by bit. -/

namespace Sys2Proof
namespace Machine

section RowIndexCommands
variable {s t : State} {y : Nat}

/-! ### The bitmap bit by bit (R160, R164) -/

/-- A row is white when every one of its pixels is 255 (R160). -/
theorem rowWhite_iff : s.rowWhite y = true ↔ ∀ x < s.width.toNat, s.byte .img (y * s.width.toNat + x) = 255#8 := by
  simp only [State.rowWhite, List.all_eq_true, List.mem_range, decide_eq_true_eq]

/-- A byte of the bitmap where the image's row index is stored. -/
theorem Stores.byte_ribuf (index : Stores .ribuf 0 s.indexBytes s t) {j : Nat} (hj : j < ceilDiv s.height.toNat 8) :
    t.byte .ribuf j = s.indexByte j := by
  have same := congrArg (·[j]?) index.stored
  simpa [State.bytes, State.indexBytes, hj] using same

/-- A bit of the bitmap where the image's row index is stored: that of a row says whether it is white, any other is 0. -/
theorem Stores.rowBit_eq (index : Stores .ribuf 0 s.indexBytes s t) (hy : y < 8 * ceilDiv s.height.toNat 8) :
    t.rowBit y = (decide (y < s.height.toNat) && s.rowWhite y) := by
  rw [State.rowBit, index.byte_ribuf (Nat.div_lt_of_lt_mul hy), indexByte_getLsbD s _ (Nat.mod_lt y (by decide)),
    Nat.div_add_mod]

/-! ### The commands (R161, R163) -/

/-- REI_BUILD without an image. -/
theorem exec_reiBuild_raise (noImage : s.imgValid = false) : exec .reiBuild s = .next (raiseError .nullBuffer s) := by
  rw [exec, execReiBuild, reiBuildOp, noImage]
  rfl

/-- REI_BUILD with an image. -/
theorem exec_reiBuild_ok (h : s.Inv) (described : s.imgValid = true) :
    ∃ t, exec .reiBuild s = .next (returnValue (BitVec.ofNat 32 (ceilDiv s.height.toNat 8)) t) ∧
      Stores .ribuf 0 s.indexBytes s t ∧
      t = { s with ribuf := t.ribuf, riCount := BitVec.ofNat 32 (ceilDiv s.height.toNat 8), riValid := true } := by
  obtain ⟨t, built, index, frame, -, -⟩ := reiBuildOp_builds h described
  exact ⟨t, by rw [exec, execReiBuild, built]; rfl, index, frame⟩

/-- REI_BUILD ends with status 0 only when there is an image. -/
theorem imgValid_of_exec_reiBuild (e : exec .reiBuild s = .next t) (success : t.status = statusOk) :
    s.imgValid = true := by
  refine Bool.eq_true_of_not_eq_false fun noImage => ?_
  obtain rfl := Host.Outcome.next.inj ((exec_reiBuild_raise noImage).symm.trans e)
  have refused : causeStatus .nullBuffer ≠ statusOk := by decide
  exact absurd success refused

/-- REI_TEST of a row of the image, once both its checks have passed. -/
theorem exec_reiTest_ok {y : Word32} (h : s.Inv) (held : s.riValid = true) (hy : y.toNat < s.height.toNat) :
    exec (.reiTest y) s = .next (returnValue (BitVec.ofNat 32 (s.rowBit y.toNat).toNat) s) := by
  rw [exec, execReiTest, held, Bool.not_true, raiseIf_false, Res.bind_ok, decide_eq_false (Nat.not_le.mpr hy),
    raiseIf_false, Res.bind_ok, h.rixBit_eq (.inr held) hy, Res.bind_ok, setWidth_ofBool]
  rfl

end RowIndexCommands

end Machine

namespace Proofs
open Sys2Proof.Machine

/-- Settles O33: the one check of REI_BUILD is for an image, and its loop leaves the image's row index. -/
theorem reiBuildWritesTheBitmap : Obligations.ReiBuildWritesTheBitmap :=
  fun _ => ⟨exec_reiBuild_raise, exec_reiBuild_ok⟩

/-- Settles O34: REI_BUILD stores the row index of R103, whose bits are the rows' and then zeros; RI_COUNT bounds the bits
by the bytes stored. -/
theorem bitmapBitsMarkEmptyRows : Obligations.BitmapBitsMarkEmptyRows := by
  intro s t h e success
  obtain ⟨u, ends, index, frame⟩ := exec_reiBuild_ok h (imgValid_of_exec_reiBuild e success)
  obtain rfl := Host.Outcome.next.inj (ends.symm.trans e)
  refine ⟨fun y hy => ?row, fun y beyond below => ?padding⟩
  case row =>
    have bit : u.rowBit y = s.rowWhite y := by
      rw [index.rowBit_eq (by have := rowByte_lt hy; omega), decide_eq_true hy, Bool.true_and]
    exact (Bool.eq_iff_iff.mp bit).trans rowWhite_iff
  case padding =>
    have stored : y < 8 * ceilDiv s.height.toNat 8 := by
      have count : u.riCount.toNat ≤ ceilDiv s.height.toNat 8 := by
        rw [frame, BitVec.toNat_ofNat]
        exact Nat.mod_le _ _
      exact lt_of_lt_of_le below (Nat.mul_le_mul_left 8 count)
    have bit : u.rowBit y = false := by
      rw [index.rowBit_eq stored, decide_eq_false (Nat.not_lt.mpr beyond), Bool.false_and]
    exact bit

/-- Settles O35: the checks stand in R163's order, and a held bitmap has a bit for every row of the image. -/
theorem reiTestReturnsTheRowBit : Obligations.ReiTestReturnsTheRowBit := by
  refine fun s y => ⟨fun noIndex => ?missing, fun held beyond => ?outside, exec_reiTest_ok⟩
  case missing =>
    rw [exec, execReiTest, noIndex]
    rfl
  case outside =>
    rw [exec, execReiTest, held, Bool.not_true, raiseIf_false, Res.bind_ok, decide_eq_true beyond]
    rfl

end Proofs
end Sys2Proof
end

section
/-! PROOFS. The Block Encoder (R180 to R182): the tag of a group, and the outcomes of BE_ENCODE_GROUP and BE_ENCODE_ROW in
the order of their checks. -/

namespace Sys2Proof
namespace Machine

/-! ### Classification (R180) -/

section Classification
variable {s : State} {y g : Nat} {p0 p1 p2 p3 : Byte}

theorem classify_eq_white_iff :
    classify p0 p1 p2 p3 = .white ↔ p0 = 255#8 ∧ p1 = 255#8 ∧ p2 = 255#8 ∧ p3 = 255#8 := by
  unfold classify
  split
  case isTrue white => exact iff_of_true rfl white
  case isFalse other =>
    refine iff_of_false ?_ other
    split <;> exact Tag.noConfusion

theorem classify_eq_black_iff :
    classify p0 p1 p2 p3 = .black ↔ p0 = 0#8 ∧ p1 = 0#8 ∧ p2 = 0#8 ∧ p3 = 0#8 := by
  unfold classify
  split
  case isTrue white =>
    obtain ⟨rfl, -⟩ := white
    exact iff_of_false Tag.noConfusion fun black => absurd black.1 (by decide)
  case isFalse =>
    split
    case isTrue black => exact iff_of_true rfl black
    case isFalse other => exact iff_of_false Tag.noConfusion other

/-- A group that is neither White nor Black is the Literal of its four pixels. -/
theorem classify_eq_literal (notWhite : classify p0 p1 p2 p3 ≠ .white) (notBlack : classify p0 p1 p2 p3 ≠ .black) :
    classify p0 p1 p2 p3 = .literal p0 p1 p2 p3 := by
  rw [Ne, classify_eq_white_iff] at notWhite
  rw [Ne, classify_eq_black_iff] at notBlack
  exact (if_neg notWhite).trans (if_neg notBlack)

/-- The tag of a group of the image is the classification of its four group pixels. -/
theorem tagOf_eq_classify (s : State) (y g : Nat) :
    s.tagOf y g =
      classify (s.groupPixel y g 0) (s.groupPixel y g 1) (s.groupPixel y g 2) (s.groupPixel y g 3) := rfl

/-- A pixel past the width is a padding pixel, 255 (R14). -/
theorem groupPixel_padding {i : Nat} (past : s.width.toNat ≤ 4 * g + i) : s.groupPixel y g i = 255#8 :=
  if_neg (Nat.not_lt.mpr past)

/-- A padded group is never Black: its last pixel is a padding pixel. -/
theorem tagOf_ne_black_of_padded (padded : s.width.toNat < 4 * g + 4) : s.tagOf y g ≠ .black := by
  rw [tagOf_eq_classify, Ne, classify_eq_black_iff, groupPixel_padding (i := 3) (by omega)]
  rintro ⟨-, -, -, black⟩
  exact absurd black (by decide)

end Classification

/-! ### Tags that fit and tags that do not (R181, R182) -/

section Tags
variable {s : State} {ts : List Tag}

/-- Tags whose bits all fit are all put. -/
theorem encodeTags_appends (h : s.Inv) (isOpen : s.fin = false)
    (room : ceilDiv (s.nbits + (tagBits ts).length) 8 ≤ s.params.wbufCap) :
    ∃ t, encodeTags ts s = .ok () t ∧ Appends s t (tagBits ts) := by
  rcases encodeTags_cases ts h isOpen with ⟨t, e, put, -⟩ | ⟨t, k, -, -, -, -, full⟩
  · exact ⟨t, e, put⟩
  · have fewer := tagBits_take_length_le (k + 1) ts
    rw [ceilDiv_eight_le] at room
    rw [← Nat.not_le, ceilDiv_eight_le] at full
    omega

/-- When tag `k` is the first that does not fit, exactly the tags before it are put. -/
theorem encodeTags_full_at {k : Nat} (h : s.Inv) (isOpen : s.fin = false) (hk : k < ts.length)
    (room : ceilDiv (s.nbits + (tagBits (ts.take k)).length) 8 ≤ s.params.wbufCap)
    (full : s.params.wbufCap < ceilDiv (s.nbits + (tagBits (ts.take (k + 1))).length) 8) :
    ∃ t, encodeTags ts s = .raise .writerCapacity t ∧ Appends s t (tagBits (ts.take k)) := by
  obtain ⟨t, e, put⟩ := encodeTags_appends h isOpen room
  have next : tagBits (ts.take (k + 1)) = tagBits (ts.take k) ++ ts[k].bits := by
    rw [List.take_succ_eq_append_getElem hk, tagBits, List.flatMap_append, List.flatMap_singleton]
    rfl
  have short : t.params.wbufCap < ceilDiv (t.nbits + ts[k].bits.length) 8 := by
    rwa [put.params_eq, put.count, Nat.add_assoc, ← List.length_append, ← next]
  refine ⟨t, ?_, put⟩
  calc encodeTags ts s
      = encodeTags (ts.take k ++ ts[k] :: ts.drop (k + 1)) s := by
        rw [← List.drop_eq_getElem_cons hk, List.take_append_drop]
    _ = (bwPut ts[k].bits t).bind fun _ u => encodeTags (ts.drop (k + 1)) u := by
        rw [encodeTags_append, e, Res.bind_ok, encodeTags]
    _ = .raise .writerCapacity t := by rw [bwPut_full short, Res.bind_raise]

@[simp] theorem rowTags_length (s : State) (y : Nat) : (s.rowTags y).length = groupCount s.width.toNat := by
  simp [State.rowTags]

/-- The tags of a row give its bits (R184). -/
theorem tagBits_rowTags (s : State) (y : Nat) : tagBits (s.rowTags y) = s.rowBits y := List.flatMap_map ..

/-- The first tags of a row give the bits of its first groups. -/
theorem tagBits_take_rowTags {k : Nat} (y : Nat) (hk : k ≤ groupCount s.width.toNat) :
    tagBits ((s.rowTags y).take k) = (List.range k).flatMap fun g => (s.tagOf y g).bits := by
  rw [State.rowTags, ← List.map_take, List.take_range, Nat.min_eq_left hk]
  exact List.flatMap_map ..

end Tags

/-! ### The commands and their checks (R181, R182) -/

section EncoderCommands
variable {s : State}

/-- BE_ENCODE_GROUP's four checks stand before its body. -/
theorem exec_beEncodeGroup (s : State) (y g : Word32) :
    exec (.beEncodeGroup y g) s = complete (
      if s.imgValid = false then .raise .nullBuffer s
      else if s.height.toNat ≤ y.toNat then .raise .rowOutOfRange s
      else if ceilDiv s.width.toNat 4 ≤ g.toNat then .raise .groupOutOfRange s
      else if s.fin = true then .raise .writerFinished s
      else beGroupBody y.toNat g.toNat s) := by
  simp only [exec, execBeEncodeGroup, raiseIf_bind, Bool.not_eq_true', decide_eq_true_eq]
  rfl

/-- BE_ENCODE_GROUP of a group of the image, once all its checks have passed, puts the group's tag. -/
theorem exec_beEncodeGroup_checked {y g : Word32} (h : s.Inv) (described : s.imgValid = true)
    (hy : y.toNat < s.height.toNat) (hg : g.toNat < ceilDiv s.width.toNat 4) (isOpen : s.fin = false) :
    exec (.beEncodeGroup y g) s = complete ((bwPut (s.tagOf y.toNat g.toNat).bits s).bind fun _ t =>
      .ok (tagClass (s.tagOf y.toNat g.toNat)) t) := by
  rw [exec_beEncodeGroup, if_neg (by simp [described]), if_neg (Nat.not_le.mpr hy), if_neg (Nat.not_le.mpr hg),
    if_neg (by simp [isOpen]), beGroupBody, groupTag_eq h.fits hy hg, Res.bind_ok]

/-- BE_ENCODE_ROW's four checks stand before it reads the row's bit. -/
theorem exec_beEncodeRow (s : State) (y : Word32) :
    exec (.beEncodeRow y) s = complete (
      if s.imgValid = false then .raise .nullBuffer s
      else if s.height.toNat ≤ y.toNat then .raise .rowOutOfRange s
      else if s.riValid = false then .raise .noRowIndex s
      else if s.fin = true then .raise .writerFinished s
      else (rixBit y.toNat s).bind fun e u =>
        if e then .ok 1#32 u else (beGroups y.toNat u).bind fun _ v => .ok 0#32 v) := by
  simp only [exec, execBeEncodeRow, beEncodeRowOp, raiseIf_bind, Bool.not_eq_true', decide_eq_true_eq]

/-- BE_ENCODE_ROW of a row of the image that is not flagged empty, once all its checks have passed, puts the row's tags. -/
theorem exec_beEncodeRow_coded {y : Word32} (h : s.Inv) (described : s.imgValid = true)
    (hy : y.toNat < s.height.toNat) (indexed : s.riValid = true) (isOpen : s.fin = false)
    (coded : s.rowBit y.toNat = false) :
    exec (.beEncodeRow y) s = complete ((encodeTags (s.rowTags y.toNat) s).bind fun _ t => .ok 0#32 t) := by
  rw [exec, execBeEncodeRow, beEncodeRowOp_eq h described indexed isOpen hy, if_neg (by simp [coded])]

end EncoderCommands

end Machine

namespace Proofs
open Sys2Proof.Machine

/-- Settles O36: the checks stand in R181's order before the body, whose one put emits all the bits of the tag or none. -/
theorem beEncodeGroupPutsTheTag : Obligations.BeEncodeGroupPutsTheTag := by
  refine fun s y g => ⟨fun noImage => ?nullBuffer, fun described beyond => ?rowOutOfRange,
    fun described hy beyond => ?groupOutOfRange, fun described hy hg finished => ?writerFinished,
    fun h described hy hg isOpen => ⟨fun short => ?full, fun room => ?fits⟩⟩
  case nullBuffer =>
    rw [exec_beEncodeGroup, if_pos noImage]
    rfl
  case rowOutOfRange =>
    rw [exec_beEncodeGroup, if_neg (by simp [described]), if_pos beyond]
    rfl
  case groupOutOfRange =>
    rw [exec_beEncodeGroup, if_neg (by simp [described]), if_neg (Nat.not_le.mpr hy), if_pos beyond]
    rfl
  case writerFinished =>
    rw [exec_beEncodeGroup, if_neg (by simp [described]), if_neg (Nat.not_le.mpr hy), if_neg (Nat.not_le.mpr hg),
      if_pos finished]
    rfl
  case full =>
    rw [exec_beEncodeGroup_checked h described hy hg isOpen, bwPut_full short]
    rfl
  case fits =>
    obtain ⟨t, e, put, -⟩ := bwPut_appends h isOpen room
    refine ⟨t, ?_, put⟩
    rw [exec_beEncodeGroup_checked h described hy hg isOpen, e]
    rfl

/-- Settles O37: the checks stand in R182's order before any bit; a row flagged empty puts nothing, and any other is its
groups' tags put one after another, each whole or not at all, up to the first that does not fit. -/
theorem beEncodeRowPutsTheGroups : Obligations.BeEncodeRowPutsTheGroups := by
  refine fun s y => ⟨fun noImage => ?nullBuffer, fun described beyond => ?rowOutOfRange,
    fun described hy noIndex => ?noRowIndex, fun described hy indexed finished => ?writerFinished,
    fun h described hy indexed isOpen => ⟨fun empty => ?flaggedEmpty, fun coded room => ?fits,
      fun k coded hk room full => ?full⟩⟩
  case nullBuffer =>
    rw [exec_beEncodeRow, if_pos noImage]
    rfl
  case rowOutOfRange =>
    rw [exec_beEncodeRow, if_neg (by simp [described]), if_pos beyond]
    rfl
  case noRowIndex =>
    rw [exec_beEncodeRow, if_neg (by simp [described]), if_neg (Nat.not_le.mpr hy), if_pos noIndex]
    rfl
  case writerFinished =>
    rw [exec_beEncodeRow, if_neg (by simp [described]), if_neg (Nat.not_le.mpr hy), if_neg (by simp [indexed]),
      if_pos finished]
    rfl
  case flaggedEmpty =>
    rw [exec, execBeEncodeRow, beEncodeRowOp_eq h described indexed isOpen hy, if_pos empty]
    rfl
  case fits =>
    rw [← tagBits_rowTags] at room ⊢
    obtain ⟨t, e, put⟩ := encodeTags_appends h isOpen room
    refine ⟨t, ?_, put⟩
    rw [exec_beEncodeRow_coded h described hy indexed isOpen coded, e]
    rfl
  case full =>
    have hk : k < groupCount s.width.toNat := hk
    rw [← tagBits_take_rowTags y.toNat hk.le] at room ⊢
    rw [← tagBits_take_rowTags y.toNat hk] at full
    obtain ⟨t, e, put⟩ := encodeTags_full_at h isOpen (by rwa [rowTags_length]) room full
    refine ⟨t, ?_, put⟩
    rw [exec_beEncodeRow_coded h described hy indexed isOpen coded, e]
    rfl

/-- Settles O38: classify by its four pixels, the machine's reading of a group as the tag of its group pixels, and the
padding pixel that keeps a padded group from being Black. -/
theorem classificationOfAGroup : Obligations.ClassificationOfAGroup :=
  ⟨fun _ _ _ _ => ⟨classify_eq_white_iff, classify_eq_black_iff, classify_eq_literal⟩,
    fun _ _ _ hy hg fits => ⟨groupTag_eq fits hy hg, tagOf_ne_black_of_padded⟩⟩

end Proofs
end Sys2Proof
end

section
/-! PROOFS. The Block Decoder (R200 to R202): the tag fetched from the bits that stand next, the pixels it gives its group,
the groups of a row as one run of decoded pixels, and where a decode runs out. -/

namespace Sys2Proof
namespace Machine

/-! ### Fetching a tag (R98 to R100, R201) -/

section Fetching
variable {α β : Type} {s : State}

/-- Past bits that stand next, the invariants hold, the bits after them are next, and the slice holds the new position. -/
theorem State.Inv.skip_bits {bits rest : List Bool} (h : s.Inv) (next : s.unread = bits ++ rest) :
    (s.skipBits bits.length).Inv ∧ (s.skipBits bits.length).unread = rest ∧
      s.readPos + bits.length ≤ 8 * s.brLen.toNat := by
  have enough : bits.length ≤ s.unread.length := by simp [next]
  have taken := brTakeBits_safe bits.length 0#0 h
  rw [brTakeBits_eq_ok _ h enough] at taken
  have within : s.readPos ≤ 8 * s.brLen.toNat := by
    have position := h.position
    have cursor := s.brCursor.isLt
    have atEnd : s.brIdx.toNat = s.brLen.toNat → s.brCursor.toNat = 0 := fun same => by
      rw [h.atEnd (BitVec.eq_of_toNat_eq same)]
      rfl
    rw [State.readPos]
    omega
  have inside : s.readPos + bits.length ≤ 8 * s.brLen.toNat := by
    rw [unread_length] at enough
    omega
  exact ⟨taken, by rw [unread_skipBits inside, next, List.drop_left], inside⟩

/-- Whenever the bits `bits` stand next, the operation takes exactly them and returns `a`. -/
def Takes (op : State → Res α) (bits : List Bool) (a : α) : Prop :=
  ∀ (s : State) (rest : List Bool), s.Inv → s.unread = bits ++ rest → op s = .ok a (s.skipBits bits.length)

/-- One operation after another takes the bits of both. -/
theorem Takes.bind {op : State → Res α} {k : α → State → Res β} {as bs : List Bool} {a : α} {b : β}
    (first : Takes op as a) (second : Takes (k a) bs b) : Takes (fun s => (op s).bind k) (as ++ bs) b := by
  intro s rest h next
  rw [List.append_assoc] at next
  obtain ⟨kept, after, inside⟩ := h.skip_bits next
  simp only [first s _ h next, Res.bind_ok, second _ rest kept after, skipBits_skipBits _ inside, List.length_append]

/-- Returning a value takes no bits. -/
theorem Takes.value (a : α) : Takes (Res.ok a) [] a := fun s _ _ _ => by rw [List.length_nil, skipBits_zero]

theorem brTake_takes (b : Bool) : Takes brTake [b] b := fun _ _ h next => brTake_eq_ok h next

theorem brTakeByte_takes (v : Byte) : Takes brTakeByte (msbBits 8 v) v := by
  intro s rest h next
  have enough : 8 ≤ s.unread.length := by simp [next]
  rw [brTakeByte, brTakeBits_eq_ok _ h enough, next, List.take_left' (msbBits_length 8 v), msbBits_length,
    ← msbValue, msbValue_msbBits]

theorem fetchPayload_takes (p0 p1 p2 p3 : Byte) :
    Takes fetchPayload (msbBits 8 p0 ++ (msbBits 8 p1 ++ (msbBits 8 p2 ++ msbBits 8 p3))) (.literal p0 p1 p2 p3) := by
  rw [← List.append_nil (msbBits 8 p3)]
  exact (brTakeByte_takes p0).bind ((brTakeByte_takes p1).bind ((brTakeByte_takes p2).bind
    ((brTakeByte_takes p3).bind (.value _))))

/-- A tag is fetched from its bits and no others (R99). -/
theorem fetchTag_takes (tag : Tag) : Takes fetchTag tag.bits tag := by
  cases tag with
  | white => exact (brTake_takes false).bind (.value _)
  | black => exact (brTake_takes true).bind ((brTake_takes false).bind (.value _))
  | literal p0 p1 p2 p3 =>
    simp only [Tag.bits, List.append_assoc]
    exact (brTake_takes true).bind ((brTake_takes true).bind (fetchPayload_takes p0 p1 p2 p3))

/-- With fewer than `n` bits left, the operation takes all of them and raises OutOfData. -/
def RunsOut (n : Nat) (op : State → Res α) : Prop :=
  ∀ s : State, s.Inv → s.unread.length < n → op s = .raise .outOfData s.exhausted

/-- The slice runs out inside a byte or after it. -/
theorem RunsOut.after_byte {n : Nat} {k : Byte → State → Res α} (later : ∀ v, RunsOut n (k v)) :
    RunsOut (n + 8) fun s => (brTakeByte s).bind k := by
  intro s h short
  by_cases inside : s.unread.length < 8
  · simp only [brTakeByte, brTakeBits_eq_raise _ h inside, Res.bind_raise]
  · obtain ⟨v, rest, next, length⟩ := exists_byte (Nat.not_lt.mp inside)
    obtain ⟨kept, after, -⟩ := h.skip_bits next
    simp only [brTakeByte_takes v s rest h next, Res.bind_ok]
    exact later v _ kept (by rw [after]; omega)

theorem fetchPayload_runsOut : RunsOut 32 fetchPayload :=
  .after_byte fun _ => .after_byte fun _ => .after_byte fun _ => .after_byte (n := 0) fun _ _ _ short =>
    absurd short (Nat.not_lt_zero _)

/-- When no tag stands next, fetching one exhausts the reader (R201): the slice ends before a first bit, after a first
bit 1, or inside a Literal's payload. -/
theorem fetchTag_eq_raise (h : s.Inv) (noTag : ∀ tag : Tag, ¬ tag.bits <+: s.unread) :
    fetchTag s = .raise .outOfData s.exhausted := by
  match next : s.unread with
  | [] => rw [fetchTag, brTake_eq_raise h next, Res.bind_raise, h.exhausted_eq next]
  | false :: rest => exact absurd ⟨rest, next.symm⟩ (noTag .white)
  | true :: false :: rest => exact absurd ⟨rest, next.symm⟩ (noTag .black)
  | [true] =>
    obtain ⟨kept, done, -⟩ := h.skip_one next
    rw [fetchTag, brTake_eq_ok h next, Res.bind_ok, if_pos rfl, brTake_eq_raise kept done, Res.bind_raise,
      ← kept.exhausted_eq done]
    rfl
  | true :: true :: payload =>
    have short : payload.length < 32 := by
      refine Nat.not_le.mp fun long => ?_
      obtain ⟨tag, rest, split⟩ := exists_tag (bs := s.unread) (by simpa [next] using long)
      exact noTag tag ⟨rest, split.symm⟩
    obtain ⟨kept, after, -⟩ := h.skip_one next
    obtain ⟨kept', after', -⟩ := kept.skip_one after
    rw [fetchTag, brTake_eq_ok h next, Res.bind_ok, if_pos rfl, brTake_eq_ok kept after, Res.bind_ok, if_pos rfl,
      fetchPayload_runsOut _ kept' (by rwa [after'])]
    rfl

end Fetching

/-! ### Runs of decoded pixels (R201, R202) -/

section Runs
variable {s t u : State} {sp : Space} {a b n : Nat} {pixels pixels' : List Byte} {bits bits' : List Bool}

/-- Bytes from an address up are some of them and then the rest. -/
theorem State.bytes_add (s : State) (sp : Space) (a m n : Nat) :
    s.bytes sp a (m + n) = s.bytes sp a m ++ s.bytes sp (a + m) n := by
  simp [State.bytes, List.range_add, Nat.add_assoc]

/-- Bytes stored right after others are stored with them. -/
theorem Stores.append (first : Stores sp a pixels s t) (second : Stores sp (a + pixels.length) pixels' t u) :
    Stores sp a (pixels ++ pixels') s u where
  stored := by
    rw [List.length_append, State.bytes_add, second.stored, State.bytes_congr fun x _ hx => second.others x (.inl hx),
      first.stored]
  others x hx := by
    rw [List.length_append] at hx
    rw [second.others x (by omega), first.others x (by omega)]

/-- A decode from `s` to `t`: it took the bits `bits`, gave IMG the bytes `pixels` from `a` up, kept the invariants and
changed nothing else but the group the decoder is at. -/
structure Decodes (a : Nat) (pixels : List Byte) (bits : List Bool) (s t : State) : Prop where
  stores : Stores .img a pixels s t
  taken : s.unread = bits ++ t.unread
  inv : t.Inv
  frame : t = { s.skipBits bits.length with img := t.img, tagRow := t.tagRow, tagGroup := t.tagGroup }

theorem Decodes.refl (h : s.Inv) (a : Nat) : Decodes a [] [] s s :=
  ⟨⟨rfl, fun _ _ => rfl⟩, rfl, h, by rw [List.length_nil, skipBits_zero]⟩

/-- Pixels decoded right after others are decoded with them. -/
theorem Decodes.append (h : s.Inv) (first : Decodes a pixels bits s t)
    (second : Decodes (a + pixels.length) pixels' bits' t u) : Decodes a (pixels ++ pixels') (bits ++ bits') s u where
  stores := first.stores.append second.stores
  taken := by rw [first.taken, second.taken, List.append_assoc]
  inv := second.inv
  frame := by
    obtain ⟨-, -, inside⟩ := h.skip_bits first.taken
    rw [List.length_append, ← skipBits_skipBits _ inside, second.frame, first.frame]
    rfl

theorem Decodes.width_eq (run : Decodes a pixels bits s t) : t.width = s.width := by rw [run.frame]; rfl

theorem Decodes.height_eq (run : Decodes a pixels bits s t) : t.height = s.height := by rw [run.frame]; rfl

theorem Decodes.riValid_eq (run : Decodes a pixels bits s t) : t.riValid = s.riValid := by rw [run.frame]; rfl

theorem Decodes.rowBit_eq (run : Decodes a pixels bits s t) (y : Nat) : t.rowBit y = s.rowBit y := by
  rw [run.frame]
  rfl

/-- A decode of `n` bytes of IMG from `a` up that ran out of data: the reader is exhausted, and no byte of IMG outside them
nor anything else has changed (R201, R202). -/
structure RunsDry (a n : Nat) (s t : State) : Prop where
  others : ∀ x, x < a ∨ a + n ≤ x → t.byte .img x = s.byte .img x
  frame : t = { s.exhausted with img := t.img, tagRow := t.tagRow, tagGroup := t.tagGroup, draws := t.draws }

/-- A decode that ran out after some of its bytes had been decoded. -/
theorem RunsDry.after (dry : RunsDry a n t u) (first : Decodes b pixels bits s t)
    (inside : a ≤ b ∧ b + pixels.length ≤ a + n) : RunsDry a n s u where
  others x hx := by rw [dry.others x hx, first.stores.others x (by omega)]
  frame := by
    rw [dry.frame, first.frame]
    rfl

/-- The bytes of a decode that ran out may be left unspecified (log 4). -/
theorem RunsDry.unspecify (dry : RunsDry a n s t) (inside : a + n ≤ s.params.imgCap) :
    ∃ u, unspecifyImg a n t = .ok () u ∧ RunsDry a n s u := by
  have params : t.params = s.params := by rw [dry.frame]; rfl
  have ends : a + ((List.range n).map fun i => Config.freeByte t.draws (a + i)).length ≤ t.params.cap .img := by
    simpa [Params.cap, params] using inside
  have written := memWriteBytes_inside (s := { t with draws := t.draws + 1 }) ends
  have stores := stores_memSetBytes .img a ((List.range n).map fun i => Config.freeByte t.draws (a + i)) t
  refine ⟨_, written, fun x hx => ?_, ?_⟩
  · exact (stores.others x (by simpa using hx)).trans (dry.others x hx)
  · rw [dry.frame]
    rfl

end Runs

/-! ### One group (R201) -/

section Group
variable {s : State} {y g : Nat}

/-- A number of 32 bits is what its register holds. -/
theorem toNat_ofNat_word {n : Nat} (hn : n < 2 ^ 32) : (BitVec.ofNat 32 n).toNat = n := by
  rw [BitVec.toNat_ofNat, Nat.mod_eq_of_lt hn]

/-- A tag gives exactly as many bytes as its group has valid pixels. -/
theorem tagPixels_length {n : Nat} (hn : n ≤ 4) (tag : Tag) : (tagPixels n tag).length = n := by
  cases tag <;> simp [tagPixels, hn]

/-- A group has at most four valid pixels (R14). -/
theorem validCount_le (w g : Nat) : validCount w g ≤ 4 := Nat.min_le_left ..

/-- A tag run on a group of the image gives the group's valid pixels its bytes and takes no bits (R201). -/
theorem runTag_decodes (tag : Tag) (h : s.Inv) (row : s.tagRow.toNat = y) (group : s.tagGroup.toNat = g)
    (hy : y < s.height.toNat) (hg : g < groupCount s.width.toNat) :
    ∃ t, runTag tag s = .ok () t ∧
      Decodes (pixelAddr s.width.toNat (4 * g) y) (tagPixels (validCount s.width.toNat g) tag) [] s t ∧
      t.tagRow = s.tagRow ∧ t.tagGroup = s.tagGroup := by
  have inside : pixelAddr s.width.toNat (4 * g) y + (tagPixels (validCount s.width.toNat g) tag).length ≤
      s.params.cap .img := by
    rw [tagPixels_length (validCount_le _ _)]
    exact (group_inside hy hg).trans h.fits
  subst row group
  refine ⟨_, memWriteBytes_inside inside, ⟨stores_memSetBytes .img _ _ s, rfl, h.writeBytes (.inr inside), ?_⟩, rfl, rfl⟩
  rw [List.length_nil, skipBits_zero]
  rfl

/-- With a tag next, a group takes it, and its valid pixels take the tag's bytes (R201). -/
theorem bdGroupBody_decodes {tag : Tag} (h : s.Inv) (hy : y < s.height.toNat) (hg : g < groupCount s.width.toNat)
    (next : tag.bits <+: s.unread) :
    ∃ t, bdGroupBody y g s = .ok (tagClass tag) t ∧
      Decodes (pixelAddr s.width.toNat (4 * g) y) (tagPixels (validCount s.width.toNat g) tag) tag.bits s t ∧
      t.tagRow = BitVec.ofNat 32 y ∧ t.tagGroup = BitVec.ofNat 32 g := by
  obtain ⟨rest, next⟩ := next
  have placed := h.atGroup (BitVec.ofNat 32 y) (BitVec.ofNat 32 g)
  obtain ⟨kept, after, -⟩ := placed.skip_bits next.symm
  have row : (BitVec.ofNat 32 y).toNat = y := toNat_ofNat_word (by omega)
  have group : (BitVec.ofNat 32 g).toNat = g := by
    have inside := (validCount_bounds hg).1
    exact toNat_ofNat_word (by omega)
  have fetched : Decodes (pixelAddr s.width.toNat (4 * g) y) [] tag.bits s
      ((s.atGroup (BitVec.ofNat 32 y) (BitVec.ofNat 32 g)).skipBits tag.bits.length) :=
    ⟨⟨rfl, fun _ _ => rfl⟩, by rw [after, next], kept, rfl⟩
  obtain ⟨t, filled, run, tagRow, tagGroup⟩ := runTag_decodes tag kept row group hy hg
  refine ⟨t, ?_, ?_, tagRow, tagGroup⟩
  · rw [bdGroupBody, fetchTag_takes tag _ rest placed next.symm, Res.bind_ok, filled, Res.bind_ok]
  · rw [← List.append_nil tag.bits]
    exact fetched.append h run

/-- With no tag next, a group runs out before any pixel is written. -/
theorem bdGroupBody_runsDry (h : s.Inv) (noTag : ∀ tag : Tag, ¬ tag.bits <+: s.unread) (a n : Nat) :
    ∃ t, bdGroupBody y g s = .raise .outOfData t ∧ RunsDry a n s t := by
  have placed := h.atGroup (BitVec.ofNat 32 y) (BitVec.ofNat 32 g)
  refine ⟨(s.atGroup (BitVec.ofNat 32 y) (BitVec.ofNat 32 g)).exhausted, ?_, fun _ _ => rfl, rfl⟩
  rw [bdGroupBody, fetchTag_eq_raise placed noTag, Res.bind_raise]

/-- BD_DECODE_GROUP's two checks stand before its body. -/
theorem exec_bdDecodeGroup (s : State) (y g : Word32) :
    exec (.bdDecodeGroup y g) s = complete (
      if s.height.toNat ≤ y.toNat then .raise .rowOverrun s
      else if ceilDiv s.width.toNat 4 ≤ g.toNat then .raise .groupOutOfRange s
      else (bdGroupBody y.toNat g.toNat s).onRaise
        (unspecifyImg (pixelAddr s.width.toNat (4 * g.toNat) y.toNat) (validCount s.width.toNat g.toNat))) := by
  simp only [exec, execBdDecodeGroup, raiseIf_bind, decide_eq_true_eq]
  rfl

end Group

/-! ### Runs one after another -/

section Loops
variable {s : State}

/-- The runs of a list, taken by index, are the list's runs. -/
theorem flatMap_range_getD {α β : Type} (xs : List α) (d : α) (f : α → List β) :
    ((List.range xs.length).flatMap fun j => f (xs.getD j d)) = xs.flatMap f := by
  have values : (List.range xs.length).map (fun j => xs.getD j d) = xs :=
    List.ext_getElem (by simp) fun j hj _ => by
      have inside : j < xs.length := by simpa using hj
      simp [inside]
  rw [← List.flatMap_map, values]

/-- A loop whose bits stand next, and whose every turn decodes its own bits right after the pixels before it, decodes the
pixels of all its turns. -/
theorem forLoop_decodes {body : Nat → State → Res Unit} {n a : Nat} {pixels : Nat → List Byte}
    {bits : Nat → List Bool} (h : s.Inv) (next : (List.range n).flatMap bits <+: s.unread)
    (turn : ∀ j < n, ∀ t, Decodes a ((List.range j).flatMap pixels) ((List.range j).flatMap bits) s t →
      bits j <+: t.unread →
      ∃ u, body j t = .ok () u ∧ Decodes (a + ((List.range j).flatMap pixels).length) (pixels j) (bits j) t u) :
    ∃ t, forLoop body n 0 s = .ok () t ∧
      Decodes a ((List.range n).flatMap pixels) ((List.range n).flatMap bits) s t := by
  have all := forLoop_ok (body := body) (k := n) (i := 0)
    (P := fun j t => Decodes a ((List.range j).flatMap pixels) ((List.range j).flatMap bits) s t)
    (Decodes.refl h a) fun j t _ hj run => ?_
  · rwa [Nat.zero_add] at all
  · have first : List.range (j + 1) <+: List.range n := by
      rw [← Nat.min_eq_left (show j + 1 ≤ n by omega), ← List.take_range]
      exact List.take_prefix _ _
    have mine : bits j <+: t.unread := by
      have sofar := (first.flatMap bits).trans next
      rwa [List.range_succ, List.flatMap_append, List.flatMap_singleton, run.taken, List.prefix_self_append_iff] at sofar
    obtain ⟨u, e, decoded⟩ := turn j (by omega) t run mine
    refine ⟨u, e, ?_⟩
    simp only [List.range_succ, List.flatMap_append, List.flatMap_singleton]
    exact run.append h decoded

end Loops

/-! ### One row (R202) -/

section Row
variable {s : State} {y : Nat}

/-- The first `g` groups of a row give four pixels each, up to the width. -/
theorem groupPixels_length (w : Nat) (tag : Nat → Tag) (g : Nat) :
    ((List.range g).flatMap fun j => tagPixels (validCount w j) (tag j)).length = min (4 * g) w := by
  induction g with
  | zero => simp
  | succ g ih =>
    rw [List.range_succ, List.flatMap_append, List.length_append, ih, List.flatMap_singleton,
      tagPixels_length (validCount_le w g), validCount]
    omega

/-- The tags of a row give as many pixels as it has. -/
theorem rowPixels_length (w : Nat) (tags : List Tag) : (rowPixels w tags).length = w := by
  rw [rowPixels, groupPixels_length]
  simp only [groupCount, ceilDiv]
  omega

/-- With a tag next for each group of a row, the row takes their pixels (R202). -/
theorem bdGroups_decodes {tags : List Tag} (h : s.Inv) (hy : y < s.height.toNat)
    (count : tags.length = groupCount s.width.toNat) (next : tagBits tags <+: s.unread) :
    ∃ t, bdGroups y s = .ok () t ∧
      Decodes (pixelAddr s.width.toNat 0 y) (rowPixels s.width.toNat tags) (tagBits tags) s t := by
  have bits : ((List.range (groupCount s.width.toNat)).flatMap fun g => (tags.getD g .white).bits) = tagBits tags :=
    count ▸ flatMap_range_getD tags .white Tag.bits
  rw [← bits] at next ⊢
  refine forLoop_decodes h next fun g hg t run mine => ?_
  obtain ⟨u, e, decoded, -, -⟩ :=
    bdGroupBody_decodes run.inv (by rwa [run.height_eq]) (by rwa [run.width_eq]) mine
  have inside := (validCount_bounds hg).1
  have address : pixelAddr s.width.toNat (4 * g) y = pixelAddr s.width.toNat 0 y +
      ((List.range g).flatMap fun j => tagPixels (validCount s.width.toNat j) (tags.getD j .white)).length := by
    rw [groupPixels_length, pixelAddr, pixelAddr]
    omega
  rw [run.width_eq, address] at decoded
  exact ⟨u, by rw [e, Res.bind_ok], decoded⟩

/-- Without a tag next for each of the last `k` groups of a row, decoding them runs out inside the row (R202). -/
theorem forLoop_groups_runsDry {k g : Nat} (h : s.Inv) (hy : y < s.height.toNat)
    (groups : g + k = groupCount s.width.toNat)
    (noTags : ∀ tags : List Tag, tags.length = k → ¬ tagBits tags <+: s.unread) :
    ∃ t, forLoop (fun j u => (bdGroupBody y j u).bind fun _ v => .ok () v) k g s = .raise .outOfData t ∧
      RunsDry (pixelAddr s.width.toNat 0 y) s.width.toNat s t := by
  induction k generalizing g s with
  | zero => exact absurd List.nil_prefix (noTags [] rfl)
  | succ k ih =>
    rw [forLoop_succ]
    by_cases next : ∃ tag : Tag, tag.bits <+: s.unread
    case pos =>
      obtain ⟨tag, next⟩ := next
      have hg : g < groupCount s.width.toNat := by omega
      obtain ⟨t, e, run, -, -⟩ := bdGroupBody_decodes h hy hg next
      obtain ⟨u, e', dry⟩ := ih run.inv (by rwa [run.height_eq]) (g := g + 1) (by rw [run.width_eq]; omega)
        fun tags length ⟨rest, split⟩ => noTags (tag :: tags) (by rw [List.length_cons, length])
          ⟨rest, by rw [tagBits_cons, run.taken, ← split, List.append_assoc]⟩
      rw [run.width_eq] at dry
      have inside := validCount_bounds hg
      refine ⟨u, by rw [e, Res.bind_ok, Res.bind_ok, e'], dry.after run ?_⟩
      rw [tagPixels_length (validCount_le _ _), pixelAddr, pixelAddr]
      omega
    case neg =>
      obtain ⟨t, e, dry⟩ := bdGroupBody_runsDry (y := y) (g := g) h (not_exists.mp next)
        (pixelAddr s.width.toNat 0 y) s.width.toNat
      exact ⟨t, by rw [e, Res.bind_raise, Res.bind_raise], dry⟩

/-- BD_DECODE_ROW of a row of the image, once both its checks have passed, goes by the row's bit. -/
theorem bdDecodeRowOp_checked (h : s.Inv) (held : s.riValid = true) (hy : y < s.height.toNat) :
    bdDecodeRowOp y s =
      if s.rowBit y then (bdFillRow y s).bind fun _ t => .ok 1#32 t
      else ((bdGroups y s).onRaise (unspecifyImg (pixelAddr s.width.toNat 0 y) s.width.toNat)).bind
        fun _ t => .ok 0#32 t := by
  rw [bdDecodeRowOp, held, Bool.not_true, raiseIf_false, Res.bind_ok, decide_eq_false (Nat.not_le.mpr hy),
    raiseIf_false, Res.bind_ok, h.rixBit_eq (.inr held) hy, Res.bind_ok]

/-- A row flagged empty becomes white and takes no bits. -/
theorem bdDecodeRowOp_empty (h : s.Inv) (held : s.riValid = true) (hy : y < s.height.toNat)
    (empty : s.rowBit y = true) :
    ∃ t, bdDecodeRowOp y s = .ok 1#32 t ∧
      Decodes (pixelAddr s.width.toNat 0 y) (List.replicate s.width.toNat Config.white) [] s t ∧
      t = { s with img := t.img } := by
  have inside : pixelAddr s.width.toNat 0 y + (List.replicate s.width.toNat Config.white).length ≤ s.params.cap .img := by
    rw [List.length_replicate]
    exact (row_inside hy).trans h.fits
  refine ⟨_, by rw [bdDecodeRowOp_checked h held hy, if_pos empty, bdFillRow, memWriteBytes_inside inside, Res.bind_ok],
    ⟨stores_memSetBytes .img _ _ s, rfl, h.writeBytes (.inr inside), ?_⟩, rfl⟩
  rw [List.length_nil, skipBits_zero]
  rfl

/-- Any other row whose tags stand next takes their pixels. -/
theorem bdDecodeRowOp_coded {tags : List Tag} (h : s.Inv) (held : s.riValid = true) (hy : y < s.height.toNat)
    (coded : s.rowBit y = false) (count : tags.length = groupCount s.width.toNat)
    (next : tagBits tags <+: s.unread) :
    ∃ t, bdDecodeRowOp y s = .ok 0#32 t ∧
      Decodes (pixelAddr s.width.toNat 0 y) (rowPixels s.width.toNat tags) (tagBits tags) s t := by
  obtain ⟨t, e, run⟩ := bdGroups_decodes h hy count next
  exact ⟨t, by rw [bdDecodeRowOp_checked h held hy, if_neg (by simp [coded]), e, Res.onRaise_ok, Res.bind_ok], run⟩

/-- Any other row whose tags do not all stand next runs out, and leaves its bytes of IMG unspecified. -/
theorem bdDecodeRowOp_runsDry (h : s.Inv) (held : s.riValid = true) (hy : y < s.height.toNat)
    (coded : s.rowBit y = false)
    (noTags : ∀ tags : List Tag, tags.length = groupCount s.width.toNat → ¬ tagBits tags <+: s.unread) :
    ∃ t, bdDecodeRowOp y s = .raise .outOfData t ∧ RunsDry (pixelAddr s.width.toNat 0 y) s.width.toNat s t := by
  obtain ⟨u, e, dry⟩ := forLoop_groups_runsDry h hy (Nat.zero_add _) noTags
  obtain ⟨t, e', dry⟩ := dry.unspecify ((row_inside hy).trans h.fits)
  refine ⟨t, ?_, dry⟩
  rw [bdDecodeRowOp_checked h held hy, if_neg (by simp [coded]), bdGroups, e, Res.onRaise_raise, e', Res.bind_ok,
    Res.bind_raise]

end Row

end Machine

namespace Proofs
open Sys2Proof.Machine

/-- Settles O41: the checks stand in R201's order before the body, which fetches the tag that stands next, if any, before
it writes a pixel. -/
theorem bdDecodeGroupWritesTheGroup : Obligations.BdDecodeGroupWritesTheGroup := by
  refine fun s y g => ⟨fun beyond => ?rowOverrun, fun hy beyond => ?groupOutOfRange,
    fun h hy hg => ⟨fun tag rest next => ?decoded, fun noTag => ?exhausted⟩⟩
  case rowOverrun =>
    rw [exec_bdDecodeGroup, if_pos beyond]
    rfl
  case groupOutOfRange =>
    rw [exec_bdDecodeGroup, if_neg (Nat.not_le.mpr hy), if_pos beyond]
    rfl
  case decoded =>
    obtain ⟨t, e, run, tagRow, tagGroup⟩ := bdGroupBody_decodes h hy hg ⟨rest, next.symm⟩
    rw [BitVec.ofNat_toNat, BitVec.setWidth_eq] at tagRow tagGroup
    refine ⟨t, ?_, ?_, ?_⟩
    · rw [exec_bdDecodeGroup, if_neg (Nat.not_le.mpr hy), if_neg (Nat.not_le.mpr hg), e]
      rfl
    · cases tag <;> exact run.stores
    · rw [← tagRow, ← tagGroup]
      exact run.frame
  case exhausted =>
    obtain ⟨u, e, dry⟩ := bdGroupBody_runsDry (y := y.toNat) (g := g.toNat) h noTag
      (pixelAddr s.width.toNat (4 * g.toNat) y.toNat) (validCount s.width.toNat g.toNat)
    obtain ⟨t, e', dry⟩ := dry.unspecify ((group_inside hy hg).trans h.fits)
    refine ⟨t, ?_, dry.others, dry.frame⟩
    rw [exec_bdDecodeGroup, if_neg (Nat.not_le.mpr hy), if_neg (Nat.not_le.mpr hg), e, Res.onRaise_raise, e']
    rfl

/-- Settles O42: the checks stand in R202's order before the row's bit is read; a row flagged empty is filled, and any
other takes one tag for each group or runs out at the first group with no tag next. -/
theorem bdDecodeRowWritesTheRow : Obligations.BdDecodeRowWritesTheRow := by
  refine fun s y => ⟨fun noIndex => ?noRowIndex, fun held beyond => ?rowOverrun,
    fun h held hy => ⟨fun empty => ?flaggedEmpty, fun tags rest coded count next => ?decoded, fun coded noTags => ?exhausted⟩⟩
  case noRowIndex =>
    rw [exec, execBdDecodeRow, bdDecodeRowOp, noIndex]
    rfl
  case rowOverrun =>
    rw [exec, execBdDecodeRow, bdDecodeRowOp, held, Bool.not_true, raiseIf_false, Res.bind_ok, decide_eq_true beyond]
    rfl
  case flaggedEmpty =>
    obtain ⟨t, e, run, frame⟩ := bdDecodeRowOp_empty h held hy empty
    exact ⟨t, by rw [exec, execBdDecodeRow, e]; rfl, run.stores, frame⟩
  case decoded =>
    obtain ⟨t, e, run⟩ := bdDecodeRowOp_coded h held hy coded count ⟨rest, next.symm⟩
    exact ⟨t, by rw [exec, execBdDecodeRow, e]; rfl, run.stores, run.frame⟩
  case exhausted =>
    obtain ⟨t, e, dry⟩ := bdDecodeRowOp_runsDry h held hy coded noTags
    exact ⟨t, by rw [exec, execBdDecodeRow, e]; rfl, dry.others, dry.frame⟩

end Proofs
end Sys2Proof
end

section
/-! PROOFS. CF_DECODE of a container that holds a tag for every group (R221, R224): what the decoder reads after the
header's commit, and the rows of the image as one run of decoded pixels. -/

namespace Sys2Proof
namespace Machine

/-! ### The rows of an image (R202, R224) -/

section Rows
variable {s : State} {y : Nat}

/-- The pixels row `y` takes from its tags: white when it is flagged empty (R202). -/
def State.decodedRow (s : State) (tags : List Tag) (y : Nat) : List Byte :=
  if s.rowBit y then List.replicate s.width.toNat Config.white else rowPixels s.width.toNat tags

theorem decodedRow_length (s : State) (tags : List Tag) (y : Nat) : (s.decodedRow tags y).length = s.width.toNat := by
  rw [State.decodedRow]
  split
  · exact List.length_replicate
  · exact rowPixels_length _ _

/-- A row whose tags stand next, none if it is flagged empty, takes their pixels. -/
theorem bdDecodeRowOp_decodes {tags : List Tag} (h : s.Inv) (held : s.riValid = true) (hy : y < s.height.toNat)
    (count : tags.length = if s.rowBit y then 0 else groupCount s.width.toNat) (next : tagBits tags <+: s.unread) :
    ∃ v t, bdDecodeRowOp y s = .ok v t ∧
      Decodes (pixelAddr s.width.toNat 0 y) (s.decodedRow tags y) (tagBits tags) s t := by
  rw [State.decodedRow]
  cases bit : s.rowBit y with
  | true =>
    obtain rfl : tags = [] := List.eq_nil_of_length_eq_zero (by rw [count, if_pos bit])
    obtain ⟨t, e, run, -⟩ := bdDecodeRowOp_empty h held hy bit
    exact ⟨1#32, t, e, run⟩
  | false =>
    rw [bit] at count
    obtain ⟨t, e, run⟩ := bdDecodeRowOp_coded h held hy bit count next
    exact ⟨0#32, t, e, run⟩

/-- With the tags of all rows next, row after row, the image takes their pixels (R224). -/
theorem cfDecodeRows_decodes {rows : List (List Tag)} (h : s.Inv) (held : s.riValid = true)
    (count : rows.length = s.height.toNat)
    (groups : ∀ y < rows.length, (rows.getD y []).length = if s.rowBit y then 0 else groupCount s.width.toNat)
    (next : tagBits rows.flatten <+: s.unread) :
    ∃ t, cfDecodeRows s = .ok () t ∧
      Decodes 0 ((List.range s.height.toNat).flatMap fun y => s.decodedRow (rows.getD y []) y) (tagBits rows.flatten)
        s t := by
  have bits : ((List.range s.height.toNat).flatMap fun y => tagBits (rows.getD y [])) = tagBits rows.flatten := by
    rw [← count, flatMap_range_getD rows [] tagBits, tagBits, ← List.flatMap_id, List.flatMap_assoc]
    rfl
  rw [← bits] at next ⊢
  refine forLoop_decodes h next fun y hy t run mine => ?_
  have tags := groups y (by rwa [count])
  rw [← run.rowBit_eq, ← run.width_eq] at tags
  obtain ⟨v, u, e, decoded⟩ :=
    bdDecodeRowOp_decodes run.inv (run.riValid_eq.trans held) (by rwa [run.height_eq]) tags mine
  have address : pixelAddr s.width.toNat 0 y =
      0 + ((List.range y).flatMap fun j => s.decodedRow (rows.getD j []) j).length := by
    simp [List.length_flatMap, decodedRow_length, pixelAddr]
  rw [State.decodedRow, run.rowBit_eq, run.width_eq, address] at decoded
  exact ⟨u, by rw [e, Res.bind_ok], decoded⟩

end Rows

/-! ### CF_DECODE (R221, R224) -/

section Container
variable {s t u : State} {l : Nat}

/-- What the decoder reads after CF_PARSE's commit is what SIN holds: the dimensions, the bitstream, and the rows' bits. -/
theorem committed_reads (h : s.Inv) (e : s.parseError l = none)
    (index : Stores .ribuf 0 (s.bytes .sin 19 (s.sinLe32 11)) s u) (frame : u = { s.parsed with ribuf := u.ribuf }) :
    u.width.toNat = s.sinLe32 3 ∧ u.height.toNat = s.sinLe32 7 ∧
      u.unread = bitsOf (s.bytes .sin (19 + s.sinLe32 11) (s.sinLe32 15)) ∧
      ∀ y < s.sinLe32 7, u.rowBit y = s.sinRowBit y := by
  obtain ⟨slice, ⟨-, width⟩, ⟨-, height⟩, rows, -⟩ := parseError_none e
  have capacity := h.cap_lt .sin
  simp only [Params.cap] at capacity
  have dimension : Config.dimMax < 2 ^ 32 := by decide
  refine ⟨?_, ?_, ?_, fun y hy => ?_⟩
  · rw [frame]
    exact toNat_ofNat_word (by omega)
  · rw [frame]
    exact toNat_ofNat_word (by omega)
  · have base := toNat_ofNat_word (show 19 + s.sinLe32 11 < 2 ^ 32 by omega)
    have length := toNat_ofNat_word (show s.sinLe32 15 < 2 ^ 32 by omega)
    rw [frame, ← base, ← length]
    rfl
  · have inside : y / 8 < s.sinLe32 11 := rows ▸ rowByte_lt hy
    have byte := congrArg (·[y / 8]?) index.stored
    have byte : u.byte .ribuf (y / 8) = s.byte .sin (19 + y / 8) := by simpa [State.bytes, inside] using byte
    rw [State.rowBit, byte, State.sinRowBit]

/-- CF_DECODE whose header passes all checks and whose rows all decode hands the image over and returns its size. -/
theorem exec_cfDecode_ok {l : Word32} (e : s.parseError l.toNat = none)
    (committed : cfParseCommit (s.sinLe32 3) (s.sinLe32 7) (s.sinLe32 11) (s.sinLe32 15) s = .ok 0#32 u)
    (decoded : cfDecodeRows u = .ok () t) :
    exec (.cfDecode l) s =
      .next (returnValue (BitVec.ofNat 32 (t.width.toNat * t.height.toNat)) { t with imgValid := true }) := by
  rw [exec, execCfDecode, cfParseOp_eq, e, Option.elim_none, committed, Res.bind_ok, decoded, Res.onRaise_ok, Res.bind_ok]
  rfl

end Container

end Machine

namespace Proofs
open Sys2Proof.Machine

/-- Settles O49: after CF_PARSE's commit the row index says which rows are white and the slice holds the tags of the
others, so the rows decode one after another, whatever follows their tags. -/
theorem cfDecodeWritesTheImage : Obligations.CfDecodeWritesTheImage := by
  intro s l rows h e holds
  obtain ⟨u, committed, index, frame, hu⟩ := cfParseCommit_commits h e
  obtain ⟨width, height, unread, rowBit⟩ := committed_reads h e index frame
  obtain ⟨t, decoded, run⟩ := cfDecodeRows_decodes hu (by rw [frame]; rfl) (holds.count.trans height.symm)
    (fun y hy => by rw [holds.groups y hy, width, rowBit y (by rwa [← holds.count])]) (unread ▸ holds.bits)
  have image : ((List.range u.height.toNat).flatMap fun y => u.decodedRow (rows.getD y []) y) = s.decodedImage rows := by
    rw [State.decodedImage, height]
    refine List.flatMap_congr fun y hy => ?_
    rw [State.decodedRow, rowBit y (List.mem_range.mp hy), width]
    rfl
  have stores := image ▸ run.stores
  refine ⟨{ t with imgValid := true }, ?_, ⟨stores.stored, fun x hx => ?_⟩, ⟨?_, fun x hx => ?_⟩, ?_⟩
  · rw [exec_cfDecode_ok e committed decoded, run.width_eq, run.height_eq, width, height]
  · refine (stores.others x hx).trans ?_
    rw [frame]
    rfl
  · refine Eq.trans ?_ index.stored
    rw [run.frame]
    rfl
  · refine Eq.trans ?_ (index.others x hx)
    rw [run.frame]
    rfl
  · rw [run.frame, frame]
    rfl

end Proofs
end Sys2Proof
end

section
/-! PROOFS. CF_ASSEMBLE and CF_PARSE (R220 to R222): their outcomes, and how many bytes of SIN each check of CF_PARSE
reads. -/

namespace Sys2Proof
namespace Machine

section ContainerCommands
variable {s t : State}

/-! ### CF_ASSEMBLE (R220) -/

/-- Without a row index CF_ASSEMBLE stops at its first check (R220). -/
theorem cfAssembleOp_unindexed (noIndex : s.riValid = false) : cfAssembleOp s = .raise .noRowIndex s := by
  simp [cfAssembleOp, noIndex]

/-- With an open writer CF_ASSEMBLE stops at its second check (R220). -/
theorem cfAssembleOp_open (held : s.riValid = true) (isOpen : s.fin = false) :
    cfAssembleOp s = .raise .writerNotFinished s := by
  simp [cfAssembleOp, held, isOpen]

/-! ### CF_PARSE (R221) -/

/-- CF_PARSE raises the first check that fails and changes nothing else, in every state (R221). -/
theorem exec_cfParse_raise {l : Word32} {c : Cause} (e : s.parseError l.toNat = some c) :
    exec (.cfParse l) s = .next (raiseError c s) := by
  rw [exec, execCfParse, cfParseOp_eq, e]
  rfl

/-! ### What each check of CF_PARSE reads (R222) -/

/-- A word of SIN depends on its four bytes. -/
theorem sinLe32_congr {a : Nat} (same : ∀ x < a + 4, t.byte .sin x = s.byte .sin x) : t.sinLe32 a = s.sinLe32 a := by
  rw [State.sinLe32, State.sinLe32, same a (by omega), same (a + 1) (by omega), same (a + 2) (by omega),
    same (a + 3) (by omega)]

/-- How many bytes of SIN are read up to the check that raises a cause: none for the length checks, two for the magic,
three for the version, the whole header for any other (R222). -/
def checkedBytes : Cause → Nat
  | .sliceOutOfRange => 0
  | .tooShort => 0
  | .badMagic => 2
  | .badVersion => 3
  | _ => 19

/-- The first failing check of CF_PARSE depends on no byte after those read up to it. -/
theorem parseError_congr {l : Nat} {c : Cause} (params : t.params = s.params) (e : s.parseError l = some c)
    (same : ∀ a < checkedBytes c, t.byte .sin a = s.byte .sin a) : t.parseError l = some c := by
  have header (read : 19 ≤ checkedBytes c) : t.parseError l = s.parseError l := by
    have field {a : Nat} (ha : a + 4 ≤ 19) : t.sinLe32 a = s.sinLe32 a := sinLe32_congr fun x hx => same x (by omega)
    rw [State.parseError, params, same 0 (by omega), same 1 (by omega), same 2 (by omega), field (by decide),
      field (by decide), field (by decide), field (by decide)]
    rfl
  have first := e
  unfold State.parseError at first
  split_ifs at first with slice short magic version <;> cases first
  · rw [State.parseError, params, if_pos slice]
  · rw [State.parseError, params, if_neg slice, if_pos short]
  · rw [State.parseError, params, if_neg slice, if_neg short, same 0 (by decide), same 1 (by decide), if_pos magic]
  · rw [State.parseError, params, if_neg slice, if_neg short, same 0 (by decide), same 1 (by decide), if_neg magic,
      same 2 (by decide), if_pos version]
  all_goals exact (header (by decide)).trans e

end ContainerCommands

end Machine

namespace Proofs
open Sys2Proof.Machine

/-- Settles O44: each check of CF_ASSEMBLE raises before anything is written; past them it copies the three parts, whose
length fits SOUT and so 32 bits. -/
theorem cfAssembleWritesTheContainer : Obligations.CfAssembleWritesTheContainer := by
  refine fun s => ⟨fun noIndex => ?noIndex, fun held isOpen => ?writerOpen, fun held finished long => ?full,
    fun h held finished fits => ?fits⟩
  case noIndex => rw [exec, execCfAssemble, cfAssembleOp_unindexed noIndex]; rfl
  case writerOpen => rw [exec, execCfAssemble, cfAssembleOp_open held isOpen]; rfl
  case full => rw [exec, execCfAssemble, cfAssembleOp_full held finished long]; rfl
  case fits =>
    have length : s.assembled.length = 19 + s.riCount.toNat + s.bwLen.toNat := s.assembled_length
    obtain ⟨t, e, stores, frame⟩ := cfAssembleOp_assembles h held finished (length.trans_le fits)
    rw [length] at e frame
    exact ⟨t, by rw [exec, execCfAssemble, e]; rfl, stores, frame, toNat_ofNat_word (fits.trans_lt (h.cap_lt .sout))⟩

/-- Settles O45: CF_PARSE is its first failing check or, with none, the commit of what SIN holds. -/
theorem cfParseChecksThenCommits : Obligations.CfParseChecksThenCommits := by
  refine fun s l h => ⟨fun c e => exec_cfParse_raise e, fun e => ?_⟩
  obtain ⟨t, committed, index, frame, -⟩ := cfParseCommit_commits h e
  obtain ⟨width, height, -⟩ := committed_reads h e index frame
  obtain ⟨slice, -⟩ := parseError_none e
  have base : 19 + s.sinLe32 11 < 2 ^ 32 := by
    have capacity : s.params.sinCap < 2 ^ 32 := h.cap_lt .sin
    omega
  refine ⟨t, ?_, index, frame, width, height, ?_⟩
  · rw [exec, execCfParse, cfParseOp_eq, e, Option.elim_none, committed]
    rfl
  · rw [frame]
    exact toNat_ofNat_word base

/-- Settles O46: a failing CF_PARSE does nothing but raise its first failing check, which depends only on the bytes read
up to it. -/
theorem failingParseReadsOnlyTheHeader : Obligations.FailingParseReadsOnlyTheHeader := by
  intro s t m l c n e bytes same ends
  obtain rfl : n = checkedBytes c := by rw [bytes]; cases c <;> rfl
  rw [exec_cfParse_raise e] at ends
  obtain rfl := Host.Outcome.next.inj ends
  have again : { s with sin := m }.parseError l.toNat = some c := parseError_congr (s := s) rfl e same
  rw [exec_cfParse_raise again]
  rfl

end Proofs
end Sys2Proof
end

section
/-! PROOFS. CF_DECODE of a container whose bitstream ends before its last tag (R226): the rows before the one that runs
out decode, and the whole image is left unspecified. -/

namespace Sys2Proof
namespace Machine

section DecodeRunsOut
variable {s t : State} {a b m n : Nat}

/-- What runs out inside some bytes of IMG runs out inside any more. -/
theorem RunsDry.widen (dry : RunsDry b m s t) (inside : a ≤ b ∧ b + m ≤ a + n) : RunsDry a n s t where
  others x hx := dry.others x (by omega)
  frame := dry.frame

/-- How many tags row `y` has in the bitstream: none when it is flagged empty, else one for each group (R101). -/
def State.rowTagCount (s : State) (y : Nat) : Nat := if s.rowBit y then 0 else groupCount s.width.toNat

/-- A decode changes neither the row index nor the width. -/
theorem Decodes.rowTagCount_eq {pixels : List Byte} {bits : List Bool} (run : Decodes a pixels bits s t) (y : Nat) :
    t.rowTagCount y = s.rowTagCount y := by
  rw [State.rowTagCount, State.rowTagCount, run.rowBit_eq, run.width_eq]

/-- Without its tags next, a row runs out inside the image. -/
theorem bdDecodeRowOp_short {y : Nat} (h : s.Inv) (held : s.riValid = true) (hy : y < s.height.toNat)
    (noTags : ∀ tags : List Tag, tags.length = s.rowTagCount y → ¬ tagBits tags <+: s.unread) :
    ∃ t, bdDecodeRowOp y s = .raise .outOfData t ∧ RunsDry 0 (s.width.toNat * s.height.toNat) s t := by
  cases bit : s.rowBit y with
  | true => exact absurd List.nil_prefix (noTags [] (by simp [State.rowTagCount, bit]))
  | false =>
    obtain ⟨t, e, dry⟩ := bdDecodeRowOp_runsDry h held hy bit fun tags length =>
      noTags tags (by simp [State.rowTagCount, bit, length])
    exact ⟨t, e, dry.widen ⟨Nat.zero_le _, (row_inside hy).trans_eq (Nat.zero_add _).symm⟩⟩

/-- Without tags next for all of the last `k` rows, decoding them runs out inside the image (R224, R226). -/
theorem forLoop_rows_runsDry {k y : Nat} (h : s.Inv) (held : s.riValid = true) (last : y + k = s.height.toNat)
    (noRows : ∀ rows : List (List Tag), rows.length = k → (∀ j < k, (rows.getD j []).length = s.rowTagCount (y + j)) →
      ¬ tagBits rows.flatten <+: s.unread) :
    ∃ t, forLoop (fun j u => (bdDecodeRowOp j u).bind fun _ v => .ok () v) k y s = .raise .outOfData t ∧
      RunsDry 0 (s.width.toNat * s.height.toNat) s t := by
  induction k generalizing y s with
  | zero => exact absurd List.nil_prefix (noRows [] rfl fun j hj => absurd hj (Nat.not_lt_zero j))
  | succ k ih =>
    have hy : y < s.height.toNat := by omega
    rw [forLoop_succ]
    by_cases next : ∃ tags : List Tag, tags.length = s.rowTagCount y ∧ tagBits tags <+: s.unread
    case pos =>
      obtain ⟨tags, count, next⟩ := next
      obtain ⟨v, t, e, run⟩ := bdDecodeRowOp_decodes h held hy count next
      obtain ⟨u, e', dry⟩ := ih run.inv (run.riValid_eq.trans held) (y := y + 1) (by rw [run.height_eq]; omega)
        fun rows length counts ⟨rest, split⟩ => noRows (tags :: rows) (by rw [List.length_cons, length])
          (fun j hj => by
            cases j with
            | zero => exact count
            | succ j =>
              rw [List.getD_cons_succ, counts j (by omega), run.rowTagCount_eq, Nat.add_assoc, Nat.add_comm 1 j])
          ⟨rest, by
            rw [List.flatten_cons, tagBits, List.flatMap_append, run.taken, ← split, List.append_assoc]
            rfl⟩
      rw [run.width_eq, run.height_eq] at dry
      refine ⟨u, by rw [e, Res.bind_ok, Res.bind_ok, e'], dry.after run ?_⟩
      rw [decodedRow_length, Nat.zero_add]
      exact ⟨Nat.zero_le _, row_inside hy⟩
    case neg =>
      obtain ⟨t, e, dry⟩ := bdDecodeRowOp_short h held hy fun tags count mine => next ⟨tags, count, mine⟩
      exact ⟨t, by rw [e, Res.bind_raise, Res.bind_raise], dry⟩

/-- CF_DECODE raises the first check of CF_PARSE that fails and changes nothing else, in every state (R226). -/
theorem exec_cfDecode_raise {l : Word32} {c : Cause} (e : s.parseError l.toNat = some c) :
    exec (.cfDecode l) s = .next (raiseError c s) := by
  rw [exec, execCfDecode, cfParseOp_eq, e]
  rfl

/-- CF_DECODE whose rows run out raises the cause after the image is left unspecified (R226). -/
theorem exec_cfDecode_runsOut {l : Word32} {u v : State} {c : Cause} (e : s.parseError l.toNat = none)
    (committed : cfParseCommit (s.sinLe32 3) (s.sinLe32 7) (s.sinLe32 11) (s.sinLe32 15) s = .ok 0#32 u)
    (decoded : cfDecodeRows u = .raise c t)
    (unspecified : unspecifyImg 0 (u.width.toNat * u.height.toNat) t = .ok () v) :
    exec (.cfDecode l) s = .next (raiseError c v) := by
  rw [exec, execCfDecode, cfParseOp_eq, e, Option.elim_none, committed, Res.bind_ok, decoded, Res.onRaise_raise,
    unspecified, Res.bind_ok]
  rfl

end DecodeRunsOut

end Machine

namespace Proofs
open Sys2Proof.Machine

/-- Settles O50: after CF_PARSE's commit the rows run out at the first whose tags do not stand next, since tags for
every row would be tags the container holds. -/
theorem failingCfDecodeHandsOverNothing : Obligations.FailingCfDecodeHandsOverNothing := by
  refine fun s l h => ⟨fun c e => exec_cfDecode_raise e, fun e noRows => ?_⟩
  obtain ⟨u, committed, index, frame, hu⟩ := cfParseCommit_commits h e
  obtain ⟨width, height, unread, rowBit⟩ := committed_reads h e index frame
  have short (rows : List (List Tag)) (count : rows.length = u.height.toNat)
      (counts : ∀ j < u.height.toNat, (rows.getD j []).length = u.rowTagCount (0 + j)) :
      ¬ tagBits rows.flatten <+: u.unread := fun next => by
    refine noRows rows ⟨count.trans height, fun y hy => ?_, unread ▸ next⟩
    rw [count] at hy
    rw [counts y hy, Nat.zero_add, State.rowTagCount, rowBit y (height ▸ hy), width]
  obtain ⟨t, decoded, dry⟩ := forLoop_rows_runsDry hu (by rw [frame]; rfl) (Nat.zero_add _) short
  obtain ⟨v, unspecified, dry⟩ := dry.unspecify ((Nat.zero_add _).trans_le hu.fits)
  refine ⟨v, exec_cfDecode_runsOut e committed decoded unspecified, fun x hx => ?_, ⟨?_, fun x hx => ?_⟩, ?_⟩
  · rw [dry.others x (.inr (by rwa [width, height, Nat.zero_add])), frame]
    rfl
  · rw [dry.frame]
    exact index.stored
  · rw [dry.frame]
    exact index.others x hx
  · rw [dry.frame, frame]
    rfl

end Proofs
end Sys2Proof
end

section
/-! PROOFS. The round trip (R227): a canonical container in SIN passes every check of CF_PARSE and holds the image's
tags, and those tags give back the image's pixels. -/

namespace Sys2Proof
namespace Machine

/-! ### The pixels a tag gives back (R180, R201) -/

section Pixels
variable {s t : State} {y g : Nat}

/-- The tag of four pixels gives them back (R98). -/
theorem tagPixels_classify {n : Nat} (hn : n ≤ 4) (p0 p1 p2 p3 : Byte) :
    tagPixels n (classify p0 p1 p2 p3) = [p0, p1, p2, p3].take n := by
  have uniform (v : Byte) : List.replicate n v = (List.replicate 4 v).take n := by
    rw [List.take_replicate, Nat.min_eq_left hn]
  by_cases white : classify p0 p1 p2 p3 = .white
  · obtain ⟨rfl, rfl, rfl, rfl⟩ := classify_eq_white_iff.mp white
    exact (congrArg _ white).trans (uniform 255#8)
  by_cases black : classify p0 p1 p2 p3 = .black
  · obtain ⟨rfl, rfl, rfl, rfl⟩ := classify_eq_black_iff.mp black
    exact (congrArg _ black).trans (uniform 0#8)
  rw [classify_eq_literal white black, tagPixels]

/-- The tag of a group gives its valid pixels their bytes. -/
theorem tagPixels_tagOf (s : State) (y g : Nat) :
    tagPixels (validCount s.width.toNat g) (s.tagOf y g) =
      s.bytes .img (pixelAddr s.width.toNat (4 * g) y) (validCount s.width.toNat g) := by
  have pixels : [s.groupPixel y g 0, s.groupPixel y g 1, s.groupPixel y g 2, s.groupPixel y g 3] =
      (List.range 4).map (s.groupPixel y g) := rfl
  rw [tagOf_eq_classify, tagPixels_classify (validCount_le _ _), pixels, ← List.map_take, List.take_range,
    Nat.min_eq_left (validCount_le _ _)]
  refine List.map_congr_left fun i hi => ?_
  have inside : 4 * g + i < s.width.toNat := by
    have valid := List.mem_range.mp hi
    rw [validCount] at valid
    omega
  rw [State.groupPixel, if_pos inside, pixelAddr]

/-- The first `g` groups of a row give back its bytes up to the width. -/
theorem groupPixels_tagOf (s : State) (y g : Nat) :
    ((List.range g).flatMap fun j => tagPixels (validCount s.width.toNat j) (s.tagOf y j)) =
      s.bytes .img (pixelAddr s.width.toNat 0 y) (min (4 * g) s.width.toNat) := by
  induction g with
  | zero => rw [Nat.mul_zero, Nat.zero_min]; rfl
  | succ g ih =>
    rw [List.range_succ, List.flatMap_append, ih, List.flatMap_singleton, tagPixels_tagOf]
    by_cases inside : 4 * g ≤ s.width.toNat
    case pos =>
      have address : pixelAddr s.width.toNat (4 * g) y = pixelAddr s.width.toNat 0 y + 4 * g := rfl
      have count : min (4 * (g + 1)) s.width.toNat = 4 * g + validCount s.width.toNat g := by
        rw [validCount]
        omega
      rw [Nat.min_eq_left inside, address, count, State.bytes_add]
    case neg =>
      have none : validCount s.width.toNat g = 0 := by rw [validCount]; omega
      rw [none, Nat.min_eq_right (by omega), Nat.min_eq_right (by omega)]
      exact List.append_nil _

/-- The tags of a row give back its pixels. -/
theorem rowPixels_rowTags (s : State) (y : Nat) :
    rowPixels s.width.toNat (s.rowTags y) = s.bytes .img (pixelAddr s.width.toNat 0 y) s.width.toNat := by
  have tags (g : Nat) (hg : g ∈ List.range (groupCount s.width.toNat)) :
      tagPixels (validCount s.width.toNat g) ((s.rowTags y).getD g .white) =
        tagPixels (validCount s.width.toNat g) (s.tagOf y g) := by
    simp [State.rowTags, List.mem_range.mp hg]
  have whole : min (4 * groupCount s.width.toNat) s.width.toNat = s.width.toNat := by
    rw [groupCount, ceilDiv]
    omega
  rw [rowPixels, List.flatMap_congr tags, groupPixels_tagOf, whole]

/-- A white row's bytes are all 255 (R160). -/
theorem bytes_of_rowWhite (white : s.rowWhite y = true) :
    s.bytes .img (pixelAddr s.width.toNat 0 y) s.width.toNat = List.replicate s.width.toNat 255#8 := by
  refine List.eq_replicate_iff.mpr ⟨s.bytes_length .., fun p hp => ?_⟩
  obtain ⟨x, hx, rfl⟩ := List.mem_map.mp hp
  exact rowWhite_iff.mp white x (List.mem_range.mp hx)

/-- The rows of an image one after another are the image (R13). -/
theorem flatMap_bytes_rows (s : State) (w h : Nat) :
    ((List.range h).flatMap fun y => s.bytes .img (pixelAddr w 0 y) w) = s.bytes .img 0 (w * h) := by
  induction h with
  | zero => rfl
  | succ h ih =>
    rw [List.range_succ, List.flatMap_append, ih, List.flatMap_singleton, Nat.mul_succ, State.bytes_add, Nat.zero_add,
      pixelAddr, Nat.add_zero, Nat.mul_comm]

/-- Equal strings of bytes hold the same byte at every address. -/
theorem byte_eq_of_bytes_eq {sp : Space} {n a : Nat} (same : t.bytes sp 0 n = s.bytes sp 0 n) (ha : a < n) :
    t.byte sp a = s.byte sp a := by
  have byte := congrArg (·[a]?) same
  simpa [State.bytes, ha] using byte

end Pixels

/-! ### The tags of an image, row by row (R101) -/

section Tags
variable {s : State} {y : Nat}

/-- The tags row `y` of the current image has in its bitstream: none when it is white (R101). -/
def State.streamTags (s : State) (y : Nat) : List Tag := if s.rowWhite y then [] else s.rowTags y

/-- The tags of the current image, one list for each row. -/
def State.imageRows (s : State) : List (List Tag) := (List.range s.height.toNat).map s.streamTags

theorem imageRows_getD (hy : y < s.height.toNat) : s.imageRows.getD y [] = s.streamTags y := by
  simp [State.imageRows, hy]

theorem flatten_imageRows (s : State) : s.imageRows.flatten = s.imageTags := (List.flatMap_def ..).symm

/-- The packed bits of an image begin with its bits (R101). -/
theorem imageBits_prefix_packed (s : State) : s.imageBits <+: bitsOf (packed s.imageBits) := by
  rw [packed, bitsOf_packBits ((ceilDiv_eight_le _ _).mp le_rfl)]
  exact List.prefix_append _ _

end Tags

/-! ### A canonical container in SIN (R102, R104) -/

section Container
variable {s r : State}

/-- Where two strings of bytes stand one after another, each stands at its own address. -/
theorem bytes_append_inj {sp : Space} {a m n : Nat} {xs ys : List Byte} (length : xs.length = m)
    (e : r.bytes sp a (m + n) = xs ++ ys) : r.bytes sp a m = xs ∧ r.bytes sp (a + m) n = ys := by
  rw [State.bytes_add] at e
  exact List.append_inj e (by rw [State.bytes_length, length])

/-- The header's fields, where a header stands at the start of SIN (R102). -/
theorem header_reads {w h n b : Word32} (header : r.bytes .sin 0 19 = headerBytes w h n b) :
    (r.byte .sin 0 = Config.magic0 ∧ r.byte .sin 1 = Config.magic1 ∧ r.byte .sin 2 = 1#8) ∧
    r.sinLe32 3 = w.toNat ∧ r.sinLe32 7 = h.toNat ∧ r.sinLe32 11 = n.toNat ∧ r.sinLe32 15 = b.toNat := by
  obtain ⟨-, first, width, height, rows, stream⟩ := Proofs.headerLayout w h n b
  rw [← header] at first width height rows stream
  have first : [r.byte .sin 0, r.byte .sin 1, r.byte .sin 2] = [Config.magic0, Config.magic1, 1#8] := first
  exact ⟨by simpa using first, width, height, rows, stream⟩

/-- SIN of `r` begins with the canonical container of the image of `s`: each of its parts stands at its place. -/
structure HoldsContainer (s r : State) : Prop where
  magic : r.byte .sin 0 = Config.magic0 ∧ r.byte .sin 1 = Config.magic1 ∧ r.byte .sin 2 = 1#8
  width : r.sinLe32 3 = s.width.toNat
  height : r.sinLe32 7 = s.height.toNat
  rows : r.sinLe32 11 = ceilDiv s.height.toNat 8
  length : r.sinLe32 15 = ceilDiv s.imageBits.length 8
  index : r.bytes .sin 19 (ceilDiv s.height.toNat 8) = s.indexBytes
  stream : r.bytes .sin (19 + ceilDiv s.height.toNat 8) (ceilDiv s.imageBits.length 8) = packed s.imageBits

/-- The bytes of the container are its parts (R102). -/
theorem holdsContainer_of_bytes (short : s.container.length < 2 ^ 32)
    (e : r.bytes .sin 0 s.container.length = s.container) : HoldsContainer s r := by
  rw [container_length] at e short
  obtain ⟨front, stream⟩ := bytes_append_inj (by simp [State.indexBytes]) e
  obtain ⟨header, index⟩ := bytes_append_inj (headerBytes_length ..) front
  rw [Nat.zero_add] at index stream
  obtain ⟨magic, width, height, rows, length⟩ := header_reads header
  rw [toNat_ofNat_word (by omega)] at rows length
  exact ⟨magic, width, height, rows, length, index, stream⟩

/-- The container of an image that fits IMG passes every check of CF_PARSE (R221). -/
theorem HoldsContainer.parseError_eq (holds : HoldsContainer s r) (h : s.Inv) (described : s.imgValid = true)
    (params : r.params = s.params) (fits : s.container.length ≤ s.params.sinCap) :
    r.parseError s.container.length = none := by
  obtain ⟨magic0, magic1, version⟩ := holds.magic
  obtain ⟨wide, high⟩ := h.positive (.inl described)
  obtain ⟨width, height⟩ := h.dims
  have room := h.fits
  rw [State.parseError, holds.width, holds.height, holds.rows, holds.length, magic0, magic1, version, params]
  rw [container_length] at fits ⊢
  rw [if_neg (by omega), if_neg (by omega), if_neg (by simp), if_neg (by simp), if_neg (by omega), if_neg (by omega),
    if_neg (by simp), if_neg (by omega)]

/-- The row bits in the container are the image's (R103). -/
theorem HoldsContainer.sinRowBit_eq {y : Nat} (holds : HoldsContainer s r) (hy : y < s.height.toNat) :
    r.sinRowBit y = s.rowWhite y := by
  have byte := congrArg (·[y / 8]?) holds.index
  have byte : r.byte .sin (19 + y / 8) = s.indexByte (y / 8) := by
    simpa [State.bytes, State.indexBytes, rowByte_lt hy] using byte
  rw [State.sinRowBit, byte, indexByte_getLsbD _ _ (Nat.mod_lt y (by decide)), Nat.div_add_mod, decide_eq_true hy,
    Bool.true_and]

/-- The container holds the image's tags, row by row (R101). -/
theorem HoldsContainer.holdsTags (holds : HoldsContainer s r) : r.HoldsTags s.imageRows where
  count := by rw [holds.height, State.imageRows, List.length_map, List.length_range]
  groups y hy := by
    have hy : y < s.height.toNat := by simpa [State.imageRows] using hy
    rw [imageRows_getD hy, holds.sinRowBit_eq hy, holds.width, State.streamTags]
    cases s.rowWhite y with
    | true => rfl
    | false => simp [State.rowTags]
  bits := by
    rw [flatten_imageRows, tagBits_imageTags, holds.rows, holds.length, holds.stream]
    exact imageBits_prefix_packed s

/-- The tags of the image give the image back (R202, R227). -/
theorem HoldsContainer.decodedImage_eq (holds : HoldsContainer s r) :
    r.decodedImage s.imageRows = s.bytes .img 0 (s.width.toNat * s.height.toNat) := by
  rw [State.decodedImage, holds.height, holds.width, ← flatMap_bytes_rows]
  refine List.flatMap_congr fun y hy => ?_
  have hy := List.mem_range.mp hy
  rw [holds.sinRowBit_eq hy, imageRows_getD hy, State.streamTags]
  cases white : s.rowWhite y with
  | true => exact (bytes_of_rowWhite white).symm
  | false => exact rowPixels_rowTags s y

end Container

/-! ### CF_ENCODE that succeeds (R223, R225) -/

section Encode
variable {s t : State}

/-- A CF_ENCODE that ends with success has stored the canonical container of its image and returns its length. -/
theorem exec_cfEncode_success (h : s.Inv) (described : s.imgValid = true) (e : exec .cfEncode s = .next t)
    (success : t.status = statusOk) :
    t.bytes .sout 0 s.container.length = s.container ∧ t.result.toNat = s.container.length ∧
      s.container.length ≤ s.params.soutCap ∧ t.params = s.params := by
  obtain ⟨-, writerFull, soutFull⟩ := Proofs.failingCfEncodeHandsOverNothing s
  have failed {c : Cause} {u : State} (raised : exec .cfEncode s = .next (raiseError c u)) :
      causeStatus c = statusOk := by
    rw [← success, Host.Outcome.next.inj (e.symm.trans raised)]
    rfl
  by_cases fits : ceilDiv s.imageBits.length 8 ≤ s.params.wbufCap
  case neg =>
    obtain ⟨u, _, raised, -⟩ := writerFull h described (Nat.not_le.mp fits)
    exact absurd (failed raised) (by decide)
  by_cases short : s.container.length ≤ s.params.soutCap
  case neg =>
    obtain ⟨u, raised, -⟩ := soutFull h described fits (Nat.not_le.mp short)
    exact absurd (failed raised) (by decide)
  obtain ⟨u, returned, stores, -, -, frame⟩ := Proofs.cfEncodeWritesTheContainer s h described fits short
  obtain rfl := Host.Outcome.next.inj (returned.symm.trans e)
  refine ⟨stores.stored, toNat_ofNat_word (short.trans_lt (h.cap_lt .sout)), short, ?_⟩
  rw [frame]
  rfl

end Encode

end Machine

namespace Proofs
open Sys2Proof.Machine

/-- Settles O51: a CF_ENCODE that succeeds has written the canonical container, which passes CF_PARSE's checks and holds
the image's tags, and those tags decode to the image. -/
theorem decodeOfEncodedImageIsTheImage : Obligations.DecodeOfEncodedImageIsTheImage := by
  intro s t simg ssin h described encoded success fits hr same
  obtain ⟨container, length, short, params⟩ := exec_cfEncode_success h described encoded success
  rw [length] at fits same
  generalize copied : { t with img := simg, sin := ssin } = r at hr same ⊢
  have holds : HoldsContainer s r := by
    refine holdsContainer_of_bytes (short.trans_lt (h.cap_lt .sout)) (Eq.trans ?_ container)
    exact List.map_congr_left fun a ha => by rw [Nat.zero_add]; exact same a (List.mem_range.mp ha)
  have passes := holds.parseError_eq h described (by rw [← copied]; exact params) fits
  rw [← length] at passes
  obtain ⟨u, decoded, stores, -, frame⟩ := cfDecodeWritesTheImage r t.result s.imageRows hr passes holds.holdsTags
  have width : u.width = BitVec.ofNat 32 (r.sinLe32 3) := by rw [frame]; rfl
  have height : u.height = BitVec.ofNat 32 (r.sinLe32 7) := by rw [frame]; rfl
  rw [holds.width, BitVec.ofNat_toNat, BitVec.setWidth_eq] at width
  rw [holds.height, BitVec.ofNat_toNat, BitVec.setWidth_eq] at height
  have image := stores.stored
  rw [holds.decodedImage_eq, State.bytes_length] at image
  exact ⟨_, decoded, rfl, by rw [frame]; rfl, width, height, fun a ha => byte_eq_of_bytes_eq image ha⟩

end Proofs
end Sys2Proof
end

section
/-! PROOFS. The control commands (R260 to R264): NOP and RDREG only respond, SRST clears the registers, and IMGDESC and
IMGREL describe and release the image. -/

namespace Sys2Proof
namespace Machine

/-! ### Reading a register (R22, R262) -/

section Registers
variable (s : State)

/-- A field of any width placed below others adds its value to theirs, moved up: `toNat_append_word` at any width. -/
theorem toNat_append_fields {m n : Nat} (high : BitVec m) (low : BitVec n) :
    (high ++ low).toNat = high.toNat * 2 ^ n + low.toNat := by
  rw [BitVec.toNat_append, ← Nat.shiftLeft_add_eq_or_of_lt low.isLt, Nat.shiftLeft_eq]

/-- BW_STATE holds CUR from bit 0, CURSOR from bit 8 and FIN at bit 11. -/
theorem State.bwState_toNat : s.bwState.toNat = s.cur.toNat + 256 * s.bwCursor.toNat + 2048 * s.fin.toNat := by
  have fields : s.bwState.toNat = ((0 * 2 ^ 1 + s.fin.toNat) * 2 ^ 3 + s.bwCursor.toNat) * 2 ^ 8 + s.cur.toNat := by
    rw [State.bwState, toNat_append_fields, toNat_append_fields, toNat_append_fields, BitVec.toNat_ofBool]; rfl
  omega

/-- BR_STATE holds CURSOR from bit 0. -/
theorem State.brState_toNat : s.brState.toNat = s.brCursor.toNat := by
  have fields : s.brState.toNat = 0 * 2 ^ 3 + s.brCursor.toNat := toNat_append_fields 0#5 s.brCursor
  omega

/-- FLAGS holds IMG_VALID at bit 0 and RI_VALID at bit 1. -/
theorem State.flags_toNat : s.flags.toNat = s.imgValid.toNat + 2 * s.riValid.toNat := by
  have fields : s.flags.toNat = (0 * 2 ^ 1 + s.riValid.toNat) * 2 ^ 1 + s.imgValid.toNat := by
    rw [State.flags, toNat_append_fields, toNat_append_fields, BitVec.toNat_ofBool, BitVec.toNat_ofBool]; rfl
  omega

/-- What RDREG reads depends on the operand's number alone. -/
theorem readReg_of_number {r : Word32} {n : Nat} (number : r.toNat = n) :
    readReg r s = readReg (BitVec.ofNat 32 n) s := by
  rw [← number, BitVec.ofNat_toNat, BitVec.setWidth_eq]

/-- A register narrower than a word is read zero-extended, so as the number it holds. -/
theorem readReg_toNat_of_narrow {r : Word32} {m n : Nat} (field : BitVec m) (narrow : m ≤ 32)
    (selects : readReg (BitVec.ofNat 32 n) s = field.setWidth 32) (number : r.toNat = n) :
    (readReg r s).toNat = field.toNat := by
  rw [readReg_of_number s number, selects, BitVec.toNat_setWidth_of_le narrow]

/-- A register number the table does not assign reads 0. -/
theorem readReg_unassigned {r : Word32} (above : 0x0E ≤ r.toNat) : readReg r s = 0#32 := by
  unfold readReg
  split
  case h_15 => rfl
  all_goals omega

end Registers

/-! ### Describing the image (R263) -/

/-- A dimension is illegal when it is 0 or above DIM_MAX (R24). -/
theorem legalDim_eq_false_iff {d : Nat} : legalDim d = false ↔ d = 0 ∨ d > Config.dimMax := by
  simp only [legalDim, Bool.and_eq_false_iff, decide_eq_false_iff_not]
  omega

/-- IMGDESC's three checks stand before the one write of the description. -/
theorem exec_imgdesc (s : State) (w h : Word32) :
    exec (.imgdesc w h) s = complete (
      if w.toNat = 0 ∨ w.toNat > Config.dimMax then .raise .badWidth s
      else if h.toNat = 0 ∨ h.toNat > Config.dimMax then .raise .badHeight s
      else if s.params.imgCap < w.toNat * h.toNat then .raise .imageCapacity s
      else .ok (BitVec.ofNat 32 (w.toNat * h.toNat))
        { s with width := w, height := h, imgValid := true, riValid := false }) := by
  simp only [exec, execImgdesc, imgdescOp, raiseIf_bind, Bool.not_eq_true', legalDim_eq_false_iff, decide_eq_true_eq]

/-- The number of pixels of an image that fits IMG is a word, so IMGDESC returns it exactly (R6). -/
theorem toNat_ofNat_pixels {s : State} {w h : Word32} (legal : s.params.Legal)
    (fits : w.toNat * h.toNat ≤ s.params.imgCap) :
    (BitVec.ofNat 32 (w.toNat * h.toNat)).toNat = w.toNat * h.toNat := by
  obtain ⟨⟨-, capacity⟩, -⟩ := legal
  exact toNat_ofNat_word (by omega)

end Machine

namespace Proofs
open Sys2Proof.Machine

/-- Settles O15: the response is all that NOP writes. -/
theorem nopOnlyResponds : Obligations.NopOnlyResponds := fun _ => rfl

/-- Settles O16: resetting the registers of a state leaves the reset state with the memories it had. -/
theorem srstResetsRegistersAndKeepsMemory : Obligations.SrstResetsRegistersAndKeepsMemory := fun _ => rfl

/-- Settles O17: each assigned number selects its register, and the composed ones hold their fields as R22 places them. -/
theorem rdregReturnsTheRegister : Obligations.RdregReturnsTheRegister := by
  intro s r
  refine ⟨readReg r s, rfl, ?status, readReg_of_number s, readReg_of_number s, readReg_of_number s, readReg_of_number s,
    readReg_of_number s, readReg_of_number s, ?bwState, readReg_of_number s, readReg_of_number s, readReg_of_number s,
    ?brState, ?flags, readReg_of_number s, readReg_unassigned s⟩
  case status => exact readReg_toNat_of_narrow s s.status (by decide) rfl
  case bwState => exact s.bwState_toNat ▸ readReg_toNat_of_narrow s s.bwState (by decide) rfl
  case brState => exact s.brState_toNat ▸ readReg_toNat_of_narrow s s.brState (by decide) rfl
  case flags => exact s.flags_toNat ▸ readReg_toNat_of_narrow s s.flags (by decide) rfl

/-- Settles O18: the checks stand in R263's order, and an image that passes them has a number of pixels that fits a
word. -/
theorem imgdescDescribesTheImage : Obligations.ImgdescDescribesTheImage := by
  intro s w h
  refine ⟨fun badWidth => ?badWidth, fun goodWidth badHeight => ?badHeight, fun goodWidth goodHeight large => ?large,
    fun legal goodWidth goodHeight fits => ⟨_, toNat_ofNat_pixels legal fits, ?describes⟩⟩
  case badWidth =>
    rw [exec_imgdesc, if_pos badWidth]
    rfl
  case badHeight =>
    rw [exec_imgdesc, if_neg (by omega), if_pos badHeight]
    rfl
  case large =>
    rw [exec_imgdesc, if_neg (by omega), if_neg (by omega), if_pos large]
    rfl
  case describes =>
    rw [exec_imgdesc, if_neg (by omega), if_neg (by omega), if_neg (Nat.not_lt.mpr fits)]
    rfl

/-- Settles O19: both flags are cleared before IMGREL returns 0, and it has no check that could fail. -/
theorem imgrelReleasesTheImage : Obligations.ImgrelReleasesTheImage := fun _ => rfl

end Proofs
end Sys2Proof
end

section
/-! PROOFS. Status words (R280 to R285): the two fields of a status word do not overlap. -/

namespace Sys2Proof
namespace Machine

/-- A status word holds KIND from bit 0 and CAUSE from bit 4 (R22, R280). -/
theorem statusWord_toNat {kind cause : Nat} (kindFits : kind < 2 ^ 4) (causeFits : cause < 2 ^ 12) :
    (statusWord kind cause).toNat = 16 * cause + kind := by
  have low : kind % 2 ^ 16 = kind := Nat.mod_eq_of_lt (by omega)
  have high : cause <<< 4 % 2 ^ 16 = cause <<< 4 := Nat.mod_eq_of_lt (by rw [Nat.shiftLeft_eq]; omega)
  have word : (statusWord kind cause).toNat = cause <<< 4 ||| kind := by
    rw [statusWord, BitVec.toNat_or, BitVec.toNat_shiftLeft, BitVec.toNat_ofNat, BitVec.toNat_ofNat, low,
      Nat.mod_eq_of_lt (show cause < 2 ^ 16 by omega), high]
  rw [word, ← Nat.shiftLeft_add_eq_or_of_lt kindFits, Nat.shiftLeft_eq]
  omega

/-- Every KIND is one of 1, 2, 4 and 5 (R280, R298). -/
theorem kindCode_lt (c : Cause) : kindCode c < 2 ^ 4 := by cases c <;> decide

/-- Every CAUSE fits its eight bits (R281 to R284). -/
theorem causeCode_lt (c : Cause) : causeCode c < 2 ^ 8 := by cases c <;> decide

/-- The status word of a cause is its two codes side by side (R285). -/
theorem causeStatus_toNat (c : Cause) : (causeStatus c).toNat = 16 * causeCode c + kindCode c :=
  statusWord_toNat (kindCode_lt c) ((causeCode_lt c).trans (by decide))

/-- No cause has the status word of success: KIND 0 is no cause's (R280). -/
theorem causeStatus_ne_ok (c : Cause) : causeStatus c ≠ statusOk := by
  intro ok
  have zero : 16 * causeCode c + kindCode c = 0 := by rw [← causeStatus_toNat, ok]; rfl
  have kind : 0 < kindCode c := by cases c <;> decide
  omega

end Machine

namespace Proofs
open Sys2Proof.Machine

/-- Settles O10: the exception entry is the end of a command with the cause's status word and result 0, and that word is
the two codes side by side. -/
theorem errorEntryWritesStatusAndResult : Obligations.ErrorEntryWritesStatusAndResult :=
  fun c _ => ⟨rfl, causeStatus_toNat c⟩

/-- Settles O11: each row of the four tables is computed. -/
theorem statusWordOfEveryCause : Obligations.StatusWordOfEveryCause := by
  unfold Obligations.StatusWordOfEveryCause
  decide

end Proofs
end Sys2Proof
end

section
/-! PROOFS. No operation looks at the outcome of an earlier command (R12, R286): one judgement for "does the same whatever
STATUS, RESULT and the responses hold", its rules, and the operations of the encoder and the decoder one after another. -/

namespace Sys2Proof
namespace Machine

/-! ### The judgement and its rules -/

/-- The state with STATUS, RESULT and the responses of `o`. -/
def State.withOutcome (s o : State) : State :=
  { s with status := o.status, result := o.result, responses := o.responses }

/-- The same end of an operation, in the state with the outcome of `o`. -/
def Res.withOutcome {α : Type} (o : State) : Res α → Res α
  | .ok a s => .ok a (s.withOutcome o)
  | .raise c s => .raise c (s.withOutcome o)
  | .fault f => .fault f

/-- The second end is the first but for the outcome it carries, that of `o`. -/
def Res.Alike {α : Type} (o : State) (r r' : Res α) : Prop := r' = r.withOutcome o

/-- The operation neither depends on the outcome of an earlier command nor changes it. -/
def OutcomeBlind {α : Type} (op : State → Res α) : Prop :=
  ∀ o s : State, (op s).Alike o (op (s.withOutcome o))

section Rules
variable {α β : Type} {o s : State}

/-- The state has the outcome it has. -/
theorem State.withOutcome_self (s : State) : s.withOutcome s = s := rfl

theorem State.setMem_withOutcome (s o : State) (sp : Space) (m : Memory) :
    (s.withOutcome o).setMem sp m = (s.setMem sp m).withOutcome o := by cases sp <;> rfl

theorem State.mem_withOutcome (s o : State) (sp : Space) : (s.withOutcome o).mem sp = s.mem sp := by cases sp <;> rfl

theorem State.byte_withOutcome (s o : State) (sp : Space) (a : Nat) :
    (s.withOutcome o).byte sp a = s.byte sp a := by cases sp <;> rfl

theorem State.advanceReader_withOutcome (s o : State) :
    (s.withOutcome o).advanceReader = s.advanceReader.withOutcome o := by
  rw [State.advanceReader, State.advanceReader, apply_ite (State.withOutcome · o)]
  rfl

theorem Res.Alike.ok (a : α) : (Res.ok a s).Alike o (.ok a (s.withOutcome o)) := rfl

theorem Res.Alike.raise (c : Cause) : (Res.raise c s : Res α).Alike o (.raise c (s.withOutcome o)) := rfl

theorem Res.Alike.fault (f : Fault) : (Res.fault f : Res α).Alike o (.fault f) := rfl

/-- Sequences of parts that end alike end alike. -/
theorem Res.Alike.bind {r r' : Res α} {k k' : α → State → Res β} (first : r.Alike o r')
    (second : ∀ a t, (k a t).Alike o (k' a (t.withOutcome o))) : (r.bind k).Alike o (r'.bind k') := by
  rw [first]
  cases r with
  | ok a t => exact second a t
  | raise c t => exact .raise c
  | fault f => exact .fault f

/-- Computing a value from the one returned. -/
theorem Res.Alike.returning {r r' : Res α} {g : α → β} (body : r.Alike o r') :
    (r.bind fun a t => .ok (g a) t).Alike o (r'.bind fun a t => .ok (g a) t) :=
  body.bind fun a _ => .ok (g a)

/-- A check of something that is no part of the outcome. -/
theorem Res.Alike.check {b : Bool} {c : Cause} {k k' : Unit → State → Res β}
    (rest : (k () s).Alike o (k' () (s.withOutcome o))) :
    ((raiseIf b c s).bind k).Alike o ((raiseIf b c (s.withOutcome o)).bind k') := by
  cases b with
  | true => exact .raise c
  | false => exact rest

/-- A raise that is handled on both sides. -/
theorem Res.Alike.onRaise {r r' : Res α} {h h' : State → Res Unit} (body : r.Alike o r')
    (handler : ∀ t, (h t).Alike o (h' (t.withOutcome o))) : (r.onRaise h).Alike o (r'.onRaise h') := by
  rw [body]
  cases r with
  | ok a t => exact .ok a
  | raise c t => exact (handler t).bind fun _ _ => .raise c
  | fault f => exact .fault f

/-- A loop whose turns are blind is blind. -/
theorem forLoop_blind {body : Nat → State → Res Unit} (turn : ∀ j, OutcomeBlind (body j)) (k i : Nat) :
    OutcomeBlind (forLoop body k i) := by
  induction k generalizing i with
  | zero => exact fun o s => .ok ()
  | succ k ih => exact fun o s => (turn i o s).bind fun _ t => ih (i + 1) o t

end Rules

/-! ### Memory -/

section Memory
variable {sp : Space}

theorem memRead_blind (a : Nat) : OutcomeBlind (memRead sp a) := by
  intro o s
  rcases memRead_cases sp a s with ⟨inside, e⟩ | ⟨outside, e⟩
  · rw [e, memRead_inside (s := s.withOutcome o) inside, State.byte_withOutcome]
    exact .ok _
  · rw [e, show memRead sp a (s.withOutcome o) = .fault (.outsideSpace sp a) from if_neg (Nat.not_lt.mpr outside)]
    exact .fault _

theorem memReadBytes_blind (n a : Nat) : OutcomeBlind (memReadBytes sp n a) := by
  induction n generalizing a with
  | zero => exact fun o s => .ok []
  | succ n ih => exact fun o s => (memRead_blind a o s).bind fun _ t => (ih (a + 1) o t).returning

theorem memWrite_blind (a : Nat) (v : Byte) : OutcomeBlind (memWrite sp a v) := by
  intro o s
  unfold memWrite
  rw [State.mem_withOutcome, State.setMem_withOutcome]
  by_cases inside : a < s.params.cap sp
  · rw [if_pos inside, if_pos (by exact inside)]
    exact .ok ()
  · rw [if_neg inside, if_neg (by exact inside)]
    exact .fault _

theorem memWriteBytes_blind (a : Nat) (bs : List Byte) : OutcomeBlind (memWriteBytes sp a bs) := by
  induction bs generalizing a with
  | nil => exact fun o s => .ok ()
  | cons b bs ih => exact fun o s => (memWrite_blind a b o s).bind fun _ t => ih (a + 1) o t

/-- A row's bit lies in RIBUF. -/
theorem rixBit_blind (y : Nat) : OutcomeBlind (rixBit y) := fun o s => (memRead_blind _ o s).returning

end Memory

/-! ### The encoder (R122, R126, R161, R182, R220) -/

theorem bwInitOp_blind : OutcomeBlind bwInitOp := fun _ _ => rfl

/-- A bit moves the cursor on or completes a byte, as the cursor says. -/
theorem bwEmit_blind (b : Bool) : OutcomeBlind (bwEmit b) := by
  intro o s
  unfold bwEmit
  by_cases last : s.bwCursor = 7#3
  · rw [if_pos last, if_pos (by exact last)]
    exact (memWrite_blind s.bwLen.toNat (s.curWith b) o s).bind fun _ t => .ok ()
  · rw [if_neg last, if_neg (by exact last)]
    exact .ok ()

theorem bwEmitAll_blind (bs : List Bool) : OutcomeBlind (bwEmitAll bs) := by
  induction bs with
  | nil => exact fun o s => .ok ()
  | cons b bs ih => exact fun o s => (bwEmit_blind b o s).bind fun _ t => ih o t

theorem bwPut_blind (bs : List Bool) : OutcomeBlind (bwPut bs) := fun o s => .check (bwEmitAll_blind bs o s)

theorem bwFlush_blind : OutcomeBlind bwFlush := by
  intro o s
  unfold bwFlush
  by_cases whole : s.bwCursor = 0#3
  · rw [if_pos whole, if_pos (by exact whole)]
    exact .ok ()
  · rw [if_neg whole, if_neg (by exact whole)]
    exact (memWrite_blind s.bwLen.toNat s.cur o s).bind fun _ t => .ok ()

theorem bwFinishOp_blind : OutcomeBlind bwFinishOp := by
  intro o s
  unfold bwFinishOp
  by_cases finished : s.fin = true
  · rw [if_pos finished, if_pos (by exact finished)]
    exact .ok _
  · rw [if_neg finished, if_neg (by exact finished)]
    exact (bwFlush_blind o s).bind fun _ t => .ok _

/-- A row's bit is set when its pixels are white. -/
theorem reiBuildRow_blind (y : Nat) : OutcomeBlind (reiBuildRow y) := by
  intro o s
  refine ((memReadBytes_blind s.width.toNat (pixelAddr s.width.toNat 0 y) o s).returning).bind fun white t => ?_
  cases white with
  | true => exact (memRead_blind _ o t).bind fun v u => memWrite_blind _ _ o u
  | false => exact .ok ()

theorem reiBuildOp_blind : OutcomeBlind reiBuildOp := by
  intro o s
  exact .check ((memWriteBytes_blind 0 _ o s).bind fun _ t =>
    (forLoop_blind reiBuildRow_blind t.height.toNat 0 o t).bind fun _ u => .ok _)

theorem beGroupBody_blind (y g : Nat) : OutcomeBlind (beGroupBody y g) := by
  intro o s
  have pixels := memReadBytes_blind (sp := .img) (validCount s.width.toNat g) (pixelAddr s.width.toNat (4 * g) y) o s
  exact pixels.returning.bind fun tag t => (bwPut_blind tag.bits o t).bind fun _ u => .ok _

/-- A row flagged empty gives nothing, and any other its groups. -/
theorem beEncodeRowOp_blind (y : Nat) : OutcomeBlind (beEncodeRowOp y) := by
  intro o s
  have group (g : Nat) : OutcomeBlind fun u => (beGroupBody y g u).bind fun _ v => .ok () v :=
    fun o u => (beGroupBody_blind y g o u).returning
  refine .check (.check (.check (.check ((rixBit_blind y o s).bind fun empty t => ?_))))
  cases empty with
  | true => exact .ok _
  | false => exact (forLoop_blind group (groupCount t.width.toNat) 0 o t).bind fun _ u => .ok _

theorem cfAssembleOp_blind : OutcomeBlind cfAssembleOp := by
  intro o s
  exact .check (.check (.check ((memReadBytes_blind s.riCount.toNat 0 o s).bind fun rows t =>
    (memReadBytes_blind t.bwLen.toNat 0 o t).bind fun stream u =>
    (memWriteBytes_blind 0 (assembleBytes rows stream u) o u).bind fun _ v => .ok _)))

/-! ### The decoder (R140, R201, R202) -/

/-- Taking a bit looks at the reader and SIN. -/
theorem brTake_blind : OutcomeBlind brTake := by
  intro o s
  unfold brTake
  by_cases ended : s.brLen.toNat ≤ s.brIdx.toNat
  · rw [if_pos ended, if_pos (by exact ended)]
    exact .raise _
  · rw [if_neg ended, if_neg (by exact ended)]
    refine (memRead_blind (s.brBase.toNat + s.brIdx.toNat) o s).bind fun byte t => ?_
    rw [State.advanceReader_withOutcome]
    exact .ok _

theorem brTakeBits_blind {w : Nat} (k : Nat) (v : BitVec w) : OutcomeBlind (brTakeBits k v) := by
  induction k generalizing v with
  | zero => exact fun o s => .ok v
  | succ k ih => exact fun o s => (brTake_blind o s).bind fun b t => ih (shiftIn v b) o t

theorem fetchPayload_blind : OutcomeBlind fetchPayload := by
  have byte : OutcomeBlind brTakeByte := brTakeBits_blind 8 _
  exact fun o s =>
    (byte o s).bind fun _ t => (byte o t).bind fun _ u => (byte o u).bind fun _ v => (byte o v).returning

theorem fetchTag_blind : OutcomeBlind fetchTag := by
  refine fun o s => (brTake_blind o s).bind fun coded t => ?_
  cases coded with
  | false => exact .ok _
  | true =>
    refine (brTake_blind o t).bind fun literal u => ?_
    cases literal with
    | false => exact .ok _
    | true => exact fetchPayload_blind o u

theorem bdGroupBody_blind (y g : Nat) : OutcomeBlind (bdGroupBody y g) := by
  intro o s
  have tag := fetchTag_blind o (s.atGroup (BitVec.ofNat 32 y) (BitVec.ofNat 32 g))
  exact tag.bind fun tag t => (memWriteBytes_blind (sp := .img) _ _ o t).bind fun _ u => .ok _

theorem unspecifyImg_blind (a n : Nat) : OutcomeBlind (unspecifyImg a n) :=
  fun o s => memWriteBytes_blind a _ o { s with draws := s.draws + 1 }

/-- A row flagged empty is filled, and any other decoded group by group. -/
theorem bdDecodeRowOp_blind (y : Nat) : OutcomeBlind (bdDecodeRowOp y) := by
  intro o s
  have group (g : Nat) : OutcomeBlind fun u => (bdGroupBody y g u).bind fun _ v => .ok () v :=
    fun o u => (bdGroupBody_blind y g o u).returning
  refine .check (.check ((rixBit_blind y o s).bind fun empty t => ?_))
  cases empty with
  | true => exact (memWriteBytes_blind _ _ o t).bind fun _ u => .ok _
  | false =>
    have groups := forLoop_blind group (groupCount t.width.toNat) 0 o t
    exact (groups.onRaise (unspecifyImg_blind _ t.width.toNat o)).bind fun _ u => .ok _

end Machine
end Sys2Proof
end

section
/-! PROOFS. The stepwise encode and decode (R313, R314): the composite commands run the bodies of the others one after
another, and those bodies are blind to the outcomes that come between them. -/

namespace Sys2Proof
namespace Machine

/-! ### Commands one after another -/

section Runs
variable {s t u : State}

/-- Instructions after one that ended in a state run from that state. -/
theorem execAll_cons {i : Instr} {is : List Instr} (e : exec i s = .next t) : execAll (i :: is) s = execAll is t := by
  rw [execAll, e]

/-- Issued after a success in any state that is `s` but for the outcome, the commands all run, end with success and
lead to `t` but for the outcome. -/
def Performs (is : List Instr) (s t : State) : Prop :=
  ∀ o : State, o.status = statusOk →
    ∃ o' : State, o'.status = statusOk ∧ execAll is (s.withOutcome o) = .next (t.withOutcome o')

theorem Performs.append {is js : List Instr} (first : Performs is s t) (second : Performs js t u) :
    Performs (is ++ js) s u := by
  intro o success
  obtain ⟨o1, success1, run1⟩ := first o success
  obtain ⟨o2, success2, run2⟩ := second o1 success1
  exact ⟨o2, success2, (execAll_append run1).trans run2⟩

/-- A command whose body is blind ends, after any outcome, as the body does. -/
theorem exec_withOutcome {i : Instr} {op : State → Res Word32} {v : Word32} (blind : OutcomeBlind op)
    (body : ∀ u, exec i u = complete (op u)) (e : op s = .ok v t) (o : State) :
    exec i (s.withOutcome o) = .next (returnValue v (t.withOutcome o)) := by
  have same : op (s.withOutcome o) = .ok v (t.withOutcome o) := by rw [blind o s, e]; rfl
  rw [body, same]
  rfl

theorem performs_command {i : Instr} {op : State → Res Word32} {v : Word32} (blind : OutcomeBlind op)
    (body : ∀ u, exec i u = complete (op u)) (e : op s = .ok v t) : Performs [i] s t :=
  fun o _ => ⟨returnValue v (t.withOutcome o), rfl, execAll_cons (exec_withOutcome blind body e o)⟩

/-- The turns of a loop over bodies of commands are the commands one after another. -/
theorem performs_loop {command : Nat → Instr} {op : Nat → State → Res Word32} {k i n : Nat}
    (blind : ∀ y, OutcomeBlind (op y)) (body : ∀ y < n, ∀ u, exec (command y) u = complete (op y u))
    (below : i + k ≤ n) (e : forLoop (fun y u => (op y u).bind fun _ v => .ok () v) k i s = .ok () t) :
    Performs ((List.range' i k).map command) s t := by
  induction k generalizing i s with
  | zero =>
    cases e
    exact fun o success => ⟨o, success, rfl⟩
  | succ k ih =>
    obtain ⟨_, u, turn, rest⟩ := Res.bind_eq_ok.mp e
    obtain ⟨v, w, here, last⟩ := Res.bind_eq_ok.mp turn
    cases last
    exact (performs_command (blind i) (body i (by omega)) here).append (ih (by omega) rest)

/-- The commands for every row of an image, whose height is a word, do what the loop over the rows does. -/
theorem performs_rows {command : Word32 → Instr} {op : Nat → State → Res Word32} (h : Word32)
    (blind : ∀ y, OutcomeBlind (op y)) (body : ∀ y u, exec (command y) u = complete (op y.toNat u))
    (e : forLoop (fun y u => (op y u).bind fun _ v => .ok () v) h.toNat 0 s = .ok () t) :
    Performs ((List.range h.toNat).map fun y => command (BitVec.ofNat 32 y)) s t := by
  rw [List.range_eq_range']
  exact performs_loop blind (n := 2 ^ 32) (fun y hy u => by rw [body, toNat_ofNat_word hy]) (by omega) e

/-- A command that ends with success has returned a value (R285, R286). -/
theorem complete_success {r : Res Word32} (e : complete r = .next t) (success : t.status = statusOk) :
    ∃ v u, r = .ok v u ∧ t = returnValue v u := by
  rcases complete_next e with returned | ⟨c, u, -, rfl⟩
  · exact returned
  · exact absurd success (causeStatus_ne_ok c)

end Runs

/-! ### The composite commands as sequences (R223, R224) -/

section Composites
variable {s t : State}

/-- What an operation that keeps `f` keeps when it ends. -/
theorem Res.Keeps.of_ok {α β : Type} {f : State → β} {r : Res α} {a : α} (kept : r.Keeps f s) (e : r = .ok a t) :
    f t = f s := by
  rw [e] at kept
  exact kept

/-- IMGDESC that succeeds has described the image (R263). -/
theorem exec_imgdesc_success {w h : Word32} (e : exec (.imgdesc w h) s = .next t) (success : t.status = statusOk) :
    t.imgValid = true ∧ t.height = h := by
  rw [exec_imgdesc] at e
  obtain ⟨v, u, returned, rfl⟩ := complete_success e success
  split_ifs at returned
  cases returned
  exact ⟨rfl, rfl⟩

/-- CF_ASSEMBLE returns the length it leaves in SOUT_LEN (R220). -/
theorem cfAssembleOp_soutLen {v : Word32} (e : cfAssembleOp s = .ok v t) : t.soutLen = v := by
  simp only [cfAssembleOp, raiseIf_bind] at e
  split_ifs at e
  obtain ⟨rows, s1, -, e⟩ := Res.bind_eq_ok.mp e
  obtain ⟨stream, s2, -, e⟩ := Res.bind_eq_ok.mp e
  obtain ⟨_, s3, -, e⟩ := Res.bind_eq_ok.mp e
  cases e
  rfl

/-- CF_ENCODE that succeeds after a success ends in CF_ASSEMBLE, and the stepwise encode ends in the same one but for the
outcome before it. -/
theorem stepwiseEncode_of_exec_cfEncode (described : s.imgValid = true) (earlier : s.status = statusOk)
    (e : exec .cfEncode s = .next t) (success : t.status = statusOk) :
    ∃ x v u o, cfAssembleOp x = .ok v u ∧ t = returnValue v u ∧
      execAll (stepwiseEncode s.height.toNat) s = .next (returnValue v (u.withOutcome o)) := by
  obtain ⟨v, u, body, rfl⟩ := complete_success e success
  have body : cfEncodeBody s = .ok v u := by
    simpa [Res.onRaise_eq_ok, cfEncodeOp, described] using body
  obtain ⟨_, s1, init, body⟩ := Res.bind_eq_ok.mp body
  obtain ⟨_, s2, index, body⟩ := Res.bind_eq_ok.mp body
  obtain ⟨_, s3, rows, body⟩ := Res.bind_eq_ok.mp body
  obtain ⟨_, x, finish, assemble⟩ := Res.bind_eq_ok.mp body
  have opened : s1.height = s.height := by cases init; rfl
  have indexed : s2.height = s1.height := (reiBuildOp_keeps (fun _ _ => rfl) (fun _ _ => rfl) s1).of_ok index
  rw [indexed, opened] at rows
  have started : Performs [.bwInit, .reiBuild] s s2 :=
    (performs_command (i := .bwInit) bwInitOp_blind (fun _ => rfl) init).append
      (performs_command (i := .reiBuild) reiBuildOp_blind (fun _ => rfl) index)
  have coded := performs_rows (command := .beEncodeRow) s.height beEncodeRowOp_blind (fun _ _ => rfl) rows
  have finished := performs_command (i := .bwFinish) bwFinishOp_blind (fun _ => rfl) finish
  obtain ⟨o, -, run⟩ := ((started.append coded).append finished) s earlier
  refine ⟨x, v, u, o, assemble, rfl, ?_⟩
  rw [stepwiseEncode, List.append_cons _ Instr.bwFinish]
  exact (execAll_append run).trans (execAll_cons (exec_withOutcome cfAssembleOp_blind (fun _ => rfl) assemble o))

/-- CF_PARSE that succeeds has committed what SIN holds (R221). -/
theorem cfParseOp_parsed {l : Nat} {v : Word32} (h : s.Inv) (e : cfParseOp l s = .ok v t) :
    t = { s.parsed with ribuf := t.ribuf } := by
  rw [cfParseOp_eq] at e
  cases checks : s.parseError l with
  | some c => rw [checks] at e; cases e
  | none =>
    obtain ⟨u, committed, -, frame, -⟩ := cfParseCommit_commits h checks
    rw [checks, Option.elim_none, committed] at e
    cases e
    exact frame

/-- Decoding the rows changes neither the height nor IMG_VALID (R224). -/
theorem cfDecodeRows_frame {x : State} (e : cfDecodeRows s = .ok () x) :
    x.height = s.height ∧ x.imgValid = s.imgValid := by
  have spares : SparesDecode fun u => (u.height, u.imgValid) :=
    ⟨fun _ _ _ => rfl, fun _ _ => rfl, fun _ _ _ => rfl, fun _ _ => rfl⟩
  exact Prod.mk.inj ((forLoop_keeps_frame (fun y u => (bdDecodeRowOp_keeps spares y u).returning) _ _ s).of_ok e)

/-- CF_DECODE that succeeds hands over the image the stepwise decode comes to, which has not set IMG_VALID. -/
theorem stepwiseDecode_of_exec_cfDecode {l : Word32} (h : s.Inv) (e : exec (.cfDecode l) s = .next t)
    (success : t.status = statusOk) :
    ∃ u o : State, t = returnValue (BitVec.ofNat 32 (u.width.toNat * u.height.toNat)) { u with imgValid := true } ∧
      u.imgValid = false ∧ o.status = statusOk ∧
      execAll (stepwiseDecode l u.height.toNat) s = .next (u.withOutcome o) := by
  obtain ⟨w, r, body, rfl⟩ := complete_success e success
  obtain ⟨v, x, parsed, body⟩ := Res.bind_eq_ok.mp body
  obtain ⟨_, u, rows, body⟩ := Res.bind_eq_ok.mp body
  cases body
  have rows : cfDecodeRows x = .ok () u := Res.onRaise_eq_ok.mp rows
  obtain ⟨height, imgValid⟩ := cfDecodeRows_frame rows
  have parse : exec (.cfParse l) s = .next (returnValue v x) := by rw [exec, execCfParse, parsed]; rfl
  have decoded := performs_rows (command := .bdDecodeRow) x.height bdDecodeRowOp_blind (fun _ _ => rfl) rows
  obtain ⟨o, last, run⟩ := decoded (returnValue v x) rfl
  rw [cfParseOp_parsed h parsed] at imgValid
  refine ⟨u, o, rfl, imgValid, last, ?_⟩
  rw [stepwiseDecode, execAll_cons parse, height]
  exact run

end Composites

end Machine

namespace Proofs
open Sys2Proof.Machine

/-- Settles O52: CF_ENCODE runs the bodies of the stepwise commands in their order, no body sees the outcome of the one
before, and the last command of both is CF_ASSEMBLE, whose value is the result of both. -/
theorem stepwiseEncodeAgrees : Obligations.StepwiseEncodeAgrees := by
  intro s r t w h hs describes described encodes encoded
  obtain ⟨imgValid, height⟩ := exec_imgdesc_success describes described
  obtain ⟨container, length, -⟩ := exec_cfEncode_success (exec_keeps_inv hs describes) imgValid encodes encoded
  obtain ⟨x, v, u, o, assembled, rfl, run⟩ := stepwiseEncode_of_exec_cfEncode imgValid described encodes encoded
  refine ⟨(cfAssembleOp_soutLen assembled).symm, length ▸ container, returnValue v (u.withOutcome o), ?_, rfl, rfl⟩
  rw [execAll_cons describes, ← height, run]

/-- Settles O53: CF_DECODE runs the bodies of CF_PARSE and then of BD_DECODE_ROW for every row, no body sees the outcome
of the one before, and only then is IMG_VALID set; the image fits IMG, so its size is a word. -/
theorem stepwiseDecodeAgrees : Obligations.StepwiseDecodeAgrees := by
  intro s t l h decodes decoded
  have ht := exec_keeps_inv h decodes
  obtain ⟨u, o, rfl, invalid, last, run⟩ := stepwiseDecode_of_exec_cfDecode h decodes decoded
  refine ⟨rfl, toNat_ofNat_pixels ht.params ht.fits, u.withOutcome o, run, last, invalid, ?_⟩
  rw [State.withOutcome, last]
  rfl

end Proofs
end Sys2Proof
end
